-- ==== Sys2Proof/Word.lean ====
section
/-! DEFINITION. The plain value types of the block: bytes, 32-bit register words, 17-bit bus offsets and
16-byte blocks (spec 00_scope.md R8, R11, R15 to R17). What is computed with them stands in Machine/. -/

namespace Sys2Proof

/-- An unsigned byte, 0..255 (R15). -/
abbrev Byte := BitVec 8

/-- A 32-bit register or bus word (R11). -/
abbrev Word := BitVec 32

/-- A byte offset from the block's base address: the block decodes 17 bits (R11, R80). -/
abbrev Offset := BitVec 17

/-- A block: a byte sequence of length 16, byte 0 first (R8, R17). -/
abbrev Block := Vector Byte 16

end Sys2Proof
end

