-- ==== Sys2Proof/Config.lean ====
section
/-! DEFINITION. What one realisation of the block fixes (00_scope.md R8 to R12, 93_implementation_defined.md
section 1) and the free values of the model. The parameters are plain data, so that a statement over every state
is a statement over every configuration; the block cipher and the answers of the random byte source are opaque
constants, so that nothing can be proved of their values beyond what the spec assumes. -/

namespace Sys2Proof

/-- KEYSIZES, a subset of the key lengths 16, 24 and 32 bytes (R9). -/
structure KeySizes where
  /-- 16 is in KEYSIZES. -/
  k16 : Bool
  /-- 24 is in KEYSIZES. -/
  k24 : Bool
  /-- 32 is in KEYSIZES. -/
  k32 : Bool
  deriving DecidableEq, Repr

/-- Which block cipher the realisation has (R12). -/
inductive CipherChoice where
  /-- BLOCK_CIPHER itself: any cipher with the two inverse laws, of which nothing else is known. -/
  | external
  /-- TOY, the spec's own test cipher (95_test_vectors.md section 2.2). -/
  | toy
  deriving DecidableEq, Repr

/-- The parameters of the block and of its host (R9, R10, R12, R102, R253). -/
structure Config where
  /-- KEYSIZES (R9). -/
  keySizes : KeySizes
  /-- Index of the last 16-byte block of BUF: BUF_BYTES is a multiple of 16 in 16..65536 by construction (R10). -/
  topBlock : Fin 4096
  /-- BLOCK_CIPHER (R12). -/
  cipher : CipherChoice
  /-- STRICT_UNPAD, the host's strictness option (R253). -/
  strictUnpad : Bool
  /-- MENG_BASE in units of 0x20000, to which it is aligned (R102). -/
  baseIndex : Nat
  deriving DecidableEq, Repr

/-- The default parameters: KEYSIZES = 16, 24, 32 (R9), BUF_BYTES = 4096 (R10), STRICT_UNPAD = false (R253).
BLOCK_CIPHER has no default and stays the unknown one. MENG_BASE is OPEN in the spec; 0 is a DESIGN CHOICE
(log entry 7, safe: no rule depends on it). -/
def Config.default : Config where
  keySizes := { k16 := true, k24 := true, k32 := true }
  topBlock := 255
  cipher := .external
  strictUnpad := false
  baseIndex := 0

/-- One answer of the random byte source to a one-byte request (R200). -/
inductive Answer where
  /-- `Byte(b)`. -/
  | byte (b : Byte)
  /-- `Fail`. -/
  | fail
  deriving DecidableEq, Repr, Inhabited

/-- FREE VALUE (log entry 1). BLOCK_CIPHER: for each key a bijection of the 16-byte blocks, whose two directions are
`E(K, ·)` and `D(K, ·)`; a bijection is exactly a pair of total functions with both inverse laws (R12). -/
opaque Config.externalCipher : List Byte → Equiv.Perm Block

/-- FREE VALUE (log entry 2). The answer of the random byte source to its request number `n`, where the state lists
no answer: any byte or Fail, under no law (R14, R200). -/
opaque Config.freeAnswer : Nat → Answer

end Sys2Proof
end

