-- ==== Sys2Proof/Machine/State.lean ====
section
/-! DEFINITION. The state of the block (10_state.md R30), as plain data, the inputs from outside it, the reasons a
step can stop, and the state after reset (70_reset_and_hazards.md R341). ID and CAP are constants, CTRL holds nothing
and irq follows from two fields, so none of the four is stored: they are computed in Machine/Flags.lean. -/

namespace Sys2Proof.Machine

/-- Which step of a command comes next (R51). -/
inductive Phase where
  /-- No command is executing. -/
  | idle
  /-- The start step, with the checks, comes next. -/
  | check
  /-- The checks have passed. -/
  | run
  deriving DecidableEq, Repr

/-- The error codes of STATUS.ECODE (30_encoding.md R127); the reserved values 8..15 are never produced. -/
inductive ECode where
  /-- No error. -/
  | none
  /-- Code 1, raised by INIT (R301). -/
  | invalidKey
  /-- Code 2, raised by GENIV (R302). -/
  | randomSource
  /-- Code 3, raised by ENC_CBC and DEC_CBC (R303). -/
  | malformed
  /-- Code 4, raised by GENIV and the transforms (R304). -/
  | noKey
  /-- Code 5, raised by ENC_CFB and ENC_CBC (R305). -/
  | ivStale
  /-- Code 6, raised by the transforms (R306). -/
  | lenRange
  /-- Code 7, raised by every reserved CTRL word (R307). -/
  | badCmd
  deriving DecidableEq, Repr

/-- The width of a host access; only `word` is served (R85). -/
inductive Width where
  /-- 8 bits. -/
  | byte
  /-- 16 bits. -/
  | half
  /-- 32 bits. -/
  | word
  /-- More than one word in one access. -/
  | burst
  deriving DecidableEq, Repr

/-- One host bus access at a byte offset from the block's base (R80, R85, R129). -/
inductive Access where
  /-- `MemRead(addr, width)`. -/
  | read (addr : Offset) (width : Width)
  /-- `MemWrite(addr, width, data)`. -/
  | write (addr : Offset) (width : Width) (data : Word)
  deriving DecidableEq, Repr

/-- The bus response to one access; the response is part of the access's result (R87 to R89, R129). -/
inductive Reply where
  /-- OK response to a read, with its data. -/
  | readOk (data : Word)
  /-- Error response to a read; the data word is 0 (R87). -/
  | readErr
  /-- OK response to a write. -/
  | writeOk
  /-- Error response to a write (R87). -/
  | writeErr
  deriving DecidableEq, Repr

/-- What the outside world does to the block, and when the block gets a step of its own between two such inputs
(R21, R316, R340; log entry 3). -/
inductive Input where
  /-- The host performs one bus access. -/
  | access (a : Access)
  /-- The host does nothing while the block (engine or random byte source) takes one step. -/
  | turn
  /-- The reset input is asserted. -/
  | reset
  deriving DecidableEq, Repr

/-- Bytes by address: addresses strictly rising and no listed byte equal to 0, what an unlisted byte reads as
(reset sets every BUF byte to 0, R48). -/
abbrev Cells := List Host.Cell

/-- 16 zero bytes, `rep(16, 0)`. -/
def zeroBlock : Block := Vector.replicate 16 0#8

/-- 32 zero bytes, `rep(32, 0)`. -/
def zeroKey : Vector Byte 32 := Vector.replicate 32 0#8

/-- Why the machine stops. The spec has no trap and no stop (60_exceptions.md); the one reason below is the model's. -/
inductive Fault where
  /-- Raised by a block step of ENC_CFB, DEC_CFB, ENC_CBC or DEC_CBC whose `BufRead(off, n)` lacks
  `off + n <= BUF_BYTES`, which R20 requires: those bytes do not exist. Safe: the machine stops, and no run from
  reset reaches such a state (Sys2Proof.Inv rules it out). -/
  | bufferRange
  deriving DecidableEq, Repr

/-- Why an instruction is rejected. No instruction of this block is. -/
inductive Refusal where
  /-- Raised by an arm of exec whose instruction has no meaning yet. Safe: nothing can be proved of it. No arm of this
  model raises it. -/
  | notModelled (mnemonic : String)
  deriving DecidableEq, Repr

/-- The state (R30). The first group is the spec's; the second is the model's own. -/
structure State where
  /-- STATUS.BUSY (R38). -/
  busy : Bool
  /-- STATUS.DONE (R39). -/
  done : Bool
  /-- STATUS.ERR (R40). -/
  err : Bool
  /-- STATUS.KEYVALID (R41). -/
  keyValid : Bool
  /-- STATUS.IVFRESH (R42). -/
  ivFresh : Bool
  /-- STATUS.ECODE (R40). -/
  ecode : ECode
  /-- IRQEN.DONEIE, the one stored bit of IRQEN (R43). -/
  doneIe : Bool
  /-- KLEN, the key length in bytes (R44). -/
  klen : Word
  /-- LEN, the number of bytes a transform processes (R45). -/
  len : Word
  /-- KEYBYTES, the 32 bytes of KEY0..KEY7 (R46). -/
  key : Vector Byte 32
  /-- IVBYTES, the 16 bytes of IV0..IV3 (R47). -/
  iv : Block
  /-- BUF, by byte index (R48). -/
  buf : Cells
  /-- CHAIN (R49). -/
  chain : Block
  /-- CUR, the CTRL word of the command executing (R50). -/
  cur : Word
  /-- PHASE (R51). -/
  phase : Phase
  /-- BPTR, index of the next block (R52). -/
  bptr : Nat
  /-- IVPTR, index of the next IV byte (R53). -/
  ivptr : Nat
  /-- RNGPEND: a request to the random byte source is outstanding (R54). -/
  rngPend : Bool
  /-- MODEL'S OWN. The parameters, written by no step (R30 calls them parameters of the model; log entry 4). -/
  cfg : Config
  /-- MODEL'S OWN. What the outside world does next, oldest first; when nothing is listed the block takes its steps
  (log entry 3). -/
  inputs : List Input
  /-- MODEL'S OWN. The answers the random byte source gives to its next requests, oldest first; past the list's end an
  answer is a free value (log entry 2). -/
  answers : List Answer
  /-- MODEL'S OWN. How many requests the engine has issued to the random byte source; numbers the free answers
  (R209, log entry 2). -/
  requests : Nat
  /-- MODEL'S OWN. The response to the latest host access (R129, log entry 5). -/
  reply : Option Reply
  deriving DecidableEq, Repr

/-- The state after reset for any configuration: R341's table, and nothing pending from outside. -/
def State.resetWith (c : Config) : State where
  busy := false
  done := false
  err := false
  keyValid := false
  ivFresh := false
  ecode := .none
  doneIe := false
  klen := 0#32
  len := 0#32
  key := zeroKey
  iv := zeroBlock
  buf := []
  chain := zeroBlock
  cur := 0#32
  phase := .idle
  bptr := 0
  ivptr := 0
  rngPend := false
  cfg := c
  inputs := []
  answers := []
  requests := 0
  reply := none

/-- The state after reset, with the default parameters (R9, R10, R341). -/
def State.reset : State := State.resetWith Config.default

end Sys2Proof.Machine
end

