-- ==== Sys2Proof/Machine/Operands.lean ====
section
/-! DEFINITION. Operand forms: byte sequences and XOR (00_scope.md R17, R18), byte lanes of a bus word
(20_memory.md R83), the parameters as numbers (R9, R10, R102), KLEN, LEN and the key in use (30_encoding.md R125,
R126; 40_mode_engine.md R150). -/

namespace Sys2Proof.Machine

/-! ## Byte sequences -/

/-- `a XOR b` of two byte sequences (R18); the rules only form it for equal lengths. -/
def xorBytes (a b : List Byte) : List Byte := List.zipWith (fun x y => x ^^^ y) a b

/-- The block whose bytes are the first 16 of `l`; used only where `l` has 16. -/
def blockOf (l : List Byte) : Block := Vector.ofFn fun j => l.getD j.val 0#8

/-- `rep(n, v)` (R17). -/
def rep (n : Nat) (v : Byte) : List Byte := List.replicate n v

/-- `ceil(n / 16)` (R15). -/
def ceilDiv16 (n : Nat) : Nat := (n + 15) / 16

/-! ## Byte lanes (R83) -/

/-- Byte `j` of a bus word: bits `[8j+7 : 8j]`. -/
def laneByte (w : Word) (j : Nat) : Byte := w.extractLsb' (8 * j) 8

/-- The bus word with bytes `b0` (lowest) to `b3`. -/
def laneWord (b0 b1 b2 b3 : Byte) : Word :=
  b0.setWidth 32 ||| b1.setWidth 32 <<< 8 ||| b2.setWidth 32 <<< 16 ||| b3.setWidth 32 <<< 24

/-- Word `i` of a byte array read through `f`: bytes `4i .. 4i+3`. -/
def wordAt (f : Nat → Byte) (i : Nat) : Word :=
  laneWord (f (4 * i)) (f (4 * i + 1)) (f (4 * i + 2)) (f (4 * i + 3))

/-- A byte vector with word `i` replaced by `w`. -/
def putWord {n : Nat} (v : Vector Byte n) (i : Nat) (w : Word) : Vector Byte n :=
  (((v.setIfInBounds (4 * i) (laneByte w 0)).setIfInBounds (4 * i + 1) (laneByte w 1)).setIfInBounds
    (4 * i + 2) (laneByte w 2)).setIfInBounds (4 * i + 3) (laneByte w 3)

/-! ## Parameters -/

/-- BUF_BYTES: a multiple of 16 in 16..65536 (R10). -/
def bufBytes (c : Config) : Nat := 16 * (c.topBlock.val + 1)

/-- `n` is in KEYSIZES (R9). -/
def inKeySizes (c : Config) (n : Nat) : Bool :=
  (n == 16 && c.keySizes.k16) || (n == 24 && c.keySizes.k24) || (n == 32 && c.keySizes.k32)

/-- MENG_BASE, aligned to 0x20000 (R102). -/
def mengBase (c : Config) : Nat := 0x20000 * c.baseIndex

/-- The offset a platform address reaches in the block, if it lies in the block's 128 KiB (R80, R102). -/
def offsetOf (c : Config) (p : Nat) : Option Offset :=
  if mengBase c ≤ p ∧ p < mengBase c + 0x20000 then some (BitVec.ofNat 17 (p - mengBase c)) else none

/-! ## KLEN, LEN and the key in use -/

/-- KLEN as INIT reads it: an unsigned number in KEYSIZES (R125). -/
def klenValid (s : State) : Bool := inKeySizes s.cfg s.klen.toNat

/-- The key in use, `K = KEYBYTES[0 .. KLEN)` (R150). -/
def keyInUse (s : State) : List Byte := s.key.toList.take s.klen.toNat

/-- `n = ceil(LEN / 16)`, the number of blocks of a transform (R126, R156). -/
def blockCount (s : State) : Nat := ceilDiv16 s.len.toNat

/-- `r_i = min(16, LEN - 16 i)` for the next block `i = BPTR` (R126, R156). -/
def segmentLen (s : State) : Nat := min 16 (s.len.toNat - 16 * s.bptr)

end Sys2Proof.Machine
end

