-- ==== Sys2Proof/Machine/Cipher.lean ====
section
/-! DEFINITION. The block cipher as the engine uses it (00_scope.md R12, 40_mode_engine.md R150, R151), and TOY, the
spec's own test cipher (95_test_vectors.md section 2.2). -/

namespace Sys2Proof.Machine

/-- `TOY_E(K, x)[j] = x[(j+1) mod 16] xor k[(j+1) mod 16]` with `k = K[0 .. 16)`. -/
def toyE (k : List Byte) (x : Block) : Block :=
  Vector.ofFn fun j => x[(j.val + 1) % 16] ^^^ k.getD ((j.val + 1) % 16) 0#8

/-- `TOY_D(K, y)[j] = y[(j+15) mod 16] xor k[j]`. -/
def toyD (k : List Byte) (y : Block) : Block :=
  Vector.ofFn fun j => y[(j.val + 15) % 16] ^^^ k.getD j.val 0#8

theorem toyE_getElem (k : List Byte) (x : Block) (j : Nat) (h : j < 16) :
    (toyE k x)[j] = x[(j + 1) % 16] ^^^ k.getD ((j + 1) % 16) 0#8 := by
  simp only [toyE, Vector.getElem_ofFn]

theorem toyD_getElem (k : List Byte) (y : Block) (j : Nat) (h : j < 16) :
    (toyD k y)[j] = y[(j + 15) % 16] ^^^ k.getD j 0#8 := by
  simp only [toyD, Vector.getElem_ofFn]

/-- The first inverse law of R12 for TOY. -/
theorem toyD_toyE (k : List Byte) (x : Block) : toyD k (toyE k x) = x := by
  ext j hj : 1
  have h : ((j + 15) % 16 + 1) % 16 = j := by omega
  rw [toyD_getElem _ _ _ hj, toyE_getElem]
  simp [h]

/-- The second inverse law of R12 for TOY. -/
theorem toyE_toyD (k : List Byte) (y : Block) : toyE k (toyD k y) = y := by
  ext j hj : 1
  have h : ((j + 1) % 16 + 15) % 16 = j := by omega
  rw [toyE_getElem _ _ _ hj, toyD_getElem]
  simp [h]

/-- `E(K, ·)` with its inverse `D(K, ·)`, for the cipher the configuration chooses (R12). -/
def cipherOf (c : CipherChoice) (k : List Byte) : Equiv.Perm Block :=
  match c with
  | .external => Config.externalCipher k
  | .toy => ⟨toyE k, toyD k, toyD_toyE k, toyE_toyD k⟩

/-- The cipher under the key in use (R150). -/
def keyedCipher (s : State) : Equiv.Perm Block := cipherOf s.cfg.cipher (keyInUse s)

/-- `E(K, x)` (R151). -/
def encBlock (s : State) (x : Block) : Block := keyedCipher s x

/-- `D(K, y)` (R151). -/
def decBlock (s : State) (y : Block) : Block := (keyedCipher s).symm y

end Sys2Proof.Machine
end

