-- ==== Sys2Proof/Syntax.lean ====
section
/-! DEFINITION. The command set: one constructor per row of spec/opcode_table.json (30_encoding.md R122).
No command word carries an operand (R124), so no constructor has an argument. -/

namespace Sys2Proof

/-- The eight commands written to CTRL (R122). -/
inductive Instr where
  /-- CLRSTAT, CTRL word 0x00000000 (R230). -/
  | clrstat
  /-- INIT, CTRL word 0x00000001 (R157). -/
  | init
  /-- GENIV, CTRL word 0x00000002 (R205). -/
  | geniv
  /-- ENC_CFB, CTRL word 0x00000004 (R160). -/
  | encCfb
  /-- DEC_CFB, CTRL word 0x00000005 (R161). -/
  | decCfb
  /-- ENC_CBC, CTRL word 0x00000006 (R163). -/
  | encCbc
  /-- DEC_CBC, CTRL word 0x00000007 (R164). -/
  | decCbc
  /-- ZEROIZE, CTRL word 0x00000008 (R231). -/
  | zeroize
  deriving DecidableEq, Repr

end Sys2Proof
end

