-- ==== Sys2Proof/WellFormed.lean ====
section
/-! DEFINITION. Checks on what the model is given from outside: the configuration must be one the spec allows.
An instruction has no operand (R124), so every term of Instr is well-formed. -/

namespace Sys2Proof

/-- KEYSIZES is not empty (R9). -/
def KeySizes.wellFormed (k : KeySizes) : Bool := k.k16 || k.k24 || k.k32

/-- The configuration is one of those the spec allows: KEYSIZES is not empty (R9). The bounds on BUF_BYTES (R10) and
the alignment of MENG_BASE (R102) hold by the type. -/
def Config.wellFormed (c : Config) : Bool := c.keySizes.wellFormed

/-- A command word carries no operand, so nothing of an instruction can be ill-formed (R124). -/
def Instr.wellFormed : Instr → Bool
  | .clrstat => true
  | .init => true
  | .geniv => true
  | .encCfb => true
  | .decCfb => true
  | .encCbc => true
  | .decCbc => true
  | .zeroize => true

end Sys2Proof
end

