-- ==== Sys2Proof/Decode.lean ====
section
/-! DEFINITION. Command words (30_encoding.md R120 to R123): the decoder from all 32 bits of a CTRL word, the encoder,
and the sub-fields of the transform codes. -/

namespace Sys2Proof

/-- `CMD = CTRL[3:0]` (R120). -/
def cmdField (w : Word) : BitVec 4 := w.extractLsb' 0 4

/-- `RSVD = CTRL[31:4]`, which must be 0 (R120). -/
def rsvdField (w : Word) : BitVec 28 := w.extractLsb' 4 28

/-- The command a CMD code stands for, `none` for the reserved codes 0x3 and 0x9..0xF (R122, R123). -/
def decodeCmd (c : BitVec 4) : Option Instr :=
  if c = 0x0#4 then some .clrstat
  else if c = 0x1#4 then some .init
  else if c = 0x2#4 then some .geniv
  else if c = 0x4#4 then some .encCfb
  else if c = 0x5#4 then some .decCfb
  else if c = 0x6#4 then some .encCbc
  else if c = 0x7#4 then some .decCbc
  else if c = 0x8#4 then some .zeroize
  else none

/-- The decoder of the whole 32-bit CTRL word; `none` is a reserved word (R122, R123). -/
def decodeWord (w : Word) : Option Instr :=
  if rsvdField w = 0#28 then decodeCmd (cmdField w) else none

/-- The CTRL word of a command (R122). -/
def encode : Instr → Word
  | .clrstat => 0x00000000#32
  | .init => 0x00000001#32
  | .geniv => 0x00000002#32
  | .encCfb => 0x00000004#32
  | .decCfb => 0x00000005#32
  | .encCbc => 0x00000006#32
  | .decCbc => 0x00000007#32
  | .zeroize => 0x00000008#32

/-- The decoder as the opcode table numbers a word's bits: a command is one 32-bit word, the bits above `nbits` are 0.
-/
def decodeTableWord (nbits w : Nat) : Option Instr :=
  if w < 2 ^ 32 then decodeWord (BitVec.ofNat 32 (w % 2 ^ nbits)) else none

/-- The two chaining modes (R3, R121). -/
inductive Mode where
  /-- Cipher feedback. -/
  | cfb
  /-- Cipher block chaining. -/
  | cbc
  deriving DecidableEq, Repr

/-- The two directions of a transform (R121). -/
inductive Dir where
  /-- Encryption. -/
  | encrypt
  /-- Decryption. -/
  | decrypt
  deriving DecidableEq, Repr

/-- Bit 2 of CMD marks a transform code: CMD 4..7 (R121). -/
def isTransformWord (w : Word) : Bool := rsvdField w == 0#28 && w.extractLsb' 2 2 == 1#2

/-- `mode = CTRL[1]`: 0 CFB, 1 CBC, for a transform code (R121). -/
def modeField (w : Word) : Mode := if w.getLsbD 1 then .cbc else .cfb

/-- `dir = CTRL[0]`: 0 encrypt, 1 decrypt, for a transform code (R121). -/
def dirField (w : Word) : Dir := if w.getLsbD 0 then .decrypt else .encrypt

/-- The transform command of a mode and a direction (R121, R122). -/
def transformOf : Mode → Dir → Instr
  | .cfb, .encrypt => .encCfb
  | .cfb, .decrypt => .decCfb
  | .cbc, .encrypt => .encCbc
  | .cbc, .decrypt => .decCbc

/-- The engine's own reserved-word check, as R232 writes it: `CUR[31:4] != 0 or CUR[3:0] in {0x3, 0x9, ..., 0xF}`. -/
def reservedWord (w : Word) : Bool :=
  rsvdField w != 0#28 || cmdField w == 0x3#4 || 0x9#4 ≤ cmdField w

end Sys2Proof
end

