-- ==== Sys2Proof/Machine/Flags.lean ====
section
/-! DEFINITION. The words the host reads that are computed from fields: STATUS (10_state.md R37), ID, CAP, IRQEN
(R33, R34, R43), the ECODE values (30_encoding.md R127) and the irq output (R55). The block has no arithmetic
condition codes (R57). -/

namespace Sys2Proof.Machine

/-- ECODE's four bits (R127). -/
def ecodeBits : ECode → BitVec 4
  | .none => 0
  | .invalidKey => 1
  | .randomSource => 2
  | .malformed => 3
  | .noKey => 4
  | .ivStale => 5
  | .lenRange => 6
  | .badCmd => 7

/-- A flag at bit `n` of a word. -/
def flagAt (b : Bool) (n : Nat) : Word := (if b then 1#32 else 0#32) <<< n

/-- The STATUS word: BUSY [0], DONE [1], ERR [2], KEYVALID [3], IVFRESH [4], ECODE [11:8], the rest 0 (R37). -/
def statusWord (s : State) : Word :=
  flagAt s.busy 0 ||| flagAt s.done 1 ||| flagAt s.err 2 ||| flagAt s.keyValid 3 ||| flagAt s.ivFresh 4
    ||| (ecodeBits s.ecode).setWidth 32 <<< 8

/-- ID, the constant "CME1" (R33). -/
def idWord : Word := 0x434D4531#32

/-- CAP: NBLK [15:0], BSIZE [23:16] = 16, K16 [24], K24 [25], K32 [26], the rest 0 (R34). -/
def capWord (c : Config) : Word :=
  BitVec.ofNat 32 (bufBytes c / 16) ||| 16#32 <<< 16 ||| flagAt c.keySizes.k16 24 ||| flagAt c.keySizes.k24 25
    ||| flagAt c.keySizes.k32 26

/-- IRQEN: DONEIE [0], the rest 0 (R43). -/
def irqenWord (s : State) : Word := flagAt s.doneIe 0

/-- The irq output, a level: `irq = IRQEN.DONEIE and STATUS.DONE` (R55, R315). -/
def irq (s : State) : Bool := s.doneIe && s.done

end Sys2Proof.Machine
end

