-- ==== Sys2Proof/Machine/Ops.lean ====
section
/-! DEFINITION. The shared operations: BUF bytes (00_scope.md R20), command acceptance (10_state.md R36), the two
completions and end-of-call clear (60_exceptions.md R309 to R311), reset (70_reset_and_hazards.md R340) and the frame
of a command's steps (R51). -/

namespace Sys2Proof.Machine

/-- What a step answers. -/
abbrev Result := Host.Outcome State Fault Refusal

/-! ## BUF bytes -/

/-- The byte at an address; an unlisted byte is 0. -/
def Cells.read : Cells → Nat → Byte
  | [], _ => 0#8
  | (k, b) :: rest, a => if k = a then b else Cells.read rest a

/-- Puts a byte at an address, keeping the canonical form: a zero byte is not listed. -/
def Cells.write : Cells → Nat → Byte → Cells
  | [], a, v => if v = 0#8 then [] else [(a, v)]
  | (k, b) :: rest, a, v =>
    if a < k then (if v = 0#8 then (k, b) :: rest else (a, v) :: (k, b) :: rest)
    else if a = k then (if v = 0#8 then rest else (k, v) :: rest)
    else (k, b) :: Cells.write rest a v

/-- Puts a byte sequence at an address and the ones after it. -/
def Cells.writeAll : Cells → Nat → List Byte → Cells
  | m, _, [] => m
  | m, a, v :: vs => Cells.writeAll (Cells.write m a v) (a + 1) vs

/-- `n` bytes from an address on. -/
def Cells.readAll (m : Cells) (a n : Nat) : List Byte := (List.range n).map fun j => Cells.read m (a + j)

/-- Every listed address is at least `lo`, they rise strictly, and no listed byte is 0. -/
def Cells.wfFrom : Nat → Cells → Bool
  | _, [] => true
  | lo, (k, b) :: rest => decide (lo ≤ k) && (b != 0#8) && Cells.wfFrom (k + 1) rest

/-- The canonical form of BUF's bytes. -/
def Cells.wf (m : Cells) : Bool := Cells.wfFrom 0 m

/-- Every listed address is below `n`. -/
def Cells.below (n : Nat) (m : Cells) : Bool := m.all fun c => decide (c.1 < n)

/-- `BUF[a]`. -/
def bufByte (s : State) (a : Nat) : Byte := Cells.read s.buf a

/-- `BufRead(off, n)`; it requires `off + n <= BUF_BYTES` (R20). -/
def bufRead (s : State) (off n : Nat) : Option (List Byte) :=
  if off + n ≤ bufBytes s.cfg then some (Cells.readAll s.buf off n) else none

/-- `BufWrite(off, n, v)` with `n` the length of `v` (R20). -/
def bufWrite (s : State) (off : Nat) (v : List Byte) : State := { s with buf := Cells.writeAll s.buf off v }

/-! ## Acceptance, completion, reset -/

/-- Acceptance of the CTRL word `w` while BUSY = 0 (R36). -/
def accept (w : Word) (s : State) : State :=
  let s := { s with done := false, err := false, ecode := .none }
  if w = 0x00000000#32 then s
  else { s with cur := w, phase := .check, bptr := 0, ivptr := 0, busy := true }

/-- Success completion, `complete()` (R309). -/
def complete (s : State) : State := { s with busy := false, done := true, phase := .idle }

/-- End-of-call clear: the key, KEYVALID, IVFRESH and CHAIN (R311). -/
def endOfCallClear (s : State) : State :=
  { s with key := zeroKey, keyValid := false, ivFresh := false, chain := zeroBlock }

/-- Error completion, `raise Err(c)` (R310). -/
def raiseErr (c : ECode) (s : State) : State :=
  let s := endOfCallClear s
  let s := if c = .randomSource then { s with iv := zeroBlock } else s
  { s with rngPend := false, err := true, ecode := c, busy := false, done := true, phase := .idle }

/-- Reset: every state element takes its reset value (R340, R341). What is outside the block stays: the configuration,
the inputs to come and the response already given. An answer to an abandoned request is ignored, so the next request
gets the answer after it (R211). -/
def resetBlock (s : State) : State :=
  { State.resetWith s.cfg with
    inputs := s.inputs
    answers := if s.rngPend then s.answers.tail else s.answers
    requests := s.requests
    reply := s.reply }

/-! ## The steps of one command -/

/-- One step of command `i`: its acceptance while BUSY = 0 (R36), else the step that PHASE names (R51), which is the
command's own `check` or `run`. BUSY = 1 with PHASE = IDLE is no state of the block (R51); nothing is enabled there. -/
def commandStep (i : Instr) (check run : State → Result) (s : State) : Result :=
  if s.busy then
    match s.phase with
    | .idle => .next s
    | .check => check s
    | .run => run s
  else .next (accept (encode i) s)

end Sys2Proof.Machine
end

