-- ==== Sys2Proof/Machine/Transform.lean ====
section
/-! DEFINITION. What the four transforms share: the start step with its checks in order, the frame of one block step,
and transform completion (40_mode_engine.md R156, R158, R159, R165). -/

namespace Sys2Proof.Machine

/-- Transform completion: end-of-call clear, then `complete()` (R159). -/
def transformDone (s : State) : State := complete (endOfCallClear s)

/-- Transform start: the checks in R308's order, then CHAIN takes the IV; LEN = 0 completes at once (R158). -/
def transformStart (m : Mode) (d : Dir) (s : State) : State :=
  if s.keyValid = false then raiseErr .noKey s
  else if bufBytes s.cfg < s.len.toNat then raiseErr .lenRange s
  else if m = .cbc ∧ s.len.toNat % 16 ≠ 0 then raiseErr .malformed s
  else if d = .encrypt ∧ s.ivFresh = false then raiseErr .ivStale s
  else if s.len.toNat = 0 then transformDone { s with chain := s.iv, phase := .run }
  else { s with chain := s.iv, phase := .run }

/-- The end of a block step: the output is written, CHAIN and BPTR move on, and the last block completes (R159, R165).
`out` and `chain` were computed from the state before the step. -/
def finishBlock (out : List Byte) (chain : Block) (s : State) : State :=
  let t := { bufWrite s (16 * s.bptr) out with chain := chain, bptr := s.bptr + 1 }
  if s.bptr + 1 = blockCount s then transformDone t else t

/-- One block step on the `r` bytes of block `i = BPTR`: `f` gives the output bytes and the new CHAIN from the bytes
read. It is enabled for `i = 0 .. n-1`; a read outside BUF stops (R20, R156). -/
def blockStep (r : Nat) (f : List Byte → List Byte × Block) (s : State) : Result :=
  if s.bptr < blockCount s then
    match bufRead s (16 * s.bptr) r with
    | none => .fault .bufferRange
    | some x => .next (finishBlock (f x).1 (f x).2 s)
  else .next s

end Sys2Proof.Machine
end

