-- ==== Sys2Proof/Machine/Cbc.lean ====
section
/-! DEFINITION. ENC_CBC and DEC_CBC (40_mode_engine.md R163, R164). -/

namespace Sys2Proof.Machine

/-- ENC_CBC's block: `C = E(K, P XOR CHAIN)`; CHAIN takes C (R163). -/
def encCbcBlock (s : State) (x : List Byte) : List Byte × Block :=
  let c := encBlock s (blockOf (xorBytes x s.chain.toList))
  (c.toList, c)

/-- DEC_CBC's block: `P = D(K, C) XOR CHAIN`; CHAIN takes the ciphertext read (R164, R165). -/
def decCbcBlock (s : State) (x : List Byte) : List Byte × Block :=
  let c := blockOf x
  (xorBytes (decBlock s c).toList s.chain.toList, c)

/-- ENC_CBC (R163). -/
def execEncCbc (s : State) : Result :=
  commandStep .encCbc (fun s => .next (transformStart .cbc .encrypt s))
    (fun s => blockStep 16 (encCbcBlock s) s) s

/-- DEC_CBC (R164). -/
def execDecCbc (s : State) : Result :=
  commandStep .decCbc (fun s => .next (transformStart .cbc .decrypt s))
    (fun s => blockStep 16 (decCbcBlock s) s) s

end Sys2Proof.Machine
end

