-- ==== Sys2Proof/Machine/Cfb.lean ====
section
/-! DEFINITION. ENC_CFB and DEC_CFB (40_mode_engine.md R160 to R162). -/

namespace Sys2Proof.Machine

/-- ENC_CFB's block: `C = S XOR O[0 .. r)` with `O = E(K, CHAIN)`; CHAIN takes C when it is a full block (R160, R162).
-/
def encCfbBlock (s : State) (x : List Byte) : List Byte × Block :=
  let r := segmentLen s
  let o := encBlock s s.chain
  let c := xorBytes x (o.toList.take r)
  (c, if r = 16 then blockOf c else s.chain)

/-- DEC_CFB's block: `P = C XOR O[0 .. r)` with `O = E(K, CHAIN)`; CHAIN takes the ciphertext read (R161, R165). -/
def decCfbBlock (s : State) (x : List Byte) : List Byte × Block :=
  let r := segmentLen s
  let o := encBlock s s.chain
  let p := xorBytes x (o.toList.take r)
  (p, if r = 16 then blockOf x else s.chain)

/-- ENC_CFB (R160). -/
def execEncCfb (s : State) : Result :=
  commandStep .encCfb (fun s => .next (transformStart .cfb .encrypt s))
    (fun s => blockStep (segmentLen s) (encCfbBlock s) s) s

/-- DEC_CFB (R161). -/
def execDecCfb (s : State) : Result :=
  commandStep .decCfb (fun s => .next (transformStart .cfb .decrypt s))
    (fun s => blockStep (segmentLen s) (decCfbBlock s) s) s

end Sys2Proof.Machine
end

