-- ==== Sys2Proof/Machine/Control.lean ====
section
/-! DEFINITION. The control commands CLRSTAT and ZEROIZE, and the reserved command words
(42_control_commands.md R230 to R232). -/

namespace Sys2Proof.Machine

/-- CLRSTAT (R230): performed entirely at acceptance, where DONE, ERR and ECODE are cleared; no engine step follows, so
none is enabled in a state that no run reaches with CUR = 0 and BUSY = 1. -/
def execClrstat (s : State) : Result := commandStep .clrstat .next .next s

/-- What ZEROIZE clears: every operand and result, but not IRQEN (R231). -/
def zeroizeAll (s : State) : State :=
  { s with
    key := zeroKey, klen := 0#32, keyValid := false
    iv := zeroBlock, ivFresh := false
    len := 0#32, chain := zeroBlock
    buf := [] }

/-- ZEROIZE's one engine step (R231). -/
def zeroizeCheck (s : State) : State := complete (zeroizeAll s)

/-- ZEROIZE (R231). It never enters PHASE RUN. -/
def execZeroize (s : State) : Result := commandStep .zeroize (fun s => .next (zeroizeCheck s)) .next s

/-- The engine step of a reserved word: BAD_CMD in PHASE CHECK (R232). A reserved word never enters PHASE RUN. -/
def reservedStep (s : State) : Result :=
  match s.phase with
  | .check => .next (raiseErr .badCmd s)
  | .idle => .next s
  | .run => .next s

end Sys2Proof.Machine
end

