-- ==== Sys2Proof/Machine/IvGen.lean ====
section
/-! DEFINITION. GENIV and the random byte source interface (41_iv_generator.md R200 to R211), at the level of
transactions. -/

namespace Sys2Proof.Machine

/-- The source's answer to the outstanding request: the next one listed, else a free value (R14, R200, log entry 2).
The source answers every request (R203, log entry 6). -/
def nextAnswer (s : State) : Answer :=
  match s.answers with
  | r :: _ => r
  | [] => Config.freeAnswer s.requests

/-- GENIV's start step (R205). -/
def genivCheck (s : State) : State :=
  if s.keyValid then { s with ivFresh := false, phase := .run } else raiseErr .noKey s

/-- GENIV's request step: one request, now outstanding (R202, R205). -/
def requestByte (s : State) : State := { s with rngPend := true, requests := s.requests + 1 }

/-- The source's respond step with answer `Byte(b)` (R205). -/
def takeByte (b : Byte) (s : State) : State :=
  let t := { s with rngPend := false, iv := s.iv.setIfInBounds s.ivptr b, ivptr := s.ivptr + 1 }
  if s.ivptr + 1 = 16 then complete { t with ivFresh := true } else t

/-- The source's respond step with answer `Fail`: the IV is zeroed and GENIV ends in RANDOM_SOURCE (R205, R208). -/
def takeFail (s : State) : State := raiseErr .randomSource { s with rngPend := false, iv := zeroBlock }

/-- The source's respond step (R202, R205). -/
def respond (s : State) : State :=
  let t := { s with answers := s.answers.tail }
  match nextAnswer s with
  | .byte b => takeByte b t
  | .fail => takeFail t

/-- GENIV's steps in PHASE RUN: respond while a request is outstanding, else request while IVPTR < 16 (R205). -/
def genivRun (s : State) : State :=
  if s.rngPend then respond s
  else if s.ivptr < 16 then requestByte s
  else s

/-- GENIV (R205). -/
def execGeniv (s : State) : Result :=
  commandStep .geniv (fun s => .next (genivCheck s)) (fun s => .next (genivRun s)) s

end Sys2Proof.Machine
end

