-- ==== Sys2Proof/Machine/KeyInit.lean ====
section
/-! DEFINITION. INIT: key initialisation with key-length validation (40_mode_engine.md R157). -/

namespace Sys2Proof.Machine

/-- INIT's one engine step: INVALID_KEY unless KLEN is in KEYSIZES, else KEYVALID (R157). -/
def initCheck (s : State) : State :=
  if klenValid s then complete { s with keyValid := true } else raiseErr .invalidKey s

/-- INIT (R157). It never enters PHASE RUN. -/
def execInit (s : State) : Result := commandStep .init (fun s => .next (initCheck s)) .next s

end Sys2Proof.Machine
end

