-- ==== Sys2Proof/Machine/Dispatch.lean ====
section
/-! DEFINITION. One step of a command: its acceptance while BUSY = 0, else the step PHASE names (spec/opcode_table.json,
10_state.md R36, R51). -/

namespace Sys2Proof.Machine

def exec (i : Instr) (s : State) : Host.Outcome State Fault Refusal :=
  match i with
  | .clrstat => Sys2Proof.Machine.execClrstat s
  | .init => Sys2Proof.Machine.execInit s
  | .geniv => Sys2Proof.Machine.execGeniv s
  | .encCfb => Sys2Proof.Machine.execEncCfb s
  | .decCfb => Sys2Proof.Machine.execDecCfb s
  | .encCbc => Sys2Proof.Machine.execEncCbc s
  | .decCbc => Sys2Proof.Machine.execDecCbc s
  | .zeroize => Sys2Proof.Machine.execZeroize s

end Sys2Proof.Machine
end

