-- ==== Sys2Proof/Machine/Bus.lean ====
section
/-! DEFINITION. The host's side and the block's own turns: the address map, widths, alignment and the busy rule
(20_memory.md R81 to R90), reads and writes with their side effects (R88, R89, 10_state.md R58), the block's turn
(00_scope.md R21) and the next input. -/

namespace Sys2Proof.Machine

/-- What an offset of the address map names (R81). -/
inductive Target where
  /-- ID, 0x000. -/
  | id
  /-- CAP, 0x004. -/
  | cap
  /-- CTRL, 0x008. -/
  | ctrl
  /-- STATUS, 0x00C. -/
  | status
  /-- IRQEN, 0x010. -/
  | irqen
  /-- KLEN, 0x014. -/
  | klen
  /-- LEN, 0x018. -/
  | len
  /-- KEYi, 0x020 + 4i. -/
  | key (i : Nat)
  /-- IVi, 0x040 + 4i. -/
  | iv (i : Nat)
  /-- Word i of the BUF window, 0x10000 + 4i. -/
  | buf (i : Nat)
  deriving DecidableEq, Repr

/-- The address map for a word-aligned offset; `none` is a reserved offset (R81, R82). -/
def addressMap (c : Config) (a : Nat) : Option Target :=
  if a = 0x000 then some .id
  else if a = 0x004 then some .cap
  else if a = 0x008 then some .ctrl
  else if a = 0x00C then some .status
  else if a = 0x010 then some .irqen
  else if a = 0x014 then some .klen
  else if a = 0x018 then some .len
  else if 0x020 ≤ a ∧ a < 0x040 then some (.key ((a - 0x020) / 4))
  else if 0x040 ≤ a ∧ a < 0x050 then some (.iv ((a - 0x040) / 4))
  else if 0x10000 ≤ a ∧ a < 0x10000 + bufBytes c then some (.buf ((a - 0x10000) / 4))
  else none

/-- What an access reaches: a 32-bit access at a multiple of 4 that the map names (R82, R85, R86). -/
def reach (c : Config) (w : Width) (addr : Offset) : Option Target :=
  if w = .word ∧ addr.toNat % 4 = 0 then addressMap c addr.toNat else none

/-- While BUSY, these reads behave as when idle (R90). -/
def readableBusy : Target → Bool
  | .id => true
  | .cap => true
  | .status => true
  | .irqen => true
  | .ctrl => false
  | .klen => false
  | .len => false
  | .key _ => false
  | .iv _ => false
  | .buf _ => false

/-- While BUSY, only writes to IRQEN behave as when idle (R90). -/
def writableBusy : Target → Bool
  | .irqen => true
  | .id => false
  | .cap => false
  | .status => false
  | .ctrl => false
  | .klen => false
  | .len => false
  | .key _ => false
  | .iv _ => false
  | .buf _ => false

/-- What a read without bus error returns (R88). -/
def readTarget (s : State) : Target → Word
  | .id => idWord
  | .cap => capWord s.cfg
  | .ctrl => 0#32
  | .status => statusWord s
  | .irqen => irqenWord s
  | .klen => s.klen
  | .len => s.len
  | .key _ => 0#32
  | .iv i => wordAt (fun j => s.iv.toList.getD j 0#8) i
  | .buf i => wordAt (bufByte s) i

/-- A CTRL write while BUSY = 0 issues a command; a reserved word is accepted too (R36, R123). -/
def issue (w : Word) (s : State) : Result :=
  match decodeWord w with
  | some i => exec i s
  | none => .next (accept w s)

/-- What a write without bus error does, side effects included (R58, R89). -/
def writeTarget (w : Word) (s : State) : Target → Result
  | .id => .next s
  | .cap => .next s
  | .status => .next s
  | .ctrl => issue w s
  | .irqen => .next { s with doneIe := w.getLsbD 0 }
  | .klen => .next { s with klen := w, keyValid := false }
  | .len => .next { s with len := w }
  | .key i => .next { s with key := putWord s.key i w, keyValid := false }
  | .iv i => .next { s with iv := putWord s.iv i w, ivFresh := false }
  | .buf i => .next (bufWrite s (4 * i) [laneByte w 0, laneByte w 1, laneByte w 2, laneByte w 3])

/-- One host read: its response, and no other effect (R87, R88, R90, R93). -/
def busRead (addr : Offset) (width : Width) (s : State) : State :=
  match reach s.cfg width addr with
  | none => { s with reply := some .readErr }
  | some t =>
    if s.busy && !readableBusy t then { s with reply := some .readErr }
    else { s with reply := some (.readOk (readTarget s t)) }

/-- One host write: its response and its effect; a bus error has no effect (R87, R89, R90). -/
def busWrite (addr : Offset) (width : Width) (data : Word) (s : State) : Result :=
  match reach s.cfg width addr with
  | none => .next { s with reply := some .writeErr }
  | some t =>
    if s.busy && !writableBusy t then .next { s with reply := some .writeErr }
    else writeTarget data { s with reply := some .writeOk } t

/-- One host bus access, performed atomically (R92, R95). -/
def busAccess (a : Access) (s : State) : Result :=
  match a with
  | .read addr width => .next (busRead addr width s)
  | .write addr width data => busWrite addr width data s

/-- One step of the block by itself: the engine's next step of the command in CUR, or the random byte source's respond
step inside GENIV; nothing while BUSY = 0 (R21, R38, R232, R343). -/
def blockTurn (s : State) : Result :=
  if s.busy then
    match decodeWord s.cur with
    | some i => exec i s
    | none => reservedStep s
  else .next s

/-- The next thing that happens: the oldest pending input, or the block's own turn when nothing is pending (R21). -/
def takeTurn (s : State) : Result :=
  match s.inputs with
  | [] => blockTurn s
  | .access a :: rest => busAccess a { s with inputs := rest }
  | .turn :: rest => blockTurn { s with inputs := rest }
  | .reset :: rest => .next (resetBlock { s with inputs := rest })

/-- Places a host write of the CTRL word `w` as the oldest pending input, in a block that is between commands: a CTRL
write is accepted only while BUSY = 0 (R36). -/
def placeCommand (w : Word) (s : State) : State :=
  { s with
    busy := false, phase := .idle, rngPend := false
    inputs := .access (.write 0x00008#17 .word w) :: s.inputs }

end Sys2Proof.Machine
end

