-- ==== Sys2Proof/Machine/HostOps.lean ====
section
/-! DEFINITION. The host program notation: bus operations with their responses (30_encoding.md R129), the
pseudo-operations as programs of them (R130), the end of a program's run (70_reset_and_hazards.md R354), and the two ways
to wait for a command (45_host_facade.md R260). Every access and every block step in between is the machine's own
step. -/

namespace Sys2Proof.Machine

/-! ## Host actions -/

/-- Goes on with the next state's result; a stop stays a stop. -/
def andThen {α β : Type} (x : Host.Outcome α Fault Refusal) (f : α → Host.Outcome β Fault Refusal) :
    Host.Outcome β Fault Refusal :=
  match x with
  | .next a => f a
  | .fault r => .fault r
  | .refused r => .refused r

/-- What a host action comes to: the state after it and its result. There is no result (`none`) where the host is still
waiting after as many rounds as it was followed for; a program never takes that for an end of the wait. -/
abbrev HostRun (α : Type) := Host.Outcome (State × Option α) Fault Refusal

/-- The action has ended with result `a`. -/
def answer {α : Type} (a : α) (s : State) : HostRun α := .next (s, some a)

/-- Goes on with the state and the result; a host that still waits still waits. -/
def thenDo {α β : Type} (x : HostRun α) (f : State → α → HostRun β) : HostRun β :=
  andThen x fun r =>
    match r.2 with
    | some a => f r.1 a
    | none => .next (r.1, none)

/-- The host performs one access now, as the oldest pending input; the response is its result (R129). -/
def hostAccess (a : Access) (s : State) : HostRun Reply :=
  andThen (step { s with inputs := .access a :: s.inputs }) fun t => .next (t, t.reply)

/-- The host does nothing while the block takes one step. -/
def hostPause (s : State) : Result := step { s with inputs := .turn :: s.inputs }

/-- The host does nothing while the block takes `n` steps. -/
def hostPauses : Nat → State → Result
  | 0, s => .next s
  | n + 1, s => andThen (hostPause s) (hostPauses n)

/-- The data word of a response; 0 with an error response (R87). -/
def replyData : Reply → Word
  | .readOk d => d
  | .readErr => 0#32
  | .writeOk => 0#32
  | .writeErr => 0#32

/-! ## Names (R129) -/

/-- `offset(reg)`, for a register name of 20_memory.md R81 (KEY0 to KEY7, IV0 to IV3) or `BUF+4i`. -/
def targetOffset : Target → Offset
  | .id => 0x00000#17
  | .cap => 0x00004#17
  | .ctrl => 0x00008#17
  | .status => 0x0000C#17
  | .irqen => 0x00010#17
  | .klen => 0x00014#17
  | .len => 0x00018#17
  | .key i => BitVec.ofNat 17 (0x00020 + 4 * i)
  | .iv i => BitVec.ofNat 17 (0x00040 + 4 * i)
  | .buf i => BitVec.ofNat 17 (0x10000 + 4 * i)

/-- A field of a register: the bits from `lsb` up, `width` of them. -/
structure RegField where
  /-- The field's lowest bit. -/
  lsb : Nat
  /-- How many bits it has. -/
  width : Nat
  deriving DecidableEq, Repr

/-- The value of a field in a register word. -/
def fieldValue (f : RegField) (w : Word) : Word := (w.extractLsb' f.lsb f.width).setWidth 32

/-- STATUS.BUSY (10_state.md R37). -/
def fieldBusy : RegField := { lsb := 0, width := 1 }

/-- STATUS.DONE (R37). -/
def fieldDone : RegField := { lsb := 1, width := 1 }

/-- STATUS.ERR (R37). -/
def fieldErr : RegField := { lsb := 2, width := 1 }

/-- STATUS.KEYVALID (R37). -/
def fieldKeyValid : RegField := { lsb := 3, width := 1 }

/-- STATUS.IVFRESH (R37). -/
def fieldIvFresh : RegField := { lsb := 4, width := 1 }

/-- STATUS.ECODE (R37). -/
def fieldEcode : RegField := { lsb := 8, width := 4 }

/-- IRQEN.DONEIE (R43). -/
def fieldDoneIe : RegField := { lsb := 0, width := 1 }

/-- CAP.NBLK (R34). -/
def fieldNblk : RegField := { lsb := 0, width := 16 }

/-- CAP.BSIZE (R34). -/
def fieldBsize : RegField := { lsb := 16, width := 8 }

/-- CAP.K16 (R34). -/
def fieldK16 : RegField := { lsb := 24, width := 1 }

/-- CAP.K24 (R34). -/
def fieldK24 : RegField := { lsb := 25, width := 1 }

/-- CAP.K32 (R34). -/
def fieldK32 : RegField := { lsb := 26, width := 1 }

/-! ## Host programs (R129) -/

/-- One line of a host program (R129). -/
inductive BusOp where
  /-- `WR <reg>, <value>`. -/
  | wr (r : Target) (v : Word)
  /-- `RD <reg> -> <name>`; the name stands for the response's data. -/
  | rd (r : Target)
  /-- `POLL <reg>.<field> == <v>`. -/
  | poll (r : Target) (f : RegField) (v : Word)
  deriving DecidableEq, Repr

/-- How a host polls. The spec fixes neither number (R129, 70_reset_and_hazards.md R353; log entry 15). Between two lines
the block takes no step (log entry 17). -/
structure Pace where
  /-- The block takes `gap + 1` steps between two reads of a POLL. -/
  gap : Nat
  /-- A POLL is followed for at most so many reads. -/
  reads : Nat
  deriving DecidableEq, Repr

/-- `MemWrite(offset(reg), 4, value)`. -/
def wr (r : Target) (v : Word) (s : State) : HostRun Reply := hostAccess (.write (targetOffset r) .word v) s

/-- `MemRead(offset(reg), 4)`. -/
def rd (r : Target) (s : State) : HostRun Reply := hostAccess (.read (targetOffset r) .word) s

/-- `POLL`: repeats `RD reg` until the field equals `v`; the responses of all its reads, in order, are its result. -/
def poll (gap : Nat) (r : Target) (f : RegField) (v : Word) : Nat → State → HostRun (List Reply)
  | 0, s => .next (s, none)
  | reads + 1, s =>
    thenDo (rd r s) fun t x =>
      if fieldValue f (replyData x) = v then answer [x] t
      else
        andThen (hostPauses (gap + 1) t) fun u =>
          thenDo (poll gap r f v reads u) fun s xs => answer (x :: xs) s

/-- One line of a host program, with the responses of its accesses. -/
def runOp (p : Pace) : BusOp → State → HostRun (List Reply)
  | .wr r v, s => thenDo (wr r v s) fun t x => answer [x] t
  | .rd r, s => thenDo (rd r s) fun t x => answer [x] t
  | .poll r f v, s => poll p.gap r f v p.reads s

/-- The lines of a host program, one after another, with the responses of all their accesses in order. Whether the run
has ended after the last line is `runProgram`'s. DESIGN CHOICE (log entry 17, unsafe): the block takes no step between
two lines, so a line after `WR CTRL` finds the block as that write left it; the spec lets any number of block steps come
between them (00_scope.md R21), which the machine itself has as turns among its inputs (log entry 3). -/
def runOps (p : Pace) : List BusOp → State → HostRun (List Reply)
  | [], s => answer [] s
  | o :: os, s => thenDo (runOp p o s) fun t xs => thenDo (runOps p os t) fun u ys => answer (xs ++ ys) u

/-! ## The end of a run (R354) -/

/-- The block is idle: BUSY = 0 and RNGPEND = 0 (R354). -/
def blockIdle (s : State) : Bool := !s.busy && !s.rngPend

/-- The host does nothing until `c` holds, for at most `n` block steps. -/
def untilHolds (c : State → Bool) : Nat → State → HostRun Unit
  | 0, s => if c s then answer () s else .next (s, none)
  | n + 1, s => if c s then answer () s else andThen (hostPause s) (untilHolds c n)

/-- A run of a host program: it ends when the last line has been executed and the block is idle, and it is followed for
at most `rounds` block steps after the last line. A run that is left with BUSY = 1 or RNGPEND = 1 is not finished: it has
no result (R354). -/
def runProgram (p : Pace) (rounds : Nat) (ops : List BusOp) (s : State) : HostRun (List Reply) :=
  thenDo (runOps p ops s) fun t xs => thenDo (untilHolds blockIdle rounds t) fun u _ => answer xs u

/-! ## Pseudo-operations (R130) -/

/-- `CMD <mnemonic>`. -/
def cmdOps (i : Instr) : List BusOp := [.wr .ctrl (encode i)]

/-- `WAIT`. -/
def waitOps : List BusOp := [.poll .status fieldBusy 0#32]

/-- `WR` lines that put the first `n` words of the bytes `l`, with zero bytes after its end, in the registers `r`. -/
def wordWrites (r : Nat → Target) (n : Nat) (l : List Byte) : List BusOp :=
  (List.range n).map fun i => .wr (r i) (wordAt (fun j => l.getD j 0#8) i)

/-- `LOADKEY <bytes k>`, for at most 32 bytes. -/
def loadKeyOps (k : List Byte) : List BusOp := wordWrites .key 8 k ++ [.wr .klen (BitVec.ofNat 32 k.length)]

/-- `LOADIV <bytes v>`, for 16 bytes. -/
def loadIvOps (v : List Byte) : List BusOp := wordWrites .iv 4 v

/-- `LOADBUF <bytes s>`, for at most BUF_BYTES bytes. -/
def loadBufOps (l : List Byte) : List BusOp :=
  wordWrites .buf ((l.length + 3) / 4) l ++ [.wr .len (BitVec.ofNat 32 l.length)]

/-- The accesses of `READIV`. -/
def readIvOps : List BusOp := (List.range 4).map fun i => .rd (.iv i)

/-- The accesses of `READBUF n`. -/
def readBufOps (n : Nat) : List BusOp := (List.range ((n + 3) / 4)).map fun i => .rd (.buf i)

/-- The bytes of the words read, byte 0 first (20_memory.md R83). -/
def unpackReplies (xs : List Reply) : List Byte :=
  xs.flatMap fun x =>
    [laneByte (replyData x) 0, laneByte (replyData x) 1, laneByte (replyData x) 2, laneByte (replyData x) 3]

/-! ## Waiting for a command (R260) -/

/-- The two ways a host may wait (R260). -/
inductive Waiting where
  /-- It polls STATUS, with `gap + 1` block steps between two polls. -/
  | polling (gap : Nat)
  /-- It sets IRQEN.DONEIE, waits for irq, then reads STATUS. -/
  | interrupt
  deriving DecidableEq, Repr

/-- A wait is followed for so many rounds of at least one block step each: more than any command takes, which is a start
step and one step for each of at most 4096 blocks, or two for each of 16 IV bytes (R353). -/
def waitRounds : Nat := 4200

/-- How a host that waits so polls. -/
def paceOf : Waiting → Pace
  | .polling gap => { gap := gap, reads := waitRounds }
  | .interrupt => { gap := 0, reads := waitRounds }

/-- The data of the last response. -/
def lastData (xs : List Reply) : Word :=
  match xs.getLast? with
  | some x => replyData x
  | none => 0#32

/-- The host waits until it has seen BUSY = 0; the result is the STATUS word in which it saw that. -/
def await (how : Waiting) (s : State) : HostRun Word :=
  let seeIdle := fun (t : State) => thenDo (runOps (paceOf how) waitOps t) fun u xs => answer (lastData xs) u
  match how with
  | .polling _ => seeIdle s
  | .interrupt => thenDo (wr .irqen 1#32 s) fun t _ => thenDo (untilHolds irq waitRounds t) fun u _ => seeIdle u

/-- `RUN <mnemonic>`: `CMD`, then the wait (R130, R260), with no block step between the two (log entry 17). -/
def run (how : Waiting) (i : Instr) (s : State) : HostRun Word :=
  thenDo (runOps (paceOf how) (cmdOps i) s) fun t _ => await how t

/-- `READIV -> v`. -/
def readIv (how : Waiting) (s : State) : HostRun (List Byte) :=
  thenDo (runOps (paceOf how) readIvOps s) fun t xs => answer (unpackReplies xs) t

/-- `READBUF n -> s`. -/
def readBuf (how : Waiting) (n : Nat) (s : State) : HostRun (List Byte) :=
  thenDo (runOps (paceOf how) (readBufOps n) s) fun t xs => answer ((unpackReplies xs).take n) t

end Sys2Proof.Machine
end

