-- ==== Sys2Proof/Machine/Facade.lean ====
section
/-! DEFINITION. The host's contract (45_host_facade.md): the padding codec, and the encrypt and decrypt facades as host
programs over the machine's own step, for either way of waiting (R260). -/

namespace Sys2Proof.Machine

/-! ## Padding codec -/

/-- `Pad(data, bs)`, for `1 <= bs <= 255` (R251). -/
def pad (data : List Byte) (bs : Nat) : List Byte :=
  let padSize := bs - data.length % bs
  data ++ rep padSize (BitVec.ofNat 8 padSize)

/-- `Unpad(pd, strict)`; `none` is PaddingError (R252, R253). -/
def unpad (pd : List Byte) (strict : Bool) : Option (List Byte) :=
  match pd.getLast? with
  | none => none
  | some last =>
    let padSize := last.toNat
    if pd.length < padSize then none
    else if strict && (pd.drop (pd.length - padSize)).any (fun b => b.toNat != padSize) then none
    else some (pd.take (pd.length - padSize))

/-! ## Facades -/

/-- The error kinds a facade returns (R255). -/
inductive FacadeError where
  /-- InvalidKeyError. -/
  | invalidKey
  /-- RandomSourceError. -/
  | randomSource
  /-- MalformedInputError. -/
  | malformedInput
  /-- PaddingError. -/
  | padding
  /-- CapacityError, the spec's own (R262). -/
  | capacity
  deriving DecidableEq, Repr

/-- A call's result: the bytes, or an error kind. -/
abbrev FacadeResult := Except FacadeError (List Byte)

/-- A call's last act on every path that loaded a key: `RUN ZEROIZE`, then the result (R259). -/
def endCall (how : Waiting) (r : FacadeResult) (s : State) : HostRun FacadeResult :=
  thenDo (run how .zeroize s) fun t _ => answer r t

/-- STATUS.ERR of a STATUS word (R37). -/
def errBit (status : Word) : Bool := fieldValue fieldErr status == 1#32

/-- `EncryptM(key, plaintext)` (R256, R261, R262). -/
def encryptCall (how : Waiting) (m : Mode) (k plaintext : List Byte) (s : State) : HostRun FacadeResult :=
  if 32 < k.length then answer (.error .invalidKey) s
  else
    thenDo (runOps (paceOf how) (loadKeyOps k) s) fun s _ =>
    thenDo (run how .init s) fun s status =>
    if errBit status then endCall how (.error .invalidKey) s
    else
      let pd := pad plaintext 16
      if bufBytes s.cfg < pd.length then endCall how (.error .capacity) s
      else
        thenDo (run how .geniv s) fun s status =>
        if errBit status then endCall how (.error .randomSource) s
        else
          thenDo (runOps (paceOf how) (loadBufOps pd) s) fun s _ =>
          thenDo (run how (transformOf m .encrypt) s) fun s _ =>
          thenDo (readIv how s) fun s iv =>
          thenDo (readBuf how pd.length s) fun s body =>
          endCall how (.ok (iv ++ body)) s

/-- `DecryptM(key, ciphertext)` (R257, R261, R262). The CBC check of step 4 is never taken after step 2. -/
def decryptCall (how : Waiting) (m : Mode) (k ciphertext : List Byte) (s : State) : HostRun FacadeResult :=
  if 32 < k.length then answer (.error .invalidKey) s
  else
    thenDo (runOps (paceOf how) (loadKeyOps k) s) fun s _ =>
    thenDo (run how .init s) fun s status =>
    if errBit status then endCall how (.error .invalidKey) s
    else if ciphertext.length = 0 ∨ ciphertext.length % 16 ≠ 0 then endCall how (.error .malformedInput) s
    else
      let iv := ciphertext.take 16
      let body := ciphertext.drop 16
      if m = .cbc ∧ body.length % 16 ≠ 0 then endCall how (.error .malformedInput) s
      else if bufBytes s.cfg < body.length then endCall how (.error .capacity) s
      else
        thenDo (runOps (paceOf how) (loadIvOps iv) s) fun s _ =>
        thenDo (runOps (paceOf how) (loadBufOps body) s) fun s _ =>
        thenDo (run how (transformOf m .decrypt) s) fun s _ =>
        thenDo (readBuf how body.length s) fun s pd =>
        match unpad pd s.cfg.strictUnpad with
        | none => endCall how (.error .padding) s
        | some p => endCall how (.ok p) s

end Sys2Proof.Machine
end

