-- ==== Sys2Proof/Machine/Reference.lean ====
section
/-! DEFINITION. The reference functions of the two modes over byte sequences (40_mode_engine.md R152 to R155). The
cipher under the key is given as a bijection `e`: `E(K, ·)` is `e` and `D(K, ·)` is `e.symm` (R12). Each function goes
through the `n = ceil(len / 16)` blocks, carrying the previous ciphertext block (or the IV). -/

namespace Sys2Proof.Machine

/-- CBC encryption of `n` blocks: `C_i = E(K, P_i XOR C_{i-1})` (R152). -/
def cbcEncBlocks (e : Equiv.Perm Block) : Nat → Block → List Byte → List Byte
  | 0, _, _ => []
  | n + 1, prev, p =>
    let c := e (blockOf (xorBytes (p.take 16) prev.toList))
    c.toList ++ cbcEncBlocks e n c (p.drop 16)

/-- CBC decryption of `n` blocks: `P_i = D(K, C_i) XOR C_{i-1}` (R153). -/
def cbcDecBlocks (e : Equiv.Perm Block) : Nat → Block → List Byte → List Byte
  | 0, _, _ => []
  | n + 1, prev, c =>
    let ci := blockOf (c.take 16)
    xorBytes (e.symm ci).toList prev.toList ++ cbcDecBlocks e n ci (c.drop 16)

/-- CFB encryption of `n` blocks: `O_i = E(K, X_i)`, `C_i = P_i XOR O_i[0 .. len(P_i))`, `X_{i+1} = C_i`; the last
feedback is used only when C_i has 16 bytes (R154). -/
def cfbEncBlocks (e : Equiv.Perm Block) : Nat → Block → List Byte → List Byte
  | 0, _, _ => []
  | n + 1, x, p =>
    let pi := p.take 16
    let c := xorBytes pi ((e x).toList.take pi.length)
    c ++ cfbEncBlocks e n (blockOf c) (p.drop 16)

/-- CFB decryption of `n` blocks: `P_i = C_i XOR O_i[0 .. len(C_i))`, `X_{i+1} = C_i` (R155). -/
def cfbDecBlocks (e : Equiv.Perm Block) : Nat → Block → List Byte → List Byte
  | 0, _, _ => []
  | n + 1, x, c =>
    let ci := c.take 16
    xorBytes ci ((e x).toList.take ci.length) ++ cfbDecBlocks e n (blockOf ci) (c.drop 16)

/-- `CBC_ENC(K, IV, P)`; R152 defines it for `len(P) mod 16 = 0`. -/
def cbcEnc (e : Equiv.Perm Block) (iv : Block) (p : List Byte) : List Byte :=
  cbcEncBlocks e (ceilDiv16 p.length) iv p

/-- `CBC_DEC(K, IV, C)`; R153 defines it for `len(C) mod 16 = 0`. -/
def cbcDec (e : Equiv.Perm Block) (iv : Block) (c : List Byte) : List Byte :=
  cbcDecBlocks e (ceilDiv16 c.length) iv c

/-- `CFB_ENC(K, IV, P)`, for a plaintext of any length (R154). -/
def cfbEnc (e : Equiv.Perm Block) (iv : Block) (p : List Byte) : List Byte :=
  cfbEncBlocks e (ceilDiv16 p.length) iv p

/-- `CFB_DEC(K, IV, C)`, for a ciphertext of any length (R155). -/
def cfbDec (e : Equiv.Perm Block) (iv : Block) (c : List Byte) : List Byte :=
  cfbDecBlocks e (ceilDiv16 c.length) iv c

end Sys2Proof.Machine
end

