-- ==== Sys2Proof/Safety.lean ====
section
/-! DEFINITION. What holds of every state a run from reset reaches: the relations between the fields of the state that
10_state.md R38 to R54 and 60_exceptions.md R309 to R311 give, and what a fault-free step is. -/

namespace Sys2Proof

open Sys2Proof.Machine

/-- CUR holds a transform's CTRL word of mode `m`. -/
abbrev curIsTransform (m : Mode) (s : State) : Prop :=
  s.cur = encode (transformOf m .encrypt) ∨ s.cur = encode (transformOf m .decrypt)

/-- CUR holds one of the four transforms' CTRL words. -/
abbrev curIsAnyTransform (s : State) : Prop := curIsTransform .cfb s ∨ curIsTransform .cbc s

/-- Sequencing: PHASE is IDLE exactly while BUSY = 0 (R51), and CUR names the command while it executes (R36, R50). -/
structure SeqInv (s : State) : Prop where
  /-- PHASE is IDLE exactly while BUSY = 0 (R51). -/
  busyPhase : s.busy = true ↔ s.phase ≠ .idle
  /-- Acceptance of every word but 0 sets BUSY (R36). -/
  curNonzero : s.busy = true → s.cur ≠ 0#32
  /-- Only GENIV and the transforms have steps after their start step (R157, R205, R158, R231, R232). -/
  runCommand : s.phase = .run → s.cur = encode .geniv ∨ curIsAnyTransform s
  /-- In the start step nothing has been processed or drawn (R36). -/
  startFresh : s.phase = .check → s.bptr = 0 ∧ s.ivptr = 0 ∧ s.rngPend = false

/-- STATUS: DONE and the error fields (R39, R40, R310). -/
structure StatusInv (s : State) : Prop where
  /-- DONE = 0 while a command executes (R36, R38, R39). -/
  doneIdle : s.done = true → s.busy = false
  /-- ERR = 1 only with DONE = 1 (R310). -/
  errDone : s.err = true → s.done = true
  /-- ECODE names an error exactly while ERR = 1 (R40). -/
  errCode : s.err = true ↔ s.ecode ≠ .none
  /-- After an error the key is gone (R311, R313). -/
  errKey : s.err = true → s.keyValid = false ∧ s.ivFresh = false

/-- Key, IV and chaining state (R41, R42, R49). -/
structure SecretInv (s : State) : Prop where
  /-- While KEYVALID = 1, KLEN is in KEYSIZES (R41). -/
  keyLegal : s.keyValid = true → klenValid s = true
  /-- CHAIN is zero outside a running transform (R49, R311). -/
  chainClear : s.chain ≠ zeroBlock → s.phase = .run ∧ curIsAnyTransform s

/-- GENIV's drawing state (R53, R54, R202, R205). -/
structure DrawInv (s : State) : Prop where
  /-- A request is outstanding only inside GENIV (R54). -/
  pending : s.rngPend = true → s.phase = .run ∧ s.cur = encode .geniv
  /-- While GENIV runs, fewer than 16 bytes have been drawn, the key is valid and the IV is not fresh (R205). -/
  drawing : s.phase = .run → s.cur = encode .geniv → s.ivptr < 16 ∧ s.keyValid = true ∧ s.ivFresh = false
  /-- IVPTR stops at 16 (R53). -/
  ivptrBound : s.ivptr ≤ 16

/-- A running transform has passed its checks and has a block left (R52, R158). -/
structure TransformInv (s : State) : Prop where
  /-- A running transform has a valid key, a legal length and a block left to process (R158). -/
  running : s.phase = .run → curIsAnyTransform s →
    s.keyValid = true ∧ s.len.toNat ≤ bufBytes s.cfg ∧ s.bptr < blockCount s
  /-- A running CBC transform has whole blocks only (R158). -/
  wholeBlocks : s.phase = .run → curIsTransform .cbc s → s.len.toNat % 16 = 0
  /-- BPTR is in 0..4096 (R52). -/
  bptrBound : s.bptr ≤ 4096

/-- BUF's bytes are in canonical form and lie inside BUF (R48). -/
structure BufInv (s : State) : Prop where
  /-- Canonical form. -/
  canonical : Cells.wf s.buf = true
  /-- No byte outside `BUF[0 .. BUF_BYTES)`. -/
  inside : Cells.below (bufBytes s.cfg) s.buf = true

/-- The invariant of the machine. -/
structure Inv (s : State) : Prop where
  /-- Sequencing. -/
  seq : SeqInv s
  /-- STATUS. -/
  status : StatusInv s
  /-- Key, IV and chaining state. -/
  secret : SecretInv s
  /-- GENIV's drawing state. -/
  draw : DrawInv s
  /-- A running transform. -/
  transform : TransformInv s
  /-- BUF. -/
  buf : BufInv s

/-! ## What the claims speak of -/

/-- `k` steps of the machine, stopping at the first fault or refusal. -/
def runSteps : Nat → State → Result
  | 0, s => .next s
  | k + 1, s => andThen (step s) (runSteps k)

/-- The error response to an access of its kind (R87). -/
def errReply : Access → Reply
  | .read _ _ => .readErr
  | .write _ _ _ => .writeErr

/-- The random byte source's answer to the request `j` requests after the next one: the one listed, or the free value of
that request's number (R200, R202, log entry 2). -/
def answerTo (s : State) (j : Nat) : Answer := (s.answers[j]?).getD (Config.freeAnswer (s.requests + j + 1))

/-- The mode's reference function on the encrypt side (R152, R154). -/
def modeEnc : Mode → Equiv.Perm Block → Block → List Byte → List Byte
  | .cfb => cfbEnc
  | .cbc => cbcEnc

/-- The mode's reference function on the decrypt side (R153, R155). -/
def modeDec : Mode → Equiv.Perm Block → Block → List Byte → List Byte
  | .cfb => cfbDec
  | .cbc => cbcDec

/-- The reference function of a transform command (R166). -/
def transformFn : Mode → Dir → Equiv.Perm Block → Block → List Byte → List Byte
  | m, .encrypt => modeEnc m
  | m, .decrypt => modeDec m

/-- A byte sequence with byte `j` XORed with `d` (R168). -/
def flipByte (l : List Byte) (j : Nat) (d : Byte) : List Byte := l.set j (l.getD j 0#8 ^^^ d)

/-- Nothing of a call is left in the block: no key, IV, length, data or chaining state (R231, R259). -/
structure Cleared (s : State) : Prop where
  /-- No command is executing. -/
  idle : s.busy = false
  /-- KEYBYTES is zero. -/
  key : s.key = zeroKey
  /-- KEYVALID = 0. -/
  keyValid : s.keyValid = false
  /-- KLEN is 0. -/
  klen : s.klen = 0#32
  /-- IVBYTES is zero. -/
  iv : s.iv = zeroBlock
  /-- IVFRESH = 0. -/
  ivFresh : s.ivFresh = false
  /-- LEN is 0. -/
  len : s.len = 0#32
  /-- CHAIN is zero. -/
  chain : s.chain = zeroBlock
  /-- Every BUF byte is zero. -/
  buf : ∀ a, bufByte s a = 0#8

end Sys2Proof
end

