-- ==== Sys2Proof/Certificates/Slice0/Obligations.lean ====
section
/-! DEFINITION. The statements for the provers. Each formalises rules of spec/; OBLIGATIONS.json says which. Next
states are written out field by field: a field a statement does not name keeps its value, which is the command's
frame. The fields inputs, answers, requests, reply and cfg are the model's own (log entries 2 to 5); a next state says
what becomes of them beside what the rules say. A rule that the spec marks as derived is its own inference; a
docstring that names one says so. -/

open Sys2Proof Sys2Proof.Machine

/-! ## Encoding -/

/-- R122: the decoder selects a command from all 32 bits of the word, and each command has exactly the word of R122's
table. -/
def Obligations.DecodeSelectsByWholeWord : Prop :=
  (∀ (w : Word) (i : Instr), decodeWord w = some i ↔ w = encode i) ∧
  encode .clrstat = 0x00000000#32 ∧ encode .init = 0x00000001#32 ∧ encode .geniv = 0x00000002#32 ∧
  encode .encCfb = 0x00000004#32 ∧ encode .decCfb = 0x00000005#32 ∧ encode .encCbc = 0x00000006#32 ∧
  encode .decCbc = 0x00000007#32 ∧ encode .zeroize = 0x00000008#32

/-- R123: a word is reserved if RSVD is not 0 or CMD is 0x3 or 0x9..0xF, and every other word is a command. -/
def Obligations.ReservedWordsAreExactly : Prop :=
  ∀ w : Word, decodeWord w = none ↔
    (w.extractLsb' 4 28 ≠ 0#28 ∨ w.extractLsb' 0 4 = 0x3#4 ∨ 0x9#4 ≤ w.extractLsb' 0 4)

/-- Words written out from R122's table and R123's reserved encodings. -/
def Obligations.CommandCodesDecode : Prop :=
  decodeWord 0x00000000#32 = some .clrstat ∧ decodeWord 0x00000001#32 = some .init ∧
  decodeWord 0x00000002#32 = some .geniv ∧ decodeWord 0x00000003#32 = none ∧
  decodeWord 0x00000004#32 = some .encCfb ∧ decodeWord 0x00000005#32 = some .decCfb ∧
  decodeWord 0x00000006#32 = some .encCbc ∧ decodeWord 0x00000007#32 = some .decCbc ∧
  decodeWord 0x00000008#32 = some .zeroize ∧ decodeWord 0x00000009#32 = none ∧
  decodeWord 0x00000010#32 = none ∧ decodeWord 0x80000004#32 = none

/-- R121: CMD[1] is the mode and CMD[0] the direction of a transform word, and CMD[2] = 1 marks exactly CMD 4..7. -/
def Obligations.TransformSubFields : Prop :=
  (∀ m d, modeField (encode (transformOf m d)) = m ∧ dirField (encode (transformOf m d)) = d) ∧
  (∀ w : Word, isTransformWord w = true ↔ ∃ m d, w = encode (transformOf m d))

/-! ## The step -/

/-- A step runs the decoded command: on an accepted CTRL write (R36) and on the block's own turns (R50). Around exec the
step takes the input off the pending ones and records the OK response (the model's own fields, log entries 3 and 5). -/
def Obligations.StepRunsDecodedCommand : Prop :=
  (∀ (s : State) (w : Word) (i : Instr) (rest : List Input), s.busy = false → decodeWord w = some i →
    s.inputs = .access (.write 0x00008#17 .word w) :: rest →
    step s = exec i { s with inputs := rest, reply := some .writeOk }) ∧
  (∀ (s : State) (i : Instr), s.busy = true → decodeWord s.cur = some i → s.inputs = [] → step s = exec i s) ∧
  (∀ (s : State) (i : Instr) (rest : List Input), s.busy = true → decodeWord s.cur = some i →
    s.inputs = .turn :: rest → step s = exec i { s with inputs := rest })

/-- R36 for the commands: exec accepts its command while BUSY = 0 (CLRSTAT apart, which starts nothing). -/
def Obligations.AcceptanceStartsCommand : Prop :=
  ∀ (s : State) (i : Instr), s.busy = false → i ≠ .clrstat →
    exec i s = .next { s with
      done := false, err := false, ecode := .none
      cur := encode i, phase := .check, bptr := 0, ivptr := 0, busy := true }

/-- R36: a host write of any word to CTRL, reserved words included. -/
def Obligations.CtrlWriteAcceptance : Prop :=
  ∀ (s : State) (w : Word) (rest : List Input), s.inputs = .access (.write 0x00008#17 .word w) :: rest →
    (s.busy = false → w = 0x00000000#32 → step s = .next { s with
      inputs := rest, reply := some .writeOk, done := false, err := false, ecode := .none }) ∧
    (s.busy = false → w ≠ 0x00000000#32 → step s = .next { s with
      inputs := rest, reply := some .writeOk, done := false, err := false, ecode := .none
      cur := w, phase := .check, bptr := 0, ivptr := 0, busy := true }) ∧
    (s.busy = true → step s = .next { s with inputs := rest, reply := some .writeErr })

/-- R230: CLRSTAT is performed entirely at acceptance; while BUSY its write gets a bus error. -/
def Obligations.ClrstatClearsStatus : Prop :=
  ∀ (s : State) (rest : List Input),
    (s.busy = false → exec .clrstat s = .next { s with done := false, err := false, ecode := .none }) ∧
    (s.busy = false → s.inputs = .access (.write 0x00008#17 .word 0x00000000#32) :: rest →
      step s = .next { s with
        inputs := rest, reply := some .writeOk, done := false, err := false, ecode := .none }) ∧
    (s.busy = true → s.inputs = .access (.write 0x00008#17 .word 0x00000000#32) :: rest →
      step s = .next { s with inputs := rest, reply := some .writeErr })

/-- R123, R232: every reserved word written while idle is accepted, and its one engine step is BAD_CMD. -/
def Obligations.ReservedWordEndsInBadCmd : Prop :=
  ∀ (s : State) (w : Word), s.busy = false →
    (w.extractLsb' 4 28 ≠ 0#28 ∨ w.extractLsb' 0 4 = 0x3#4 ∨ 0x9#4 ≤ w.extractLsb' 0 4) →
    s.inputs = [.access (.write 0x00008#17 .word w)] →
    runSteps 1 s = .next { s with
      inputs := [], reply := some .writeOk, done := false, err := false, ecode := .none
      cur := w, phase := .check, bptr := 0, ivptr := 0, busy := true } ∧
    runSteps 2 s = .next { s with
      inputs := [], reply := some .writeOk, cur := w, bptr := 0, ivptr := 0
      key := zeroKey, keyValid := false, ivFresh := false, chain := zeroBlock, rngPend := false
      err := true, ecode := .badCmd, busy := false, done := true, phase := .idle }

/-- R343, with the model's own inputs (log entry 3): an idle block with nothing pending from outside does nothing. -/
def Obligations.IdleBlockStartsNothing : Prop :=
  ∀ s : State, s.busy = false →
    (s.inputs = [] → step s = .next s) ∧
    (∀ rest, s.inputs = .turn :: rest → step s = .next { s with inputs := rest })

/-! ## INIT -/

/-- R157, R301: INIT's engine step, with KLEN in KEYSIZES and with KLEN not in KEYSIZES. -/
def Obligations.InitStep : Prop :=
  ∀ s : State, s.busy = true → s.phase = .check →
    ((s.klen.toNat = 16 ∧ s.cfg.keySizes.k16 = true ∨ s.klen.toNat = 24 ∧ s.cfg.keySizes.k24 = true ∨
        s.klen.toNat = 32 ∧ s.cfg.keySizes.k32 = true) →
      exec .init s = .next { s with keyValid := true, busy := false, done := true, phase := .idle }) ∧
    (¬ (s.klen.toNat = 16 ∧ s.cfg.keySizes.k16 = true ∨ s.klen.toNat = 24 ∧ s.cfg.keySizes.k24 = true ∨
        s.klen.toNat = 32 ∧ s.cfg.keySizes.k32 = true) →
      exec .init s = .next { s with
        key := zeroKey, keyValid := false, ivFresh := false, chain := zeroBlock, rngPend := false
        err := true, ecode := .invalidKey, busy := false, done := true, phase := .idle })

/-! ## GENIV -/

/-- R205: GENIV's start step, request step and respond steps. The answer is the one the source gives to the outstanding
request, listed or free (log entry 2). -/
def Obligations.GenivSteps : Prop :=
  ∀ s : State, s.busy = true →
    (s.phase = .check → s.keyValid = true → exec .geniv s = .next { s with ivFresh := false, phase := .run }) ∧
    (s.phase = .check → s.keyValid = false → exec .geniv s = .next { s with
      key := zeroKey, keyValid := false, ivFresh := false, chain := zeroBlock, rngPend := false
      err := true, ecode := .noKey, busy := false, done := true, phase := .idle }) ∧
    (s.phase = .run → s.rngPend = false → s.ivptr < 16 →
      exec .geniv s = .next { s with rngPend := true, requests := s.requests + 1 }) ∧
    (∀ b, s.phase = .run → s.rngPend = true → nextAnswer s = .byte b → s.ivptr + 1 ≠ 16 →
      exec .geniv s = .next { s with
        answers := s.answers.tail, rngPend := false, iv := s.iv.setIfInBounds s.ivptr b, ivptr := s.ivptr + 1 }) ∧
    (∀ b, s.phase = .run → s.rngPend = true → nextAnswer s = .byte b → s.ivptr + 1 = 16 →
      exec .geniv s = .next { s with
        answers := s.answers.tail, rngPend := false, iv := s.iv.setIfInBounds s.ivptr b, ivptr := 16
        ivFresh := true, busy := false, done := true, phase := .idle }) ∧
    (s.phase = .run → s.rngPend = true → nextAnswer s = .fail →
      exec .geniv s = .next { s with
        answers := s.answers.tail, rngPend := false, iv := zeroBlock
        key := zeroKey, keyValid := false, ivFresh := false, chain := zeroBlock
        err := true, ecode := .randomSource, busy := false, done := true, phase := .idle })

/-- R205: a GENIV whose requests are all answered with bytes fills the IV in order. That it makes exactly 16 requests
is R209, the spec's own inference. The answers are listed or free values (log entry 2). -/
def Obligations.GenivDrawsSixteenBytes : Prop :=
  ∀ (s : State) (v : Block), s.busy = true → s.phase = .check → s.cur = encode .geniv →
    s.inputs = [] → s.keyValid = true → s.rngPend = false → s.ivptr = 0 →
    (∀ j, j < 16 → answerTo s j = .byte (v.toList.getD j 0#8)) →
    runSteps 33 s = .next { s with
      iv := v, ivFresh := true, ivptr := 16, requests := s.requests + 16, answers := s.answers.drop 16
      busy := false, done := true, phase := .idle }

/-- R205, R208: a GENIV that gets Fail after `k` bytes leaves a zero IV. That it has made `k + 1` requests is R209,
the spec's own inference. -/
def Obligations.GenivFailsWithoutPartialIv : Prop :=
  ∀ (s : State) (k : Nat), s.busy = true → s.phase = .check → s.cur = encode .geniv →
    s.inputs = [] → s.keyValid = true → s.rngPend = false → s.ivptr = 0 → k < 16 →
    (∀ j, j < k → ∃ b, answerTo s j = .byte b) → answerTo s k = .fail →
    runSteps (2 * k + 3) s = .next { s with
      iv := zeroBlock, ivptr := k, requests := s.requests + (k + 1), answers := s.answers.drop (k + 1)
      key := zeroKey, keyValid := false, ivFresh := false, chain := zeroBlock, rngPend := false
      err := true, ecode := .randomSource, busy := false, done := true, phase := .idle }

/-! ## Transforms -/

/-- R158, R159: the start step of a transform: the checks in order, the first that applies being reported, and the step
when all pass. -/
def Obligations.TransformStartStep : Prop :=
  ∀ (m : Mode) (d : Dir) (s : State), s.busy = true → s.phase = .check →
    (∀ c : ECode,
      (s.keyValid = false ∧ c = .noKey ∨
       s.keyValid = true ∧ bufBytes s.cfg < s.len.toNat ∧ c = .lenRange ∨
       s.keyValid = true ∧ s.len.toNat ≤ bufBytes s.cfg ∧ m = .cbc ∧ s.len.toNat % 16 ≠ 0 ∧ c = .malformed ∨
       s.keyValid = true ∧ s.len.toNat ≤ bufBytes s.cfg ∧ (m = .cbc → s.len.toNat % 16 = 0) ∧ d = .encrypt ∧
         s.ivFresh = false ∧ c = .ivStale) →
      exec (transformOf m d) s = .next { s with
        key := zeroKey, keyValid := false, ivFresh := false, chain := zeroBlock, rngPend := false
        err := true, ecode := c, busy := false, done := true, phase := .idle }) ∧
    (s.keyValid = true → s.len.toNat ≤ bufBytes s.cfg → (m = .cbc → s.len.toNat % 16 = 0) →
      (d = .encrypt → s.ivFresh = true) →
      (s.len.toNat ≠ 0 → exec (transformOf m d) s = .next { s with chain := s.iv, phase := .run }) ∧
      (s.len.toNat = 0 → exec (transformOf m d) s = .next { s with
        key := zeroKey, keyValid := false, ivFresh := false, chain := zeroBlock
        busy := false, done := true, phase := .idle }))

/-- R160, R162: one block step of ENC_CFB. The bytes stored are those of block BPTR inside LEN. -/
def Obligations.EncCfbBlockStep : Prop :=
  ∀ s : State, s.busy = true → s.phase = .run → Cells.wf s.buf = true → s.len.toNat ≤ bufBytes s.cfg →
    s.bptr < ceilDiv16 s.len.toNat →
    ∃ t, exec .encCfb s = .next t ∧
      (∀ a, bufByte t a =
        if 16 * s.bptr ≤ a ∧ a < min (16 * s.bptr + 16) s.len.toNat then
          bufByte s a ^^^ (cipherOf s.cfg.cipher (s.key.toList.take s.klen.toNat) s.chain).toList.getD
            (a - 16 * s.bptr) 0#8
        else bufByte s a) ∧
      (s.bptr + 1 < ceilDiv16 s.len.toNat → t = { s with
        buf := t.buf, bptr := s.bptr + 1, chain := blockOf (Cells.readAll t.buf (16 * s.bptr) 16) }) ∧
      (s.bptr + 1 = ceilDiv16 s.len.toNat → t = { s with
        buf := t.buf, bptr := s.bptr + 1, key := zeroKey, keyValid := false, ivFresh := false
        chain := zeroBlock, busy := false, done := true, phase := .idle })

/-- R161, R165: one block step of DEC_CFB. CHAIN takes the ciphertext read, not the plaintext written. -/
def Obligations.DecCfbBlockStep : Prop :=
  ∀ s : State, s.busy = true → s.phase = .run → Cells.wf s.buf = true → s.len.toNat ≤ bufBytes s.cfg →
    s.bptr < ceilDiv16 s.len.toNat →
    ∃ t, exec .decCfb s = .next t ∧
      (∀ a, bufByte t a =
        if 16 * s.bptr ≤ a ∧ a < min (16 * s.bptr + 16) s.len.toNat then
          bufByte s a ^^^ (cipherOf s.cfg.cipher (s.key.toList.take s.klen.toNat) s.chain).toList.getD
            (a - 16 * s.bptr) 0#8
        else bufByte s a) ∧
      (s.bptr + 1 < ceilDiv16 s.len.toNat → t = { s with
        buf := t.buf, bptr := s.bptr + 1, chain := blockOf (Cells.readAll s.buf (16 * s.bptr) 16) }) ∧
      (s.bptr + 1 = ceilDiv16 s.len.toNat → t = { s with
        buf := t.buf, bptr := s.bptr + 1, key := zeroKey, keyValid := false, ivFresh := false
        chain := zeroBlock, busy := false, done := true, phase := .idle })

/-- R163: one block step of ENC_CBC. -/
def Obligations.EncCbcBlockStep : Prop :=
  ∀ (s : State) (c : Block), s.busy = true → s.phase = .run → Cells.wf s.buf = true →
    16 * s.bptr + 16 ≤ bufBytes s.cfg → s.bptr < ceilDiv16 s.len.toNat →
    c = cipherOf s.cfg.cipher (s.key.toList.take s.klen.toNat)
      (blockOf (xorBytes (Cells.readAll s.buf (16 * s.bptr) 16) s.chain.toList)) →
    ∃ t, exec .encCbc s = .next t ∧
      (∀ a, bufByte t a =
        if 16 * s.bptr ≤ a ∧ a < 16 * s.bptr + 16 then c.toList.getD (a - 16 * s.bptr) 0#8 else bufByte s a) ∧
      (s.bptr + 1 < ceilDiv16 s.len.toNat → t = { s with buf := t.buf, bptr := s.bptr + 1, chain := c }) ∧
      (s.bptr + 1 = ceilDiv16 s.len.toNat → t = { s with
        buf := t.buf, bptr := s.bptr + 1, key := zeroKey, keyValid := false, ivFresh := false
        chain := zeroBlock, busy := false, done := true, phase := .idle })

/-- R164, R165: one block step of DEC_CBC. CHAIN takes the ciphertext read, not the plaintext written. -/
def Obligations.DecCbcBlockStep : Prop :=
  ∀ (s : State) (c : Block), s.busy = true → s.phase = .run → Cells.wf s.buf = true →
    16 * s.bptr + 16 ≤ bufBytes s.cfg → s.bptr < ceilDiv16 s.len.toNat →
    c = blockOf (Cells.readAll s.buf (16 * s.bptr) 16) →
    ∃ t, exec .decCbc s = .next t ∧
      (∀ a, bufByte t a =
        if 16 * s.bptr ≤ a ∧ a < 16 * s.bptr + 16 then
          ((cipherOf s.cfg.cipher (s.key.toList.take s.klen.toNat)).symm c).toList.getD (a - 16 * s.bptr) 0#8
            ^^^ s.chain.toList.getD (a - 16 * s.bptr) 0#8
        else bufByte s a) ∧
      (s.bptr + 1 < ceilDiv16 s.len.toNat → t = { s with buf := t.buf, bptr := s.bptr + 1, chain := c }) ∧
      (s.bptr + 1 = ceilDiv16 s.len.toNat → t = { s with
        buf := t.buf, bptr := s.bptr + 1, key := zeroKey, keyValid := false, ivFresh := false
        chain := zeroBlock, busy := false, done := true, phase := .idle })

/-- R166, the spec's own inference from R152 to R165: an accepted transform that completes without error leaves `BUF[0
.. LEN)` equal to its reference function of the old contents, every other byte and the IV unchanged, in one start step
and one step per block. The run is that of a host that writes CTRL and then waits (log entry 3). -/
def Obligations.TransformComputesReferenceFunction : Prop :=
  ∀ (m : Mode) (d : Dir) (s : State), s.busy = false → s.keyValid = true → Cells.wf s.buf = true →
    s.inputs = [.access (.write 0x00008#17 .word (encode (transformOf m d)))] →
    s.len.toNat ≤ bufBytes s.cfg → (m = .cbc → s.len.toNat % 16 = 0) → (d = .encrypt → s.ivFresh = true) →
    ∃ t, runSteps (2 + ceilDiv16 s.len.toNat) s = .next t ∧
      Cells.readAll t.buf 0 s.len.toNat =
        transformFn m d (cipherOf s.cfg.cipher (s.key.toList.take s.klen.toNat)) s.iv
          (Cells.readAll s.buf 0 s.len.toNat) ∧
      (∀ a, s.len.toNat ≤ a → bufByte t a = bufByte s a) ∧
      t = { s with
        inputs := [], reply := some .writeOk, cur := encode (transformOf m d), ivptr := 0
        bptr := ceilDiv16 s.len.toNat, buf := t.buf, key := zeroKey, keyValid := false, ivFresh := false
        chain := zeroBlock, err := false, ecode := .none, busy := false, done := true, phase := .idle }

/-! ## ZEROIZE -/

/-- R231: ZEROIZE's one engine step clears every operand and result. -/
def Obligations.ZeroizeClearsEverything : Prop :=
  ∀ s : State, s.busy = true → s.phase = .check →
    ∃ t, exec .zeroize s = .next t ∧ (∀ a, bufByte t a = 0#8) ∧
      t = { s with
        buf := t.buf, key := zeroKey, klen := 0#32, keyValid := false, iv := zeroBlock, ivFresh := false
        len := 0#32, chain := zeroBlock, busy := false, done := true, phase := .idle }

/-! ## Bus -/

/-- R83: byte lanes, for a word assembled from a byte array and for a word stored in KEYBYTES, IVBYTES or BUF. -/
def Obligations.ByteLanesLittleEndian : Prop :=
  (∀ (f : Nat → Byte) (i j : Nat), j < 4 → (wordAt f i).extractLsb' (8 * j) 8 = f (4 * i + j)) ∧
  (∀ (v : Vector Byte 32) (i a : Nat) (w : Word), i < 8 → a < 32 →
    (putWord v i w).toList.getD a 0#8 =
      if a / 4 = i then w.extractLsb' (8 * (a % 4)) 8 else v.toList.getD a 0#8) ∧
  (∀ (v : Vector Byte 16) (i a : Nat) (w : Word), i < 4 → a < 16 →
    (putWord v i w).toList.getD a 0#8 =
      if a / 4 = i then w.extractLsb' (8 * (a % 4)) 8 else v.toList.getD a 0#8) ∧
  (∀ (m : Cells) (i a : Nat) (w : Word), Cells.wf m = true →
    Cells.read (Cells.writeAll m (4 * i) [laneByte w 0, laneByte w 1, laneByte w 2, laneByte w 3]) a =
      if a / 4 = i then w.extractLsb' (8 * (a % 4)) 8 else Cells.read m a)

/-- R37, R127: the STATUS word, bit by bit. -/
def Obligations.StatusWordLayout : Prop :=
  ∀ s : State,
    (statusWord s).getLsbD 0 = s.busy ∧ (statusWord s).getLsbD 1 = s.done ∧ (statusWord s).getLsbD 2 = s.err ∧
    (statusWord s).getLsbD 3 = s.keyValid ∧ (statusWord s).getLsbD 4 = s.ivFresh ∧
    (statusWord s).extractLsb' 5 3 = 0#3 ∧ (statusWord s).extractLsb' 12 20 = 0#20 ∧
    (statusWord s).extractLsb' 8 4 =
      match s.ecode with
      | .none => 0#4
      | .invalidKey => 1#4
      | .randomSource => 2#4
      | .malformed => 3#4
      | .noKey => 4#4
      | .ivStale => 5#4
      | .lenRange => 6#4
      | .badCmd => 7#4

/-- R34: CAP reports the configuration. -/
def Obligations.CapWordLayout : Prop :=
  ∀ c : Config,
    ((capWord c).extractLsb' 0 16).toNat = bufBytes c / 16 ∧ (capWord c).extractLsb' 16 8 = 16#8 ∧
    (capWord c).getLsbD 24 = c.keySizes.k16 ∧ (capWord c).getLsbD 25 = c.keySizes.k24 ∧
    (capWord c).getLsbD 26 = c.keySizes.k32 ∧ (capWord c).extractLsb' 27 5 = 0#5

/-- R82, R85, R86, R87: an access of another width, at an offset that is no multiple of 4, or at a reserved offset
gets a bus error and changes nothing. -/
def Obligations.BadAccessIsBusError : Prop :=
  ∀ (s : State) (a : Access) (addr : Offset) (width : Width) (data : Word) (rest : List Input),
    (a = .read addr width ∨ a = .write addr width data) → s.inputs = .access a :: rest →
    (width ≠ .word ∨ addr.toNat % 4 ≠ 0 ∨ addr.toNat = 0x1C ∨ (0x50 ≤ addr.toNat ∧ addr.toNat < 0x10000) ∨
      0x10000 + bufBytes s.cfg ≤ addr.toNat) →
    step s = .next { s with inputs := rest, reply := some (errReply a) }

/-- R90: while BUSY, ID, CAP, STATUS and IRQEN are readable and IRQEN is writable; every other access gets a bus error
with no effect. -/
def Obligations.BusyRule : Prop :=
  ∀ (s : State) (rest : List Input), s.busy = true →
    (∀ (addr : Offset) (width : Width), s.inputs = .access (.read addr width) :: rest →
      (addr ≠ 0x00000#17 ∧ addr ≠ 0x00004#17 ∧ addr ≠ 0x0000C#17 ∧ addr ≠ 0x00010#17) →
      step s = .next { s with inputs := rest, reply := some .readErr }) ∧
    (∀ (addr : Offset) (width : Width) (w : Word), s.inputs = .access (.write addr width w) :: rest →
      addr ≠ 0x00010#17 → step s = .next { s with inputs := rest, reply := some .writeErr }) ∧
    (s.inputs = .access (.read 0x00000#17 .word) :: rest →
      step s = .next { s with inputs := rest, reply := some (.readOk 0x434D4531#32) }) ∧
    (s.inputs = .access (.read 0x00004#17 .word) :: rest →
      step s = .next { s with inputs := rest, reply := some (.readOk (capWord s.cfg)) }) ∧
    (s.inputs = .access (.read 0x0000C#17 .word) :: rest →
      step s = .next { s with inputs := rest, reply := some (.readOk (statusWord s)) }) ∧
    (s.inputs = .access (.read 0x00010#17 .word) :: rest →
      step s = .next { s with inputs := rest, reply := some (.readOk (if s.doneIe then 1#32 else 0#32)) }) ∧
    (∀ w : Word, s.inputs = .access (.write 0x00010#17 .word w) :: rest →
      step s = .next { s with inputs := rest, reply := some .writeOk, doneIe := w.getLsbD 0 })

/-- R88: what a read without bus error returns; no read has a side effect. While BUSY the first four are the reads
without bus error (R90). -/
def Obligations.ReadsReturn : Prop :=
  ∀ (s : State) (addr : Offset) (rest : List Input) (d : Word),
    s.inputs = .access (.read addr .word) :: rest →
    (addr = 0x00000#17 ∧ d = 0x434D4531#32 ∨ addr = 0x00004#17 ∧ d = capWord s.cfg ∨
     addr = 0x0000C#17 ∧ d = statusWord s ∨ addr = 0x00010#17 ∧ d = (if s.doneIe then 1#32 else 0#32) ∨
     s.busy = false ∧
      (addr = 0x00008#17 ∧ d = 0#32 ∨ addr = 0x00014#17 ∧ d = s.klen ∨ addr = 0x00018#17 ∧ d = s.len ∨
       (∃ i, i < 8 ∧ addr.toNat = 0x20 + 4 * i ∧ d = 0#32) ∨
       (∃ i, i < 4 ∧ addr.toNat = 0x40 + 4 * i ∧ d = wordAt (fun j => s.iv.toList.getD j 0#8) i) ∨
       (∃ i, 4 * i < bufBytes s.cfg ∧ addr.toNat = 0x10000 + 4 * i ∧ d = wordAt (bufByte s) i))) →
    step s = .next { s with inputs := rest, reply := some (.readOk d) }

/-- R58, R89: what a write does while the block is idle, side effects included (CTRL apart, R36). -/
def Obligations.IdleWritesStore : Prop :=
  ∀ (s : State) (addr : Offset) (w : Word) (rest : List Input), s.busy = false →
    s.inputs = .access (.write addr .word w) :: rest →
    (addr = 0x00000#17 ∨ addr = 0x00004#17 ∨ addr = 0x0000C#17 →
      step s = .next { s with inputs := rest, reply := some .writeOk }) ∧
    (addr = 0x00010#17 →
      step s = .next { s with inputs := rest, reply := some .writeOk, doneIe := w.getLsbD 0 }) ∧
    (addr = 0x00014#17 →
      step s = .next { s with inputs := rest, reply := some .writeOk, klen := w, keyValid := false }) ∧
    (addr = 0x00018#17 → step s = .next { s with inputs := rest, reply := some .writeOk, len := w }) ∧
    (∀ i, i < 8 → addr.toNat = 0x20 + 4 * i →
      step s = .next { s with
        inputs := rest, reply := some .writeOk, key := putWord s.key i w, keyValid := false }) ∧
    (∀ i, i < 4 → addr.toNat = 0x40 + 4 * i →
      step s = .next { s with
        inputs := rest, reply := some .writeOk, iv := putWord s.iv i w, ivFresh := false }) ∧
    (∀ i, 4 * i < bufBytes s.cfg → addr.toNat = 0x10000 + 4 * i → Cells.wf s.buf = true →
      ∃ t, step s = .next t ∧ t = { s with inputs := rest, reply := some .writeOk, buf := t.buf } ∧
        ∀ a, bufByte t a = if a / 4 = i then w.extractLsb' (8 * (a % 4)) 8 else bufByte s a)

/-- R44, R45, R47, R48: a word written to KLEN, LEN, IVi or BUF while idle reads back unchanged. -/
def Obligations.WrittenWordReadsBack : Prop :=
  ∀ (s : State) (addr : Offset) (w : Word), s.busy = false → Cells.wf s.buf = true →
    s.inputs = [.access (.write addr .word w), .access (.read addr .word)] →
    (addr = 0x00014#17 ∨ addr = 0x00018#17 ∨ (∃ i, i < 4 ∧ addr.toNat = 0x40 + 4 * i) ∨
      (∃ i, 4 * i < bufBytes s.cfg ∧ addr.toNat = 0x10000 + 4 * i)) →
    ∃ t, runSteps 2 s = .next t ∧ t.reply = some (.readOk w)

/-- R94, the spec's own inference from R58, R88 and R89: an access other than a CTRL write, done twice, leaves the
state and the response of doing it once. -/
def Obligations.AccessesAreIdempotent : Prop :=
  ∀ (s t : State) (a : Access) (rest : List Input), Cells.wf s.buf = true →
    (∀ width w, a ≠ .write 0x00008#17 width w) → s.inputs = .access a :: .access a :: rest →
    runSteps 2 s = .next t → step { s with inputs := .access a :: rest } = .next t

/-- R46, R88 and R56 (in part the spec's own inference): no read tells anything of the key, CHAIN, CUR, PHASE, BPTR,
IVPTR or RNGPEND, beyond BUSY. -/
def Obligations.HiddenStateUnreadable : Prop :=
  ∀ (s : State) (key : Vector Byte 32) (chain : Block) (cur : Word) (phase : Phase) (bptr ivptr : Nat)
    (rngPend : Bool) (addr : Offset) (width : Width) (rest : List Input),
    s.inputs = .access (.read addr width) :: rest →
    ∃ r, step s = .next { s with inputs := rest, reply := some r } ∧
      step { s with
        key := key, chain := chain, cur := cur, phase := phase, bptr := bptr, ivptr := ivptr, rngPend := rngPend } =
      .next { s with
        key := key, chain := chain, cur := cur, phase := phase, bptr := bptr, ivptr := ivptr, rngPend := rngPend
        inputs := rest, reply := some r }

/-- R90 (R96 is the spec's own inference from it): while a command executes, no host access changes anything but IRQEN
and the response. -/
def Obligations.BusyBlockShutsHostOut : Prop :=
  ∀ (s t : State) (a : Access) (rest : List Input), s.busy = true → s.inputs = .access a :: rest →
    step s = .next t → t = { s with inputs := rest, reply := t.reply, doneIe := t.doneIe }

/-! ## What alone changes a piece of state -/

/-- R41, R157: only INIT's success sets KEYVALID, and then KLEN is in KEYSIZES. -/
def Obligations.KeyValidSetOnlyByInit : Prop :=
  ∀ s t : State, step s = .next t → s.keyValid = false → t.keyValid = true →
    s.busy = true ∧ s.phase = .check ∧ s.cur = encode .init ∧ klenValid s = true ∧ t.busy = false ∧ t.done = true

/-- R42, R205: only GENIV's sixteenth byte sets IVFRESH (R210 is the spec's own inference). -/
def Obligations.IvFreshSetOnlyByGeniv : Prop :=
  ∀ s t : State, step s = .next t → s.ivFresh = false → t.ivFresh = true →
    s.busy = true ∧ s.phase = .run ∧ s.cur = encode .geniv ∧ s.rngPend = true ∧ s.ivptr = 15 ∧
      t.busy = false ∧ t.done = true

/-- R43: only an IRQEN write or reset changes IRQEN; no command does. -/
def Obligations.IrqenChangedOnlyByHost : Prop :=
  ∀ s t : State, step s = .next t → t.doneIe ≠ s.doneIe →
    (∃ w rest, s.inputs = .access (.write 0x00010#17 .word w) :: rest) ∨ (∃ rest, s.inputs = .reset :: rest)

/-- R45: only a LEN write, ZEROIZE or reset changes LEN. R44: only a KLEN write, ZEROIZE or reset changes KLEN (end-of-call
clear does not, R311). -/
def Obligations.LengthsChangedOnlyBy : Prop :=
  (∀ s t : State, step s = .next t → t.len ≠ s.len →
    (∃ w rest, s.inputs = .access (.write 0x00018#17 .word w) :: rest ∧ t.len = w) ∨
    (∃ rest, s.inputs = .reset :: rest ∧ t.len = 0#32) ∨
    (s.busy = true ∧ s.phase = .check ∧ s.cur = encode .zeroize ∧ t.len = 0#32)) ∧
  (∀ s t : State, step s = .next t → t.klen ≠ s.klen →
    (∃ w rest, s.inputs = .access (.write 0x00014#17 .word w) :: rest ∧ t.klen = w) ∨
    (∃ rest, s.inputs = .reset :: rest ∧ t.klen = 0#32) ∨
    (s.busy = true ∧ s.phase = .check ∧ s.cur = encode .zeroize ∧ t.klen = 0#32))

/-- R313, R351: while idle, DONE, ERR and ECODE keep their values until the next CTRL write or reset. -/
def Obligations.StatusStaysUntilCtrlWrite : Prop :=
  ∀ s t : State, step s = .next t → s.busy = false →
    (t.done ≠ s.done ∨ t.err ≠ s.err ∨ t.ecode ≠ s.ecode) →
    (∃ w rest, s.inputs = .access (.write 0x00008#17 .word w) :: rest) ∨ (∃ rest, s.inputs = .reset :: rest)

/-- R315: irq rises only when a command completes or the host sets DONEIE, and an accepted CTRL write drops it. -/
def Obligations.IrqRisesAndFalls : Prop :=
  (∀ s t : State, step s = .next t → irq s = false → irq t = true →
    (s.busy = true ∧ t.busy = false ∧ s.doneIe = true) ∨
      ∃ w rest, s.inputs = .access (.write 0x00010#17 .word w) :: rest ∧ w.getLsbD 0 = true ∧ s.done = true) ∧
  (∀ (s : State) (w : Word) (rest : List Input), s.busy = false →
    s.inputs = .access (.write 0x00008#17 .word w) :: rest → ∃ t, step s = .next t ∧ irq t = false)

/-- R202, R205: only GENIV's request step issues a request, one at a time, and none is outstanding then. The field
that counts the requests is the model's own (log entry 2). -/
def Obligations.RequestsOnlyByGeniv : Prop :=
  ∀ s t : State, step s = .next t → t.requests ≠ s.requests →
    s.busy = true ∧ s.phase = .run ∧ s.cur = encode .geniv ∧ s.rngPend = false ∧ s.ivptr < 16 ∧
      t.rngPend = true ∧ t.requests = s.requests + 1

/-- R310, R311 (R312 is the spec's own inference): an error completion changes no BUF byte, KLEN or LEN, leaves the IV
unchanged or zero, and leaves no key, no fresh IV and no chaining state. -/
def Obligations.ErrorLeavesNoPartialResult : Prop :=
  ∀ s t : State, step s = .next t → s.err = false → t.err = true →
    t.buf = s.buf ∧ t.klen = s.klen ∧ t.len = s.len ∧ (t.iv = s.iv ∨ t.iv = zeroBlock) ∧
    t.key = zeroKey ∧ t.keyValid = false ∧ t.ivFresh = false ∧ t.chain = zeroBlock ∧ t.rngPend = false ∧
    t.busy = false ∧ t.done = true ∧ t.phase = .idle ∧ t.ecode ≠ .none

/-- R30: the configuration is a parameter of the model; no step changes it. The model holds it in a field of its own
(log entry 4). -/
def Obligations.ConfigurationIsFixed : Prop :=
  ∀ s t : State, step s = .next t → t.cfg = s.cfg

/-! ## Reset and the invariant -/

/-- R340 with R341's values: reset sets every state element to its reset value in one step, whatever the block is
doing. What reset does to the model's own fields is the model's (log entry 12, with 3, 4 and 5): the configuration, the
further inputs, the count of requests and the latest response stay, and the answer listed for an abandoned request is
dropped (R211), so that the next request gets the answer after it. -/
def Obligations.ResetInOneStep : Prop :=
  ∀ (s : State) (rest : List Input), s.inputs = .reset :: rest →
    ∃ t, step s = .next t ∧ t.busy = false ∧ t.done = false ∧ t.err = false ∧ t.keyValid = false ∧
      t.ivFresh = false ∧ t.ecode = .none ∧ t.doneIe = false ∧ t.klen = 0#32 ∧ t.len = 0#32 ∧
      (∀ j, j < 32 → t.key.toList.getD j 1#8 = 0#8) ∧ (∀ j, j < 16 → t.iv.toList.getD j 1#8 = 0#8) ∧
      (∀ a, bufByte t a = 0#8) ∧ (∀ j, j < 16 → t.chain.toList.getD j 1#8 = 0#8) ∧ t.cur = 0#32 ∧
      t.phase = .idle ∧ t.bptr = 0 ∧ t.ivptr = 0 ∧ t.rngPend = false ∧ statusWord t = 0#32 ∧ irq t = false ∧
      t.cfg = s.cfg ∧ t.inputs = rest ∧ t.requests = s.requests ∧ t.reply = s.reply ∧
      (s.rngPend = false → t.answers = s.answers) ∧ (s.rngPend = true → t.answers = s.answers.drop 1)

/-- R33, R34, R341: what a host reads right after reset with the default parameters. -/
def Obligations.ResetRegistersRead : Prop :=
  readTarget State.reset .id = 0x434D4531#32 ∧ readTarget State.reset .cap = 0x07100100#32 ∧
  readTarget State.reset .ctrl = 0#32 ∧ readTarget State.reset .status = 0#32 ∧
  readTarget State.reset .irqen = 0#32 ∧ readTarget State.reset .klen = 0#32 ∧ readTarget State.reset .len = 0#32 ∧
  (∀ i, i < 8 → readTarget State.reset (.key i) = 0#32) ∧ (∀ i, i < 4 → readTarget State.reset (.iv i) = 0#32) ∧
  (∀ i, readTarget State.reset (.buf i) = 0#32)

/-- The invariant, which collects what R38 to R54 and R309 to R311 give, holds after reset, for every configuration. -/
def Obligations.InvariantHoldsAtReset : Prop :=
  ∀ c : Config, Inv (State.resetWith c)

/-- Every step keeps the invariant, from every state that meets it. -/
def Obligations.EveryStepKeepsInvariant : Prop :=
  ∀ s t : State, Inv s → step s = .next t → Inv t

/-- From a state that meets the invariant no step stops: R300's errors are completions, and the model's one stop (R20,
log entry 9) lies outside the invariant. -/
def Obligations.NoStepStops : Prop :=
  ∀ s : State, Inv s → ∃ t, step s = .next t

/-- R20: the one stop of the model (log entry 9): a block step whose BufRead would leave BUF. -/
def Obligations.BlockStepStopsOutsideBuf : Prop :=
  ∀ s : State, s.busy = true → s.phase = .run → s.bptr < ceilDiv16 s.len.toNat →
    bufBytes s.cfg < 16 * s.bptr + min 16 (s.len.toNat - 16 * s.bptr) →
    exec .encCfb s = .fault .bufferRange ∧ exec .decCfb s = .fault .bufferRange ∧
    exec .encCbc s = .fault .bufferRange ∧ exec .decCbc s = .fault .bufferRange

/-- R300: every command ends, here in a bounded number of the block's own steps, in an idle block as R354 says it
(BUSY = 0, RNGPEND = 0). It rests on the assumption that the
random byte source answers every request (R203, log entry 6). -/
def Obligations.EveryCommandEnds : Prop :=
  ∀ s : State, Inv s → s.busy = true → s.inputs = [] →
    ∃ k t, k ≤ 4097 ∧ runSteps k s = .next t ∧ t.busy = false ∧ t.rngPend = false ∧ t.done = true ∧
      (t.err = true ↔ t.ecode ≠ .none)

/-! ## The modes -/

/-- R167, the spec's own inference from R12 and R152 to R155: decryption inverts encryption, for CBC on whole blocks
and for CFB on a plaintext of any length. -/
def Obligations.DecryptionInvertsEncryption : Prop :=
  ∀ (e : Equiv.Perm Block) (iv : Block) (p : List Byte),
    (p.length % 16 = 0 → cbcDec e iv (cbcEnc e iv p) = p) ∧ cfbDec e iv (cfbEnc e iv p) = p

/-- R169, the spec's own inference from R152 to R155: the CFB functions have the prefix property at every length, the
CBC functions at multiples of 16. -/
def Obligations.ModesHavePrefixProperty : Prop :=
  ∀ (e : Equiv.Perm Block) (iv : Block) (p : List Byte) (j : Nat), j ≤ p.length →
    (cfbEnc e iv p).take j = cfbEnc e iv (p.take j) ∧ (cfbDec e iv p).take j = cfbDec e iv (p.take j) ∧
    (j % 16 = 0 → p.length % 16 = 0 →
      (cbcEnc e iv p).take j = cbcEnc e iv (p.take j) ∧ (cbcDec e iv p).take j = cbcDec e iv (p.take j))

/-- R168 for CBC, the spec's own inference from R153: a changed ciphertext byte changes, outside its own block, only
the same byte of the next block, by exactly the difference. -/
def Obligations.CbcErrorSpread : Prop :=
  ∀ (e : Equiv.Perm Block) (iv : Block) (c : List Byte) (j q : Nat) (d : Byte), c.length % 16 = 0 → j < c.length →
    q < c.length → q / 16 ≠ j / 16 →
    (cbcDec e iv (flipByte c j d)).getD q 0#8 =
      if q = j + 16 then (cbcDec e iv c).getD q 0#8 ^^^ d else (cbcDec e iv c).getD q 0#8

/-- R168 for CFB, the spec's own inference from R155: a changed ciphertext byte changes, outside the next block, only
itself, by exactly the difference. -/
def Obligations.CfbErrorSpread : Prop :=
  ∀ (e : Equiv.Perm Block) (iv : Block) (c : List Byte) (j q : Nat) (d : Byte), j < c.length → q < c.length →
    q / 16 ≠ j / 16 + 1 →
    (cfbDec e iv (flipByte c j d)).getD q 0#8 =
      if q = j then (cfbDec e iv c).getD q 0#8 ^^^ d else (cfbDec e iv c).getD q 0#8

/-! ## The host's contract -/

/-- R251, R252: Pad gives a longer multiple of the block size, and Unpad inverts it, strict or not. -/
def Obligations.UnpadInvertsPad : Prop :=
  ∀ (data : List Byte) (bs : Nat) (strict : Bool), 1 ≤ bs → bs ≤ 255 →
    (pad data bs).length % bs = 0 ∧ data.length < (pad data bs).length ∧ unpad (pad data bs) strict = some data

/-- R264 for CFB, the spec's own inference from R155, R251 and R252: with the last ciphertext byte changed, decryption
never gives the original plaintext. -/
def Obligations.CfbTamperingIsSeen : Prop :=
  ∀ (e : Equiv.Perm Block) (iv : Block) (p : List Byte) (d : Byte) (strict : Bool), d ≠ 0#8 →
    unpad (cfbDec e iv (flipByte (cfbEnc e iv (pad p 16)) ((pad p 16).length - 1) d)) strict ≠ some p

/-- R264 for CBC, the spec's own inference: with the last ciphertext byte changed, decryption can give the original
plaintext. -/
def Obligations.CbcTamperingCanPass : Prop :=
  ∃ (c : CipherChoice) (k : List Byte) (iv : Block) (p : List Byte) (d : Byte), d ≠ 0#8 ∧ k.length = 16 ∧
    unpad (cbcDec (cipherOf c k) iv (flipByte (cbcEnc (cipherOf c k) iv (pad p 16)) ((pad p 16).length - 1) d)) false
      = some p

/-- R254, R256: the encrypt facade (as the host program of log entries 15 and 17), run from an idle block whose random byte
source answers with the bytes of `v`, returns `v`, then the mode's encryption of the padded plaintext under the
caller's key, and leaves nothing of the call, whichever way the host waits (R260). That GENIV ends rests on log
entry 6. -/
def Obligations.EncryptFacadeWireFormat : Prop :=
  ∀ (how : Waiting) (m : Mode) (k p : List Byte) (v : Block) (s : State), Inv s → s.busy = false →
    inKeySizes s.cfg k.length = true → (pad p 16).length ≤ bufBytes s.cfg →
    (∀ j, j < 16 → answerTo s j = .byte (v.toList.getD j 0#8)) →
    ∃ t, encryptCall how m k p s =
        .next (t, some (.ok (v.toList ++ modeEnc m (cipherOf s.cfg.cipher k) v (pad p 16)))) ∧ Cleared t

/-- R263, the spec's own inference from R251, R252, R256 and R257 (host programs of log entries 15 and 17): decrypting what the
encrypt facade returned gives the plaintext back, with STRICT_UNPAD either value, whichever way the host waits in
either call (R260). That GENIV ends rests on log entry 6. -/
def Obligations.FacadeRoundTrip : Prop :=
  ∀ (how how' : Waiting) (m : Mode) (k p : List Byte) (v : Block) (s : State), Inv s → s.busy = false →
    inKeySizes s.cfg k.length = true → (pad p 16).length ≤ bufBytes s.cfg →
    (∀ j, j < 16 → answerTo s j = .byte (v.toList.getD j 0#8)) →
    ∃ t c, encryptCall how m k p s = .next (t, some (.ok c)) ∧
      ∃ u, decryptCall how' m k c t = .next (u, some (.ok p))

/-- R256, R257, R261 (host programs of log entries 15 and 17): a key whose length is not in KEYSIZES gives InvalidKeyError, for
every plaintext and ciphertext and either way of waiting (R260), and no random byte is requested. -/
def Obligations.FacadesRejectBadKeys : Prop :=
  ∀ (how : Waiting) (m : Mode) (k data : List Byte) (s : State), Inv s → s.busy = false →
    inKeySizes s.cfg k.length = false →
    (∃ t, encryptCall how m k data s = .next (t, some (.error .invalidKey)) ∧ t.requests = s.requests) ∧
    (∃ t, decryptCall how m k data s = .next (t, some (.error .invalidKey)) ∧ t.requests = s.requests)

/-- R252, R256, R257, R262 (host programs of log entries 15 and 17, either way of waiting by R260): what a facade returns once
INIT has succeeded, the encrypt facade's result without an error apart: CapacityError and RandomSourceError of the
encrypt facade; MalformedInputError and CapacityError of the decrypt facade; and for every other ciphertext, whether
or not the encrypt facade made it, the unpadded decryption, or PaddingError where Unpad fails (a ciphertext of 16
bytes has an empty body). That GENIV ends rests on log entry 6. -/
def Obligations.FacadesReportErrors : Prop :=
  ∀ (how : Waiting) (m : Mode) (k data : List Byte) (s : State), Inv s → s.busy = false →
    inKeySizes s.cfg k.length = true →
    (bufBytes s.cfg < (pad data 16).length →
      ∃ t, encryptCall how m k data s = .next (t, some (.error .capacity)) ∧ t.requests = s.requests) ∧
    (∀ n, (pad data 16).length ≤ bufBytes s.cfg → n < 16 → (∀ j, j < n → ∃ b, answerTo s j = .byte b) →
      answerTo s n = .fail →
      ∃ t, encryptCall how m k data s = .next (t, some (.error .randomSource)) ∧
        t.requests = s.requests + (n + 1)) ∧
    ((data.length = 0 ∨ data.length % 16 ≠ 0) →
      ∃ t, decryptCall how m k data s = .next (t, some (.error .malformedInput)) ∧ t.requests = s.requests) ∧
    (data.length % 16 = 0 → bufBytes s.cfg + 16 < data.length →
      ∃ t, decryptCall how m k data s = .next (t, some (.error .capacity)) ∧ t.requests = s.requests) ∧
    (data.length % 16 = 0 → 16 ≤ data.length → data.length ≤ bufBytes s.cfg + 16 →
      ∃ t, decryptCall how m k data s =
        .next (t, some (match unpad (modeDec m (cipherOf s.cfg.cipher k) (blockOf (data.take 16)) (data.drop 16))
            s.cfg.strictUnpad with
          | some p => .ok p
          | none => .error .padding)) ∧ t.requests = s.requests)

/-- R259, R261 (host programs of log entries 15 and 17): a facade call that loaded a key leaves nothing of the call in the
block, whatever it returns, whatever the random byte source answers and whichever way the host waits (R260); a call
with a key longer than 32 bytes touches nothing. That the calls return rests on log entry 6. -/
def Obligations.FacadesLeaveNothing : Prop :=
  ∀ (how : Waiting) (m : Mode) (k data : List Byte) (s : State), Inv s → s.busy = false →
    (k.length ≤ 32 →
      (∃ t r, encryptCall how m k data s = .next (t, some r) ∧ Cleared t) ∧
      (∃ t r, decryptCall how m k data s = .next (t, some r) ∧ Cleared t)) ∧
    (32 < k.length →
      encryptCall how m k data s = .next (s, some (.error .invalidKey)) ∧
      decryptCall how m k data s = .next (s, some (.error .invalidKey)))
end

