-- ==== Sys2Proof/Laws/Blocks.lean ====
section
/-! SUPPORT. The laws of byte sequences, blocks, byte lanes and the block count. -/

namespace Sys2Proof.Machine

/-! ## XOR of byte sequences (R18) -/

@[simp] theorem length_xorBytes (a b : List Byte) : (xorBytes a b).length = min a.length b.length := by
  simp [xorBytes]

theorem getElem_xorBytes (a b : List Byte) (j : Nat) (h : j < (xorBytes a b).length) :
    (xorBytes a b)[j] = a[j]'(by simp at h; omega) ^^^ b[j]'(by simp at h; omega) := by
  simp [xorBytes]

theorem getD_xorBytes (a b : List Byte) (j : Nat) (ha : j < a.length) (hb : j < b.length) :
    (xorBytes a b).getD j 0#8 = a.getD j 0#8 ^^^ b.getD j 0#8 := by
  have h : j < (xorBytes a b).length := by simp; omega
  simp [ha, hb, getElem_xorBytes]

/-- `(a XOR b) XOR b = a`, where b is at least as long as a. -/
theorem xorBytes_cancel {a b : List Byte} (h : a.length ≤ b.length) : xorBytes (xorBytes a b) b = a := by
  apply List.ext_getElem
  · simp; omega
  · intro j h1 h2
    simp [getElem_xorBytes]

/-- Only the first `len(a)` bytes of the second operand matter. -/
theorem xorBytes_take_right (a b : List Byte) : xorBytes a (b.take a.length) = xorBytes a b := by
  apply List.ext_getElem
  · simp
  · intro j h1 h2
    simp [getElem_xorBytes]

/-! ## Blocks (R17) -/

@[simp] theorem length_toList_block (b : Block) : b.toList.length = 16 := by simp

@[simp] theorem getElem_blockOf (l : List Byte) (j : Nat) (h : j < 16) : (blockOf l)[j] = l.getD j 0#8 := by
  simp [blockOf]

/-- A sequence of 16 bytes is the block made of it. -/
theorem toList_blockOf {l : List Byte} (h : l.length = 16) : (blockOf l).toList = l := by
  apply List.ext_getElem
  · simp [h]
  · intro j h1 h2
    simp [h2]

@[simp] theorem blockOf_toList (b : Block) : blockOf b.toList = b := by
  ext j hj
  simp [List.getD_eq_getElem?_getD, hj]

/-! ## Byte lanes (R83) -/

theorem laneByte_laneWord_zero (b0 b1 b2 b3 : Byte) : laneByte (laneWord b0 b1 b2 b3) 0 = b0 := by
  apply BitVec.eq_of_getLsbD_eq
  intro i hi
  have h1 : i < 32 := by omega
  have h2 : i < 16 := by omega
  have h3 : i < 24 := by omega
  simp [laneByte, laneWord, hi, h1, h2, h3]

theorem laneByte_laneWord_one (b0 b1 b2 b3 : Byte) : laneByte (laneWord b0 b1 b2 b3) 1 = b1 := by
  apply BitVec.eq_of_getLsbD_eq
  intro i hi
  have h1 : 8 + i < 32 := by omega
  have h2 : 8 + i < 16 := by omega
  have h3 : 8 + i < 24 := by omega
  simp [laneByte, laneWord, hi, h1, h2, h3, BitVec.getLsbD_of_ge]

theorem laneByte_laneWord_two (b0 b1 b2 b3 : Byte) : laneByte (laneWord b0 b1 b2 b3) 2 = b2 := by
  apply BitVec.eq_of_getLsbD_eq
  intro i hi
  have h1 : 16 + i < 32 := by omega
  have h2 : 16 + i < 24 := by omega
  have h3 : 8 ≤ 16 + i - 8 := by omega
  have h4 : b0.getLsbD (16 + i) = false := BitVec.getLsbD_of_ge _ _ (by omega)
  simp [laneByte, laneWord, hi, h1, h2, h3, h4, BitVec.getLsbD_of_ge]

theorem laneByte_laneWord_three (b0 b1 b2 b3 : Byte) : laneByte (laneWord b0 b1 b2 b3) 3 = b3 := by
  apply BitVec.eq_of_getLsbD_eq
  intro i hi
  have h1 : 24 + i < 32 := by omega
  have h2 : 8 ≤ 24 + i - 8 := by omega
  have h3 : 8 ≤ 24 + i - 16 := by omega
  have h4 : b0.getLsbD (24 + i) = false := BitVec.getLsbD_of_ge _ _ (by omega)
  simp [laneByte, laneWord, hi, h1, h2, h3, h4, BitVec.getLsbD_of_ge]

/-- The four bytes of a bus word give the word back. -/
theorem laneWord_laneByte (w : Word) : laneWord (laneByte w 0) (laneByte w 1) (laneByte w 2) (laneByte w 3) = w := by
  apply BitVec.eq_of_getLsbD_eq
  intro i hi
  simp only [laneWord, laneByte, BitVec.getLsbD_or, BitVec.getLsbD_shiftLeft, BitVec.getLsbD_setWidth,
    BitVec.getLsbD_extractLsb', hi, decide_true, Bool.true_and]
  rcases (by omega : i < 8 ∨ (8 ≤ i ∧ i < 16) ∨ (16 ≤ i ∧ i < 24) ∨ 24 ≤ i) with h | h | h | h
  · have h2 : i < 16 := by omega
    have h3 : i < 24 := by omega
    simp [h, h2, h3]
  · have h1 : ¬ i < 8 := by omega
    have h2 : i - 8 < 8 := by omega
    have h3 : 8 + (i - 8) = i := by omega
    have h4 : i - 8 < 32 := by omega
    have h5 : i < 24 := by omega
    simp [h, h1, h2, h3, h4, h5]
  · have h1 : ¬ i < 8 := by omega
    have h2 : ¬ i - 8 < 8 := by omega
    have h3 : 16 + (i - 16) = i := by omega
    have h4 : i - 16 < 32 := by omega
    have h5 : ¬ i < 16 := by omega
    have h6 : i - 16 < 8 := by omega
    simp [h, h1, h2, h3, h4, h5, h6]
  · have h1 : ¬ i < 8 := by omega
    have h2 : ¬ i - 8 < 8 := by omega
    have h3 : 24 + (i - 24) = i := by omega
    have h4 : i - 24 < 32 := by omega
    have h5 : ¬ i < 16 := by omega
    have h6 : ¬ i - 16 < 8 := by omega
    have h7 : ¬ i < 24 := by omega
    have h8 : i - 24 < 8 := by omega
    simp [h1, h2, h3, h4, h5, h6, h7, h8]

/-! ## The block count (R126, R156) -/

theorem ceilDiv16_zero : ceilDiv16 0 = 0 := rfl

theorem ceilDiv16_pos {n : Nat} (h : 0 < n) : 0 < ceilDiv16 n := by unfold ceilDiv16; omega

/-- Every block of a transform is inside LEN. -/
theorem block_start_lt {i n : Nat} (h : i < ceilDiv16 n) : 16 * i < n := by unfold ceilDiv16 at h; omega

/-- Only the last block can be short. -/
theorem full_block_of_not_last {i n : Nat} (h : i + 1 < ceilDiv16 n) : 16 * i + 16 ≤ n := by
  unfold ceilDiv16 at h; omega

/-- With whole blocks only, no block is short. -/
theorem full_block_of_dvd {i n : Nat} (hd : n % 16 = 0) (h : i < ceilDiv16 n) : 16 * i + 16 ≤ n := by
  unfold ceilDiv16 at h; omega

end Sys2Proof.Machine
end

