-- ==== Sys2Proof/Laws/Memory.lean ====
section
/-! SUPPORT. The laws of BUF's bytes: a read after a write, the canonical form kept by every memory operation, and that
canonical memories with equal bytes are equal data. -/

namespace Sys2Proof.Machine

/-! ## One byte -/

theorem Cells.wfFrom_cons (lo k : Nat) (b : Byte) (rest : Cells) :
    Cells.wfFrom lo ((k, b) :: rest) = true ↔ lo ≤ k ∧ b ≠ 0#8 ∧ Cells.wfFrom (k + 1) rest = true := by
  simp [Cells.wfFrom, and_assoc]

theorem Cells.wfFrom_mono {lo lo' : Nat} (h : lo' ≤ lo) :
    ∀ {m : Cells}, Cells.wfFrom lo m = true → Cells.wfFrom lo' m = true
  | [], _ => rfl
  | (k, b) :: rest, hm => by
    rw [Cells.wfFrom_cons] at hm ⊢
    exact ⟨h.trans hm.1, hm.2⟩

/-- A byte below every listed address reads 0. -/
theorem Cells.read_eq_zero_of_lt {a : Nat} :
    ∀ {lo : Nat} {m : Cells}, Cells.wfFrom lo m = true → a < lo → Cells.read m a = 0#8
  | _, [], _, _ => rfl
  | lo, (k, b) :: rest, hm, ha => by
    rw [Cells.wfFrom_cons] at hm
    have : k ≠ a := by omega
    simp only [Cells.read, this, if_false]
    exact Cells.read_eq_zero_of_lt hm.2.2 (by omega)

theorem Cells.wfFrom_write {v : Byte} :
    ∀ {lo : Nat} {m : Cells} {a : Nat}, Cells.wfFrom lo m = true → lo ≤ a →
      Cells.wfFrom lo (Cells.write m a v) = true
  | lo, [], a, _, ha => by
    by_cases hv : v = 0#8 <;> simp [Cells.write, Cells.wfFrom, hv, ha]
  | lo, (k, b) :: rest, a, hm, ha => by
    have hm' := hm
    rw [Cells.wfFrom_cons] at hm
    obtain ⟨hk, hb, hr⟩ := hm
    unfold Cells.write
    split
    · split
      · exact hm'
      · rename_i h1 h2
        rw [Cells.wfFrom_cons, Cells.wfFrom_cons]
        exact ⟨ha, h2, by omega, hb, hr⟩
    · split
      · split
        · exact Cells.wfFrom_mono (by omega) hr
        · rename_i h1 h2 h3
          rw [Cells.wfFrom_cons]
          exact ⟨hk, h3, hr⟩
      · rename_i h1 h2
        rw [Cells.wfFrom_cons]
        exact ⟨hk, hb, Cells.wfFrom_write hr (by omega)⟩

theorem Cells.read_write {v : Byte} {b : Nat} :
    ∀ {lo : Nat} {m : Cells} {a : Nat}, Cells.wfFrom lo m = true →
      Cells.read (Cells.write m a v) b = if b = a then v else Cells.read m b
  | lo, [], a, _ => by
    by_cases hv : v = 0#8
    · simp [Cells.write, Cells.read, hv]
    · by_cases hb : b = a
      · simp [Cells.write, Cells.read, hv, hb]
      · simp [Cells.write, Cells.read, hv, hb, Ne.symm hb]
  | lo, (k, c) :: rest, a, hm => by
    have hm' := hm
    rw [Cells.wfFrom_cons] at hm
    obtain ⟨hk, hc, hr⟩ := hm
    unfold Cells.write
    split
    · rename_i h1
      split
      · rename_i hv
        by_cases hb : b = a
        · have hka : ¬ k = a := by omega
          subst hb
          simp only [if_true, Cells.read, hka, if_false, hv]
          exact Cells.read_eq_zero_of_lt hr (by omega)
        · simp [hb]
      · by_cases hb : b = a
        · simp [Cells.read, hb]
        · simp [Cells.read, hb, Ne.symm hb]
    · rename_i h1
      split
      · rename_i h2
        subst h2
        split
        · rename_i hv
          by_cases hb : b = a
          · subst hb
            simp only [if_true, hv]
            exact Cells.read_eq_zero_of_lt hr (by omega)
          · simp [Cells.read, hb, Ne.symm hb]
        · by_cases hb : b = a
          · simp [Cells.read, hb]
          · simp [Cells.read, hb, Ne.symm hb]
      · rename_i h2
        have ih := Cells.read_write (v := v) (b := b) (a := a) hr
        by_cases hkb : k = b
        · have : ¬ b = a := by omega
          simp [Cells.read, hkb, this]
        · simp [Cells.read, hkb, ih]

/-- A write keeps the canonical form. -/
theorem Cells.wf_write {m : Cells} {a : Nat} {v : Byte} (h : Cells.wf m = true) :
    Cells.wf (Cells.write m a v) = true := Cells.wfFrom_write h (Nat.zero_le a)

/-- A write inside `[0, n)` lists nothing outside it. -/
theorem Cells.below_write {n a : Nat} {v : Byte} (ha : a < n) :
    ∀ {m : Cells}, Cells.below n m = true → Cells.below n (Cells.write m a v) = true
  | [], _ => by by_cases hv : v = 0#8 <;> simp [Cells.write, Cells.below, hv, ha]
  | (k, b) :: rest, hm => by
    have hm' := hm
    simp only [Cells.below, List.all_cons, Bool.and_eq_true, decide_eq_true_eq] at hm
    have ih := Cells.below_write (v := v) ha (m := rest) hm.2
    unfold Cells.write
    split
    · split
      · exact hm'
      · simp [Cells.below, ha, hm.1]
        simpa [Cells.below] using hm.2
    · split
      · split
        · exact hm.2
        · simp [Cells.below, hm.1]
          simpa [Cells.below] using hm.2
      · simp [Cells.below, hm.1]
        simpa [Cells.below] using ih

/-- Nothing listed below `n` means every byte from `n` on reads 0. -/
theorem Cells.read_eq_zero_of_below {n a : Nat} (ha : n ≤ a) :
    ∀ {m : Cells}, Cells.below n m = true → Cells.read m a = 0#8
  | [], _ => rfl
  | (k, b) :: rest, hm => by
    simp only [Cells.below, List.all_cons, Bool.and_eq_true, decide_eq_true_eq] at hm
    have : k ≠ a := by omega
    simp only [Cells.read, this, if_false]
    exact Cells.read_eq_zero_of_below ha hm.2

/-- Canonical memories with equal bytes are equal data. -/
theorem Cells.ext_from :
    ∀ {lo : Nat} {m m' : Cells}, Cells.wfFrom lo m = true → Cells.wfFrom lo m' = true →
      (∀ a, Cells.read m a = Cells.read m' a) → m = m'
  | _, [], [], _, _, _ => rfl
  | _, [], (k, b) :: rest, _, h', h => by
    rw [Cells.wfFrom_cons] at h'
    exact absurd (by simpa [Cells.read] using (h k).symm) h'.2.1
  | _, (k, b) :: rest, [], h', _, h => by
    rw [Cells.wfFrom_cons] at h'
    exact absurd (by simpa [Cells.read] using h k) h'.2.1
  | lo, (k, b) :: rest, (k', b') :: rest', hm, hm', h => by
    rw [Cells.wfFrom_cons] at hm hm'
    have hkk : k = k' := by
      by_contra hne
      rcases Nat.lt_or_gt_of_ne hne with hlt | hlt
      · have h1 := h k
        have h2 : Cells.read ((k', b') :: rest') k = 0#8 := by
          have : ¬ k' = k := by omega
          simp only [Cells.read, this, if_false]
          exact Cells.read_eq_zero_of_lt hm'.2.2 (by omega)
        rw [h2] at h1
        exact hm.2.1 (by simpa [Cells.read] using h1)
      · have h1 := h k'
        have h2 : Cells.read ((k, b) :: rest) k' = 0#8 := by
          have : ¬ k = k' := by omega
          simp only [Cells.read, this, if_false]
          exact Cells.read_eq_zero_of_lt hm.2.2 (by omega)
        rw [h2] at h1
        exact hm'.2.1 (by simpa [Cells.read] using h1.symm)
    subst hkk
    have hbb : b = b' := by simpa [Cells.read] using h k
    subst hbb
    have hrest : rest = rest' := by
      refine Cells.ext_from hm.2.2 hm'.2.2 fun a => ?_
      by_cases ha : k = a
      · subst ha
        rw [Cells.read_eq_zero_of_lt hm.2.2 (by omega), Cells.read_eq_zero_of_lt hm'.2.2 (by omega)]
      · simpa [Cells.read, ha] using h a
    rw [hrest]

theorem Cells.ext {m m' : Cells} (h : Cells.wf m = true) (h' : Cells.wf m' = true)
    (hr : ∀ a, Cells.read m a = Cells.read m' a) : m = m' := Cells.ext_from h h' hr

/-! ## Byte sequences -/

theorem Cells.wf_writeAll : ∀ {vs : List Byte} {m : Cells} {a : Nat}, Cells.wf m = true →
    Cells.wf (Cells.writeAll m a vs) = true
  | [], _, _, h => h
  | _ :: vs, _, _, h => Cells.wf_writeAll (vs := vs) (Cells.wf_write h)

theorem Cells.below_writeAll {n : Nat} : ∀ {vs : List Byte} {m : Cells} {a : Nat}, a + vs.length ≤ n →
    Cells.below n m = true → Cells.below n (Cells.writeAll m a vs) = true
  | [], _, _, _, h => h
  | v :: vs, m, a, ha, h => by
    simp only [List.length_cons] at ha
    exact Cells.below_writeAll (vs := vs) (by omega) (Cells.below_write (by omega) h)

/-- What every byte reads after a byte sequence was written. -/
theorem Cells.read_writeAll : ∀ {vs : List Byte} {m : Cells} {a b : Nat}, Cells.wf m = true →
    Cells.read (Cells.writeAll m a vs) b =
      if a ≤ b ∧ b < a + vs.length then vs.getD (b - a) 0#8 else Cells.read m b
  | [], m, a, b, _ => by
    have : ¬ (a ≤ b ∧ b < a) := by omega
    simp [Cells.writeAll, this]
  | v :: vs, m, a, b, h => by
    rw [Cells.writeAll, Cells.read_writeAll (vs := vs) (Cells.wf_write h), Cells.read_write (lo := 0) h]
    simp only [List.length_cons]
    by_cases hab : b = a
    · subst hab
      have h1 : ¬ (b + 1 ≤ b ∧ b < b + 1 + vs.length) := by omega
      have h2 : b ≤ b ∧ b < b + (vs.length + 1) := by omega
      simp
    · by_cases h1 : a + 1 ≤ b ∧ b < a + 1 + vs.length
      · have h2 : a ≤ b ∧ b < a + (vs.length + 1) := by omega
        have h3 : b - a = (b - (a + 1)) + 1 := by omega
        rw [if_pos h1, if_pos h2, h3, List.getD_cons_succ]
      · have h2 : ¬ (a ≤ b ∧ b < a + (vs.length + 1)) := by omega
        rw [if_neg h1, if_neg h2, if_neg hab]

@[simp] theorem Cells.length_readAll (m : Cells) (a n : Nat) : (Cells.readAll m a n).length = n := by
  simp [Cells.readAll]

@[simp] theorem Cells.getElem_readAll (m : Cells) (a n j : Nat) (h : j < (Cells.readAll m a n).length) :
    (Cells.readAll m a n)[j] = Cells.read m (a + j) := by
  simp [Cells.readAll]

theorem Cells.readAll_zero (m : Cells) (a : Nat) : Cells.readAll m a 0 = [] := rfl

/-- A range splits at any point. -/
theorem Cells.readAll_add (m : Cells) (a n k : Nat) :
    Cells.readAll m a (n + k) = Cells.readAll m a n ++ Cells.readAll m (a + n) k := by
  simp [Cells.readAll, List.range_add, Nat.add_assoc]

theorem Cells.take_readAll (m : Cells) (a n k : Nat) (h : k ≤ n) :
    (Cells.readAll m a n).take k = Cells.readAll m a k := by
  obtain ⟨d, rfl⟩ := Nat.exists_eq_add_of_le h
  rw [Cells.readAll_add, List.take_left' (by simp)]

theorem Cells.drop_readAll (m : Cells) (a n k : Nat) :
    (Cells.readAll m a n).drop k = Cells.readAll m (a + k) (n - k) := by
  apply List.ext_getElem
  · simp
  · intro j h1 h2
    simp [Nat.add_assoc]

/-- Equal bytes give equal ranges. -/
theorem Cells.readAll_congr {m m' : Cells} {a n : Nat}
    (h : ∀ b, a ≤ b → b < a + n → Cells.read m b = Cells.read m' b) :
    Cells.readAll m a n = Cells.readAll m' a n := by
  apply List.ext_getElem
  · simp
  · intro j h1 h2
    simp only [Cells.length_readAll] at h1
    simp [h (a + j) (by omega) (by omega)]

/-- A range read back after it was written. -/
theorem Cells.readAll_writeAll {m : Cells} {a : Nat} {vs : List Byte} (h : Cells.wf m = true) :
    Cells.readAll (Cells.writeAll m a vs) a vs.length = vs := by
  apply List.ext_getElem
  · simp
  · intro j h1 h2
    rw [Cells.getElem_readAll, Cells.read_writeAll h]
    simp [h2]

/-- Writing the same bytes twice is writing them once. -/
theorem Cells.writeAll_idem {m : Cells} {a : Nat} {vs : List Byte} (h : Cells.wf m = true) :
    Cells.writeAll (Cells.writeAll m a vs) a vs = Cells.writeAll m a vs := by
  refine Cells.ext (Cells.wf_writeAll (Cells.wf_writeAll h)) (Cells.wf_writeAll h) fun b => ?_
  rw [Cells.read_writeAll (Cells.wf_writeAll h), Cells.read_writeAll h]
  split <;> rfl

end Sys2Proof.Machine
end

