-- ==== Sys2Proof/Laws/State.lean ====
section
/-! SUPPORT. One lemma per field per shared update of the state, so that no proof unfolds a record update. -/

namespace Sys2Proof.Machine

variable (s : State)

/-! ## complete() (R309) -/

@[simp] theorem complete_busy : (complete s).busy = false := rfl
@[simp] theorem complete_done : (complete s).done = true := rfl
@[simp] theorem complete_err : (complete s).err = s.err := rfl
@[simp] theorem complete_keyValid : (complete s).keyValid = s.keyValid := rfl
@[simp] theorem complete_ivFresh : (complete s).ivFresh = s.ivFresh := rfl
@[simp] theorem complete_ecode : (complete s).ecode = s.ecode := rfl
@[simp] theorem complete_doneIe : (complete s).doneIe = s.doneIe := rfl
@[simp] theorem complete_klen : (complete s).klen = s.klen := rfl
@[simp] theorem complete_len : (complete s).len = s.len := rfl
@[simp] theorem complete_key : (complete s).key = s.key := rfl
@[simp] theorem complete_iv : (complete s).iv = s.iv := rfl
@[simp] theorem complete_buf : (complete s).buf = s.buf := rfl
@[simp] theorem complete_chain : (complete s).chain = s.chain := rfl
@[simp] theorem complete_cur : (complete s).cur = s.cur := rfl
@[simp] theorem complete_phase : (complete s).phase = .idle := rfl
@[simp] theorem complete_bptr : (complete s).bptr = s.bptr := rfl
@[simp] theorem complete_ivptr : (complete s).ivptr = s.ivptr := rfl
@[simp] theorem complete_rngPend : (complete s).rngPend = s.rngPend := rfl
@[simp] theorem complete_cfg : (complete s).cfg = s.cfg := rfl
@[simp] theorem complete_inputs : (complete s).inputs = s.inputs := rfl
@[simp] theorem complete_answers : (complete s).answers = s.answers := rfl
@[simp] theorem complete_requests : (complete s).requests = s.requests := rfl
@[simp] theorem complete_reply : (complete s).reply = s.reply := rfl

/-! ## end-of-call clear (R311) -/

@[simp] theorem endOfCallClear_busy : (endOfCallClear s).busy = s.busy := rfl
@[simp] theorem endOfCallClear_done : (endOfCallClear s).done = s.done := rfl
@[simp] theorem endOfCallClear_err : (endOfCallClear s).err = s.err := rfl
@[simp] theorem endOfCallClear_keyValid : (endOfCallClear s).keyValid = false := rfl
@[simp] theorem endOfCallClear_ivFresh : (endOfCallClear s).ivFresh = false := rfl
@[simp] theorem endOfCallClear_ecode : (endOfCallClear s).ecode = s.ecode := rfl
@[simp] theorem endOfCallClear_doneIe : (endOfCallClear s).doneIe = s.doneIe := rfl
@[simp] theorem endOfCallClear_klen : (endOfCallClear s).klen = s.klen := rfl
@[simp] theorem endOfCallClear_len : (endOfCallClear s).len = s.len := rfl
@[simp] theorem endOfCallClear_key : (endOfCallClear s).key = zeroKey := rfl
@[simp] theorem endOfCallClear_iv : (endOfCallClear s).iv = s.iv := rfl
@[simp] theorem endOfCallClear_buf : (endOfCallClear s).buf = s.buf := rfl
@[simp] theorem endOfCallClear_chain : (endOfCallClear s).chain = zeroBlock := rfl
@[simp] theorem endOfCallClear_cur : (endOfCallClear s).cur = s.cur := rfl
@[simp] theorem endOfCallClear_phase : (endOfCallClear s).phase = s.phase := rfl
@[simp] theorem endOfCallClear_bptr : (endOfCallClear s).bptr = s.bptr := rfl
@[simp] theorem endOfCallClear_ivptr : (endOfCallClear s).ivptr = s.ivptr := rfl
@[simp] theorem endOfCallClear_rngPend : (endOfCallClear s).rngPend = s.rngPend := rfl
@[simp] theorem endOfCallClear_cfg : (endOfCallClear s).cfg = s.cfg := rfl
@[simp] theorem endOfCallClear_inputs : (endOfCallClear s).inputs = s.inputs := rfl
@[simp] theorem endOfCallClear_answers : (endOfCallClear s).answers = s.answers := rfl
@[simp] theorem endOfCallClear_requests : (endOfCallClear s).requests = s.requests := rfl
@[simp] theorem endOfCallClear_reply : (endOfCallClear s).reply = s.reply := rfl

/-! ## transform completion (R159) -/

@[simp] theorem transformDone_busy : (transformDone s).busy = false := rfl
@[simp] theorem transformDone_done : (transformDone s).done = true := rfl
@[simp] theorem transformDone_err : (transformDone s).err = s.err := rfl
@[simp] theorem transformDone_keyValid : (transformDone s).keyValid = false := rfl
@[simp] theorem transformDone_ivFresh : (transformDone s).ivFresh = false := rfl
@[simp] theorem transformDone_ecode : (transformDone s).ecode = s.ecode := rfl
@[simp] theorem transformDone_doneIe : (transformDone s).doneIe = s.doneIe := rfl
@[simp] theorem transformDone_klen : (transformDone s).klen = s.klen := rfl
@[simp] theorem transformDone_len : (transformDone s).len = s.len := rfl
@[simp] theorem transformDone_key : (transformDone s).key = zeroKey := rfl
@[simp] theorem transformDone_iv : (transformDone s).iv = s.iv := rfl
@[simp] theorem transformDone_buf : (transformDone s).buf = s.buf := rfl
@[simp] theorem transformDone_chain : (transformDone s).chain = zeroBlock := rfl
@[simp] theorem transformDone_cur : (transformDone s).cur = s.cur := rfl
@[simp] theorem transformDone_phase : (transformDone s).phase = .idle := rfl
@[simp] theorem transformDone_bptr : (transformDone s).bptr = s.bptr := rfl
@[simp] theorem transformDone_ivptr : (transformDone s).ivptr = s.ivptr := rfl
@[simp] theorem transformDone_rngPend : (transformDone s).rngPend = s.rngPend := rfl
@[simp] theorem transformDone_cfg : (transformDone s).cfg = s.cfg := rfl
@[simp] theorem transformDone_inputs : (transformDone s).inputs = s.inputs := rfl
@[simp] theorem transformDone_answers : (transformDone s).answers = s.answers := rfl
@[simp] theorem transformDone_requests : (transformDone s).requests = s.requests := rfl
@[simp] theorem transformDone_reply : (transformDone s).reply = s.reply := rfl

/-! ## error completion (R310) -/

@[simp] theorem raiseErr_busy (c : ECode) : (raiseErr c s).busy = false := by
  unfold raiseErr endOfCallClear; split <;> rfl
@[simp] theorem raiseErr_done (c : ECode) : (raiseErr c s).done = true := by
  unfold raiseErr endOfCallClear; split <;> rfl
@[simp] theorem raiseErr_err (c : ECode) : (raiseErr c s).err = true := by
  unfold raiseErr endOfCallClear; split <;> rfl
@[simp] theorem raiseErr_keyValid (c : ECode) : (raiseErr c s).keyValid = false := by
  unfold raiseErr endOfCallClear; split <;> rfl
@[simp] theorem raiseErr_ivFresh (c : ECode) : (raiseErr c s).ivFresh = false := by
  unfold raiseErr endOfCallClear; split <;> rfl
@[simp] theorem raiseErr_ecode (c : ECode) : (raiseErr c s).ecode = c := by
  unfold raiseErr endOfCallClear; split <;> rfl
@[simp] theorem raiseErr_doneIe (c : ECode) : (raiseErr c s).doneIe = s.doneIe := by
  unfold raiseErr endOfCallClear; split <;> rfl
@[simp] theorem raiseErr_klen (c : ECode) : (raiseErr c s).klen = s.klen := by
  unfold raiseErr endOfCallClear; split <;> rfl
@[simp] theorem raiseErr_len (c : ECode) : (raiseErr c s).len = s.len := by
  unfold raiseErr endOfCallClear; split <;> rfl
@[simp] theorem raiseErr_key (c : ECode) : (raiseErr c s).key = zeroKey := by
  unfold raiseErr endOfCallClear; split <;> rfl
@[simp] theorem raiseErr_iv (c : ECode) : (raiseErr c s).iv = if c = .randomSource then zeroBlock else s.iv := by
  unfold raiseErr endOfCallClear; split <;> simp_all
@[simp] theorem raiseErr_buf (c : ECode) : (raiseErr c s).buf = s.buf := by
  unfold raiseErr endOfCallClear; split <;> rfl
@[simp] theorem raiseErr_chain (c : ECode) : (raiseErr c s).chain = zeroBlock := by
  unfold raiseErr endOfCallClear; split <;> rfl
@[simp] theorem raiseErr_cur (c : ECode) : (raiseErr c s).cur = s.cur := by
  unfold raiseErr endOfCallClear; split <;> rfl
@[simp] theorem raiseErr_phase (c : ECode) : (raiseErr c s).phase = .idle := by
  unfold raiseErr endOfCallClear; split <;> rfl
@[simp] theorem raiseErr_bptr (c : ECode) : (raiseErr c s).bptr = s.bptr := by
  unfold raiseErr endOfCallClear; split <;> rfl
@[simp] theorem raiseErr_ivptr (c : ECode) : (raiseErr c s).ivptr = s.ivptr := by
  unfold raiseErr endOfCallClear; split <;> rfl
@[simp] theorem raiseErr_rngPend (c : ECode) : (raiseErr c s).rngPend = false := by
  unfold raiseErr endOfCallClear; split <;> rfl
@[simp] theorem raiseErr_cfg (c : ECode) : (raiseErr c s).cfg = s.cfg := by
  unfold raiseErr endOfCallClear; split <;> rfl
@[simp] theorem raiseErr_inputs (c : ECode) : (raiseErr c s).inputs = s.inputs := by
  unfold raiseErr endOfCallClear; split <;> rfl
@[simp] theorem raiseErr_answers (c : ECode) : (raiseErr c s).answers = s.answers := by
  unfold raiseErr endOfCallClear; split <;> rfl
@[simp] theorem raiseErr_requests (c : ECode) : (raiseErr c s).requests = s.requests := by
  unfold raiseErr endOfCallClear; split <;> rfl
@[simp] theorem raiseErr_reply (c : ECode) : (raiseErr c s).reply = s.reply := by
  unfold raiseErr endOfCallClear; split <;> rfl

/-! ## BufWrite (R20) -/

@[simp] theorem bufWrite_busy (off : Nat) (v : List Byte) : (bufWrite s off v).busy = s.busy := rfl
@[simp] theorem bufWrite_done (off : Nat) (v : List Byte) : (bufWrite s off v).done = s.done := rfl
@[simp] theorem bufWrite_err (off : Nat) (v : List Byte) : (bufWrite s off v).err = s.err := rfl
@[simp] theorem bufWrite_keyValid (off : Nat) (v : List Byte) : (bufWrite s off v).keyValid = s.keyValid := rfl
@[simp] theorem bufWrite_ivFresh (off : Nat) (v : List Byte) : (bufWrite s off v).ivFresh = s.ivFresh := rfl
@[simp] theorem bufWrite_ecode (off : Nat) (v : List Byte) : (bufWrite s off v).ecode = s.ecode := rfl
@[simp] theorem bufWrite_doneIe (off : Nat) (v : List Byte) : (bufWrite s off v).doneIe = s.doneIe := rfl
@[simp] theorem bufWrite_klen (off : Nat) (v : List Byte) : (bufWrite s off v).klen = s.klen := rfl
@[simp] theorem bufWrite_len (off : Nat) (v : List Byte) : (bufWrite s off v).len = s.len := rfl
@[simp] theorem bufWrite_key (off : Nat) (v : List Byte) : (bufWrite s off v).key = s.key := rfl
@[simp] theorem bufWrite_iv (off : Nat) (v : List Byte) : (bufWrite s off v).iv = s.iv := rfl
@[simp] theorem bufWrite_buf (off : Nat) (v : List Byte) : (bufWrite s off v).buf = Cells.writeAll s.buf off v := rfl
@[simp] theorem bufWrite_chain (off : Nat) (v : List Byte) : (bufWrite s off v).chain = s.chain := rfl
@[simp] theorem bufWrite_cur (off : Nat) (v : List Byte) : (bufWrite s off v).cur = s.cur := rfl
@[simp] theorem bufWrite_phase (off : Nat) (v : List Byte) : (bufWrite s off v).phase = s.phase := rfl
@[simp] theorem bufWrite_bptr (off : Nat) (v : List Byte) : (bufWrite s off v).bptr = s.bptr := rfl
@[simp] theorem bufWrite_ivptr (off : Nat) (v : List Byte) : (bufWrite s off v).ivptr = s.ivptr := rfl
@[simp] theorem bufWrite_rngPend (off : Nat) (v : List Byte) : (bufWrite s off v).rngPend = s.rngPend := rfl
@[simp] theorem bufWrite_cfg (off : Nat) (v : List Byte) : (bufWrite s off v).cfg = s.cfg := rfl
@[simp] theorem bufWrite_inputs (off : Nat) (v : List Byte) : (bufWrite s off v).inputs = s.inputs := rfl
@[simp] theorem bufWrite_answers (off : Nat) (v : List Byte) : (bufWrite s off v).answers = s.answers := rfl
@[simp] theorem bufWrite_requests (off : Nat) (v : List Byte) : (bufWrite s off v).requests = s.requests := rfl
@[simp] theorem bufWrite_reply (off : Nat) (v : List Byte) : (bufWrite s off v).reply = s.reply := rfl

/-! ## GENIV's request step (R205) -/

@[simp] theorem requestByte_busy : (requestByte s).busy = s.busy := rfl
@[simp] theorem requestByte_done : (requestByte s).done = s.done := rfl
@[simp] theorem requestByte_err : (requestByte s).err = s.err := rfl
@[simp] theorem requestByte_keyValid : (requestByte s).keyValid = s.keyValid := rfl
@[simp] theorem requestByte_ivFresh : (requestByte s).ivFresh = s.ivFresh := rfl
@[simp] theorem requestByte_ecode : (requestByte s).ecode = s.ecode := rfl
@[simp] theorem requestByte_doneIe : (requestByte s).doneIe = s.doneIe := rfl
@[simp] theorem requestByte_klen : (requestByte s).klen = s.klen := rfl
@[simp] theorem requestByte_len : (requestByte s).len = s.len := rfl
@[simp] theorem requestByte_key : (requestByte s).key = s.key := rfl
@[simp] theorem requestByte_iv : (requestByte s).iv = s.iv := rfl
@[simp] theorem requestByte_buf : (requestByte s).buf = s.buf := rfl
@[simp] theorem requestByte_chain : (requestByte s).chain = s.chain := rfl
@[simp] theorem requestByte_cur : (requestByte s).cur = s.cur := rfl
@[simp] theorem requestByte_phase : (requestByte s).phase = s.phase := rfl
@[simp] theorem requestByte_bptr : (requestByte s).bptr = s.bptr := rfl
@[simp] theorem requestByte_ivptr : (requestByte s).ivptr = s.ivptr := rfl
@[simp] theorem requestByte_rngPend : (requestByte s).rngPend = true := rfl
@[simp] theorem requestByte_cfg : (requestByte s).cfg = s.cfg := rfl
@[simp] theorem requestByte_inputs : (requestByte s).inputs = s.inputs := rfl
@[simp] theorem requestByte_answers : (requestByte s).answers = s.answers := rfl
@[simp] theorem requestByte_requests : (requestByte s).requests = s.requests + 1 := rfl
@[simp] theorem requestByte_reply : (requestByte s).reply = s.reply := rfl

/-! ## ZEROIZE's step (R231) -/

@[simp] theorem zeroizeCheck_busy : (zeroizeCheck s).busy = false := rfl
@[simp] theorem zeroizeCheck_done : (zeroizeCheck s).done = true := rfl
@[simp] theorem zeroizeCheck_err : (zeroizeCheck s).err = s.err := rfl
@[simp] theorem zeroizeCheck_keyValid : (zeroizeCheck s).keyValid = false := rfl
@[simp] theorem zeroizeCheck_ivFresh : (zeroizeCheck s).ivFresh = false := rfl
@[simp] theorem zeroizeCheck_ecode : (zeroizeCheck s).ecode = s.ecode := rfl
@[simp] theorem zeroizeCheck_doneIe : (zeroizeCheck s).doneIe = s.doneIe := rfl
@[simp] theorem zeroizeCheck_klen : (zeroizeCheck s).klen = 0#32 := rfl
@[simp] theorem zeroizeCheck_len : (zeroizeCheck s).len = 0#32 := rfl
@[simp] theorem zeroizeCheck_key : (zeroizeCheck s).key = zeroKey := rfl
@[simp] theorem zeroizeCheck_iv : (zeroizeCheck s).iv = zeroBlock := rfl
@[simp] theorem zeroizeCheck_buf : (zeroizeCheck s).buf = [] := rfl
@[simp] theorem zeroizeCheck_chain : (zeroizeCheck s).chain = zeroBlock := rfl
@[simp] theorem zeroizeCheck_cur : (zeroizeCheck s).cur = s.cur := rfl
@[simp] theorem zeroizeCheck_phase : (zeroizeCheck s).phase = .idle := rfl
@[simp] theorem zeroizeCheck_bptr : (zeroizeCheck s).bptr = s.bptr := rfl
@[simp] theorem zeroizeCheck_ivptr : (zeroizeCheck s).ivptr = s.ivptr := rfl
@[simp] theorem zeroizeCheck_rngPend : (zeroizeCheck s).rngPend = s.rngPend := rfl
@[simp] theorem zeroizeCheck_cfg : (zeroizeCheck s).cfg = s.cfg := rfl
@[simp] theorem zeroizeCheck_inputs : (zeroizeCheck s).inputs = s.inputs := rfl
@[simp] theorem zeroizeCheck_answers : (zeroizeCheck s).answers = s.answers := rfl
@[simp] theorem zeroizeCheck_requests : (zeroizeCheck s).requests = s.requests := rfl
@[simp] theorem zeroizeCheck_reply : (zeroizeCheck s).reply = s.reply := rfl

/-! ## reset (R340, R341) -/

@[simp] theorem resetBlock_busy : (resetBlock s).busy = false := rfl
@[simp] theorem resetBlock_done : (resetBlock s).done = false := rfl
@[simp] theorem resetBlock_err : (resetBlock s).err = false := rfl
@[simp] theorem resetBlock_keyValid : (resetBlock s).keyValid = false := rfl
@[simp] theorem resetBlock_ivFresh : (resetBlock s).ivFresh = false := rfl
@[simp] theorem resetBlock_ecode : (resetBlock s).ecode = .none := rfl
@[simp] theorem resetBlock_doneIe : (resetBlock s).doneIe = false := rfl
@[simp] theorem resetBlock_klen : (resetBlock s).klen = 0#32 := rfl
@[simp] theorem resetBlock_len : (resetBlock s).len = 0#32 := rfl
@[simp] theorem resetBlock_key : (resetBlock s).key = zeroKey := rfl
@[simp] theorem resetBlock_iv : (resetBlock s).iv = zeroBlock := rfl
@[simp] theorem resetBlock_buf : (resetBlock s).buf = [] := rfl
@[simp] theorem resetBlock_chain : (resetBlock s).chain = zeroBlock := rfl
@[simp] theorem resetBlock_cur : (resetBlock s).cur = 0#32 := rfl
@[simp] theorem resetBlock_phase : (resetBlock s).phase = .idle := rfl
@[simp] theorem resetBlock_bptr : (resetBlock s).bptr = 0 := rfl
@[simp] theorem resetBlock_ivptr : (resetBlock s).ivptr = 0 := rfl
@[simp] theorem resetBlock_rngPend : (resetBlock s).rngPend = false := rfl
@[simp] theorem resetBlock_cfg : (resetBlock s).cfg = s.cfg := rfl
@[simp] theorem resetBlock_inputs : (resetBlock s).inputs = s.inputs := rfl
@[simp] theorem resetBlock_answers : (resetBlock s).answers = if s.rngPend then s.answers.tail else s.answers := rfl
@[simp] theorem resetBlock_requests : (resetBlock s).requests = s.requests := rfl
@[simp] theorem resetBlock_reply : (resetBlock s).reply = s.reply := rfl

/-! ## Command acceptance (R36) -/

/-- Acceptance of CLRSTAT's word only clears DONE, ERR and ECODE. -/
theorem accept_zero : accept 0x00000000#32 s = { s with done := false, err := false, ecode := .none } := rfl

/-- Acceptance of any other word starts a command. -/
theorem accept_nonzero (w : Word) (h : w ≠ 0x00000000#32) :
    accept w s =
      { s with
        done := false, err := false, ecode := .none
        cur := w, phase := .check, bptr := 0, ivptr := 0, busy := true } := by
  simp [accept, h]

@[simp] theorem accept_keyValid (w : Word) : (accept w s).keyValid = s.keyValid := by
  unfold accept; split <;> rfl
@[simp] theorem accept_ivFresh (w : Word) : (accept w s).ivFresh = s.ivFresh := by
  unfold accept; split <;> rfl
@[simp] theorem accept_doneIe (w : Word) : (accept w s).doneIe = s.doneIe := by
  unfold accept; split <;> rfl
@[simp] theorem accept_klen (w : Word) : (accept w s).klen = s.klen := by
  unfold accept; split <;> rfl
@[simp] theorem accept_len (w : Word) : (accept w s).len = s.len := by
  unfold accept; split <;> rfl
@[simp] theorem accept_key (w : Word) : (accept w s).key = s.key := by
  unfold accept; split <;> rfl
@[simp] theorem accept_iv (w : Word) : (accept w s).iv = s.iv := by
  unfold accept; split <;> rfl
@[simp] theorem accept_buf (w : Word) : (accept w s).buf = s.buf := by
  unfold accept; split <;> rfl
@[simp] theorem accept_chain (w : Word) : (accept w s).chain = s.chain := by
  unfold accept; split <;> rfl
@[simp] theorem accept_rngPend (w : Word) : (accept w s).rngPend = s.rngPend := by
  unfold accept; split <;> rfl
@[simp] theorem accept_cfg (w : Word) : (accept w s).cfg = s.cfg := by
  unfold accept; split <;> rfl
@[simp] theorem accept_inputs (w : Word) : (accept w s).inputs = s.inputs := by
  unfold accept; split <;> rfl
@[simp] theorem accept_answers (w : Word) : (accept w s).answers = s.answers := by
  unfold accept; split <;> rfl
@[simp] theorem accept_requests (w : Word) : (accept w s).requests = s.requests := by
  unfold accept; split <;> rfl
@[simp] theorem accept_reply (w : Word) : (accept w s).reply = s.reply := by
  unfold accept; split <;> rfl
@[simp] theorem accept_done (w : Word) : (accept w s).done = false := by
  unfold accept; split <;> rfl
@[simp] theorem accept_err (w : Word) : (accept w s).err = false := by
  unfold accept; split <;> rfl
@[simp] theorem accept_ecode (w : Word) : (accept w s).ecode = .none := by
  unfold accept; split <;> rfl

end Sys2Proof.Machine
end

