-- ==== Sys2Proof/Laws/Commands.lean ====
section
/-! SUPPORT. What each shared operation of a command can do, said once: the frame of a command's steps, the block step,
the block's own turn, the random byte source's answers, and runs of several steps. -/

namespace Sys2Proof.Machine

variable {s t : State}

/-! ## Command words -/

/-- A word is its RSVD and CMD fields (R120). -/
theorem word_of_fields (w : Word) : w = (rsvdField w).setWidth 32 <<< 4 ||| (cmdField w).setWidth 32 := by
  apply BitVec.eq_of_getLsbD_eq
  intro i hi
  simp only [rsvdField, cmdField, BitVec.getLsbD_or, BitVec.getLsbD_shiftLeft, BitVec.getLsbD_setWidth,
    BitVec.getLsbD_extractLsb', hi, decide_true, Bool.true_and]
  by_cases h : i < 4
  · simp [h]
  · have h2 : 4 + (i - 4) = i := by omega
    have h3 : i - 4 < 28 := by omega
    have h4 : i - 4 < 32 := by omega
    simp [h, h2, h3, h4]

theorem decodeCmd_eq_none (c : BitVec 4) : decodeCmd c = none ↔ c = 0x3#4 ∨ 0x9#4 ≤ c := by
  revert c; decide

theorem encode_transformOf_ne_zero (m : Mode) (d : Dir) : encode (transformOf m d) ≠ 0#32 := by
  cases m <;> cases d <;> decide

/-! ## The steps of one command (R51) -/

theorem commandStep_idle {i : Instr} {check run : State → Result} (hb : s.busy = false) :
    commandStep i check run s = .next (accept (encode i) s) := by simp [commandStep, hb]

theorem commandStep_check {i : Instr} {check run : State → Result} (hb : s.busy = true) (hp : s.phase = .check) :
    commandStep i check run s = check s := by simp [commandStep, hb, hp]

theorem commandStep_run {i : Instr} {check run : State → Result} (hb : s.busy = true) (hp : s.phase = .run) :
    commandStep i check run s = run s := by simp [commandStep, hb, hp]

/-- While BUSY = 0 exec is the command's acceptance. -/
theorem exec_idle (i : Instr) (hb : s.busy = false) : exec i s = .next (accept (encode i) s) := by
  cases i <;> simp [exec, execClrstat, execInit, execGeniv, execEncCfb, execDecCfb, execEncCbc, execDecCbc,
    execZeroize, commandStep, hb]

theorem exec_transform_check (m : Mode) (d : Dir) (hb : s.busy = true) (hp : s.phase = .check) :
    exec (transformOf m d) s = .next (transformStart m d s) := by
  cases m <;> cases d <;>
    simp [transformOf, exec, execEncCfb, execDecCfb, execEncCbc, execDecCbc, commandStep, hb, hp]

theorem exec_encCfb_run (hb : s.busy = true) (hp : s.phase = .run) :
    exec .encCfb s = blockStep (segmentLen s) (encCfbBlock s) s := by
  simp [exec, execEncCfb, commandStep, hb, hp]

theorem exec_decCfb_run (hb : s.busy = true) (hp : s.phase = .run) :
    exec .decCfb s = blockStep (segmentLen s) (decCfbBlock s) s := by
  simp [exec, execDecCfb, commandStep, hb, hp]

theorem exec_encCbc_run (hb : s.busy = true) (hp : s.phase = .run) :
    exec .encCbc s = blockStep 16 (encCbcBlock s) s := by
  simp [exec, execEncCbc, commandStep, hb, hp]

theorem exec_decCbc_run (hb : s.busy = true) (hp : s.phase = .run) :
    exec .decCbc s = blockStep 16 (decCbcBlock s) s := by
  simp [exec, execDecCbc, commandStep, hb, hp]

/-! ## Start steps and GENIV's steps (R158, R205) -/

/-- Everything a transform's start step can be: an error, or the start with a valid key, a legal length and, to encrypt,
a fresh IV. -/
theorem transformStart_cases (m : Mode) (d : Dir) (s : State) :
    (∃ c, c ≠ .none ∧ c ≠ .randomSource ∧ transformStart m d s = raiseErr c s) ∨
    (s.keyValid = true ∧ s.len.toNat ≤ bufBytes s.cfg ∧ (m = .cbc → s.len.toNat % 16 = 0) ∧
      (d = .encrypt → s.ivFresh = true) ∧
      (s.len.toNat = 0 ∧ transformStart m d s = transformDone { s with chain := s.iv, phase := .run } ∨
       s.len.toNat ≠ 0 ∧ transformStart m d s = { s with chain := s.iv, phase := .run })) := by
  by_cases h1 : s.keyValid = false
  · exact .inl ⟨.noKey, by decide, by decide, by simp only [transformStart, h1]; rfl⟩
  by_cases h2 : bufBytes s.cfg < s.len.toNat
  · exact .inl ⟨.lenRange, by decide, by decide, by unfold transformStart; rw [if_neg h1, if_pos h2]⟩
  by_cases h3 : m = .cbc ∧ s.len.toNat % 16 ≠ 0
  · exact .inl ⟨.malformed, by decide, by decide, by
      unfold transformStart; rw [if_neg h1, if_neg h2, if_pos h3]⟩
  by_cases h4 : d = .encrypt ∧ s.ivFresh = false
  · exact .inl ⟨.ivStale, by decide, by decide, by
      unfold transformStart; rw [if_neg h1, if_neg h2, if_neg h3, if_pos h4]⟩
  refine .inr ⟨by simpa using h1, by omega, fun hm => ?_, fun hd => ?_, ?_⟩
  · by_contra hl; exact h3 ⟨hm, hl⟩
  · by_contra hf; exact h4 ⟨hd, by simpa using hf⟩
  · unfold transformStart
    rw [if_neg h1, if_neg h2, if_neg h3, if_neg h4]
    by_cases h5 : s.len.toNat = 0
    · exact .inl ⟨h5, by rw [if_pos h5]⟩
    · exact .inr ⟨h5, by rw [if_neg h5]⟩

/-- Everything a step of GENIV in PHASE RUN can be. -/
theorem genivRun_cases (s : State) :
    (s.rngPend = false ∧ 16 ≤ s.ivptr ∧ genivRun s = s) ∨
    (s.rngPend = false ∧ s.ivptr < 16 ∧ genivRun s = requestByte s) ∨
    (s.rngPend = true ∧ ∃ b, nextAnswer s = .byte b ∧ s.ivptr ≠ 15 ∧ genivRun s = { s with
      answers := s.answers.tail, rngPend := false, iv := s.iv.setIfInBounds s.ivptr b, ivptr := s.ivptr + 1 }) ∨
    (s.rngPend = true ∧ ∃ b, nextAnswer s = .byte b ∧ s.ivptr = 15 ∧ genivRun s = { s with
      answers := s.answers.tail, rngPend := false, iv := s.iv.setIfInBounds 15 b, ivptr := 16
      ivFresh := true, busy := false, done := true, phase := .idle }) ∨
    (s.rngPend = true ∧ nextAnswer s = .fail ∧
      genivRun s = raiseErr .randomSource { s with answers := s.answers.tail, rngPend := false, iv := zeroBlock }) := by
  unfold genivRun
  by_cases hr : s.rngPend = true
  · rw [if_pos hr]
    unfold respond
    cases ha : nextAnswer s with
    | byte b =>
      by_cases h15 : s.ivptr = 15
      · exact .inr (.inr (.inr (.inl ⟨hr, b, rfl, h15, by simp [takeByte, h15, complete]⟩)))
      · exact .inr (.inr (.inl ⟨hr, b, rfl, h15, by simp [takeByte, h15]⟩))
    | fail => exact .inr (.inr (.inr (.inr ⟨hr, rfl, rfl⟩)))
  · rw [if_neg hr]
    have hr : s.rngPend = false := by simpa using hr
    by_cases hi : s.ivptr < 16
    · exact .inr (.inl ⟨hr, hi, by rw [if_pos hi]⟩)
    · exact .inl ⟨hr, by omega, by rw [if_neg hi]⟩

/-! ## The block step (R159, R165) -/

theorem finishBlock_of_not_last (out : List Byte) (c : Block) (h : s.bptr + 1 ≠ blockCount s) :
    finishBlock out c s =
      { s with buf := Cells.writeAll s.buf (16 * s.bptr) out, chain := c, bptr := s.bptr + 1 } := by
  simp [finishBlock, bufWrite, h]

theorem finishBlock_of_last (out : List Byte) (c : Block) (h : s.bptr + 1 = blockCount s) :
    finishBlock out c s =
      { s with
        buf := Cells.writeAll s.buf (16 * s.bptr) out, bptr := s.bptr + 1, key := zeroKey, keyValid := false
        ivFresh := false, chain := zeroBlock, busy := false, done := true, phase := .idle } := by
  simp [finishBlock, bufWrite, h, transformDone, complete, endOfCallClear]

@[simp] theorem finishBlock_buf (out : List Byte) (c : Block) :
    (finishBlock out c s).buf = Cells.writeAll s.buf (16 * s.bptr) out := by
  unfold finishBlock; split <;> rfl

theorem blockStep_of_inside {r : Nat} {f : List Byte → List Byte × Block} (h : s.bptr < blockCount s)
    (hr : 16 * s.bptr + r ≤ bufBytes s.cfg) :
    blockStep r f s =
      .next (finishBlock (f (Cells.readAll s.buf (16 * s.bptr) r)).1 (f (Cells.readAll s.buf (16 * s.bptr) r)).2 s) := by
  simp [blockStep, h, bufRead, hr]

theorem blockStep_of_outside {r : Nat} {f : List Byte → List Byte × Block} (h : s.bptr < blockCount s)
    (hr : bufBytes s.cfg < 16 * s.bptr + r) : blockStep r f s = .fault .bufferRange := by
  have : ¬ 16 * s.bptr + r ≤ bufBytes s.cfg := by omega
  simp [blockStep, h, bufRead, this]

/-- The segment of the next block lies inside LEN and BUF, and only the last one is short (R126, R156). -/
theorem segmentLen_bounds (h : s.bptr < blockCount s) (hl : s.len.toNat ≤ bufBytes s.cfg) :
    16 * s.bptr + segmentLen s ≤ bufBytes s.cfg ∧ 0 < segmentLen s ∧ segmentLen s ≤ 16 ∧
      16 * s.bptr + segmentLen s = min (16 * s.bptr + 16) s.len.toNat ∧
      (s.bptr + 1 < blockCount s → segmentLen s = 16) := by
  unfold segmentLen blockCount ceilDiv16 at *; omega

/-- In a transform of whole blocks every segment is a full block. -/
theorem segmentLen_of_dvd (h : s.bptr < blockCount s) (hd : s.len.toNat % 16 = 0) : segmentLen s = 16 := by
  unfold segmentLen blockCount ceilDiv16 at *; omega

theorem length_encCfbBlock (x : List Byte) (hx : x.length = segmentLen s) : (encCfbBlock s x).1.length = x.length := by
  have : segmentLen s ≤ 16 := Nat.min_le_left _ _
  simp [encCfbBlock]; omega

theorem length_decCfbBlock (x : List Byte) (hx : x.length = segmentLen s) : (decCfbBlock s x).1.length = x.length := by
  have : segmentLen s ≤ 16 := Nat.min_le_left _ _
  simp [decCfbBlock]; omega

theorem length_encCbcBlock (x : List Byte) : (encCbcBlock s x).1.length = 16 := by simp [encCbcBlock]

theorem length_decCbcBlock (x : List Byte) : (decCbcBlock s x).1.length = 16 := by simp [decCbcBlock]

/-- A block step that goes on either has no block left or finishes block BPTR inside BUF. -/
theorem blockStep_next {r : Nat} {f : List Byte → List Byte × Block}
    (hf : ∀ x, x.length = r → (f x).1.length = r) (h : blockStep r f s = .next t) :
    t = s ∨ (s.bptr < blockCount s ∧ 16 * s.bptr + r ≤ bufBytes s.cfg ∧
      ∃ out c, out.length = r ∧ t = finishBlock out c s) := by
  by_cases hn : s.bptr < blockCount s
  · by_cases hr : 16 * s.bptr + r ≤ bufBytes s.cfg
    · rw [blockStep_of_inside hn hr] at h
      injection h with h
      exact .inr ⟨hn, hr, _, _, hf _ (by simp), h.symm⟩
    · rw [blockStep_of_outside hn (by omega)] at h; injection h
  · left; simpa [blockStep, hn] using h.symm

/-! ## One turn of the block (R21, R50) -/

/-- The segment a transform's block step reads and writes: whole blocks for CBC, `segmentLen` for CFB. -/
theorem exec_transform_next {m : Mode} {d : Dir} (hb : s.busy = true) (hp : s.phase = .run)
    (h : exec (transformOf m d) s = .next t) :
    t = s ∨ (s.bptr < blockCount s ∧ ∃ out c, 16 * s.bptr + out.length ≤ bufBytes s.cfg ∧ t = finishBlock out c s) := by
  have key : ∀ (r : Nat) (f : List Byte → List Byte × Block), (∀ x, x.length = r → (f x).1.length = r) →
      blockStep r f s = .next t →
      t = s ∨ (s.bptr < blockCount s ∧ ∃ out c, 16 * s.bptr + out.length ≤ bufBytes s.cfg ∧ t = finishBlock out c s) := by
    intro r f hf h
    rcases blockStep_next hf h with h | ⟨h1, h2, out, c, h3, h4⟩
    · exact .inl h
    · exact .inr ⟨h1, out, c, by omega, h4⟩
  cases m <;> cases d <;> simp only [transformOf] at h
  · rw [exec_encCfb_run hb hp] at h
    exact key _ _ (fun x hx => (length_encCfbBlock x hx).trans hx) h
  · rw [exec_decCfb_run hb hp] at h
    exact key _ _ (fun x hx => (length_decCfbBlock x hx).trans hx) h
  · rw [exec_encCbc_run hb hp] at h
    exact key _ _ (fun x _ => length_encCbcBlock x) h
  · rw [exec_decCbc_run hb hp] at h
    exact key _ _ (fun x _ => length_decCbcBlock x) h

/-- Everything a transform's engine step can do, when it answers a next state. -/
theorem exec_transform_cases {m : Mode} {d : Dir} (hb : s.busy = true) (h : exec (transformOf m d) s = .next t) :
    t = s ∨ (s.phase = .check ∧ t = transformStart m d s) ∨
      (s.phase = .run ∧ s.bptr < blockCount s ∧
        ∃ out c, 16 * s.bptr + out.length ≤ bufBytes s.cfg ∧ t = finishBlock out c s) := by
  cases hp : s.phase with
  | idle =>
    left
    cases m <;> cases d <;> simp [transformOf, exec, execEncCfb, execDecCfb, execEncCbc, execDecCbc, commandStep,
      hb, hp] at h <;> exact h.symm
  | check =>
    rw [exec_transform_check m d hb hp] at h
    injection h with h
    exact .inr (.inl ⟨rfl, h.symm⟩)
  | run => exact (exec_transform_next hb hp h).imp_right fun h => .inr ⟨rfl, h⟩

/-- Everything one turn of the block can do, when it answers a next state. -/
theorem blockTurn_next (h : blockTurn s = .next t) :
    t = s ∨ (s.busy = true ∧
      ((s.phase = .check ∧
        (decodeWord s.cur = some .init ∧ t = initCheck s ∨
         decodeWord s.cur = some .geniv ∧ t = genivCheck s ∨
         (∃ m d, decodeWord s.cur = some (transformOf m d) ∧ t = transformStart m d s) ∨
         decodeWord s.cur = some .zeroize ∧ t = zeroizeCheck s ∨
         decodeWord s.cur = none ∧ t = raiseErr .badCmd s)) ∨
       (s.phase = .run ∧
        (decodeWord s.cur = some .geniv ∧ t = genivRun s ∨
         (∃ m d, decodeWord s.cur = some (transformOf m d) ∧ s.bptr < blockCount s ∧
           ∃ out c, 16 * s.bptr + out.length ≤ bufBytes s.cfg ∧ t = finishBlock out c s))))) := by
  unfold blockTurn at h
  by_cases hb : s.busy = true
  swap
  · left; simpa [hb] using h.symm
  rw [if_pos hb] at h
  cases hd : decodeWord s.cur with
  | none =>
    rw [hd] at h
    cases hp : s.phase <;> simp [reservedStep, hp] at h <;> simp_all
  | some i =>
    rw [hd] at h
    cases i with
    | clrstat => cases hp : s.phase <;> simp [exec, execClrstat, commandStep, hb, hp] at h <;> simp_all
    | init => cases hp : s.phase <;> simp [exec, execInit, commandStep, hb, hp] at h <;> simp_all
    | geniv => cases hp : s.phase <;> simp [exec, execGeniv, commandStep, hb, hp] at h <;> simp_all
    | zeroize => cases hp : s.phase <;> simp [exec, execZeroize, commandStep, hb, hp] at h <;> simp_all
    | encCfb =>
      exact (exec_transform_cases (m := .cfb) (d := .encrypt) hb h).elim .inl fun h => .inr ⟨hb, h.imp
        (fun h => ⟨h.1, .inr (.inr (.inl ⟨.cfb, .encrypt, rfl, h.2⟩))⟩) (fun h => ⟨h.1, .inr ⟨.cfb, .encrypt, rfl, h.2⟩⟩)⟩
    | decCfb =>
      exact (exec_transform_cases (m := .cfb) (d := .decrypt) hb h).elim .inl fun h => .inr ⟨hb, h.imp
        (fun h => ⟨h.1, .inr (.inr (.inl ⟨.cfb, .decrypt, rfl, h.2⟩))⟩) (fun h => ⟨h.1, .inr ⟨.cfb, .decrypt, rfl, h.2⟩⟩)⟩
    | encCbc =>
      exact (exec_transform_cases (m := .cbc) (d := .encrypt) hb h).elim .inl fun h => .inr ⟨hb, h.imp
        (fun h => ⟨h.1, .inr (.inr (.inl ⟨.cbc, .encrypt, rfl, h.2⟩))⟩) (fun h => ⟨h.1, .inr ⟨.cbc, .encrypt, rfl, h.2⟩⟩)⟩
    | decCbc =>
      exact (exec_transform_cases (m := .cbc) (d := .decrypt) hb h).elim .inl fun h => .inr ⟨hb, h.imp
        (fun h => ⟨h.1, .inr (.inr (.inl ⟨.cbc, .decrypt, rfl, h.2⟩))⟩) (fun h => ⟨h.1, .inr ⟨.cbc, .decrypt, rfl, h.2⟩⟩)⟩

/-! ## Host accesses (R81 to R90) -/

/-- A read changes the response only. -/
theorem busRead_eq (addr : Offset) (width : Width) :
    busRead addr width s = { s with reply := (busRead addr width s).reply } := by
  unfold busRead
  split
  · rfl
  · split <;> rfl

/-- What a map entry says of its offset. -/
theorem addressMap_some {c : Config} {a : Nat} {g : Target} (h : addressMap c a = some g) :
    (g = .ctrl → a = 0x008) ∧ (g = .irqen → a = 0x010) ∧ (g = .klen → a = 0x014) ∧ (g = .len → a = 0x018) ∧
    (∀ i, g = .key i → 0x020 ≤ a ∧ a < 0x040 ∧ i = (a - 0x020) / 4) ∧
    (∀ i, g = .iv i → 0x040 ≤ a ∧ a < 0x050 ∧ i = (a - 0x040) / 4) ∧
    (∀ i, g = .buf i → 0x10000 ≤ a ∧ a < 0x10000 + bufBytes c ∧ i = (a - 0x10000) / 4) := by
  unfold addressMap at h
  repeat' split at h
  all_goals (first | (injection h with h; subst h; simp_all) | simp at h)

/-- An access that reaches something is a 32-bit access at a multiple of 4. -/
theorem reach_some {c : Config} {width : Width} {addr : Offset} {g : Target} (h : reach c width addr = some g) :
    width = .word ∧ addr.toNat % 4 = 0 ∧ addressMap c addr.toNat = some g := by
  unfold reach at h
  split at h
  · rename_i hw; exact ⟨hw.1, hw.2, h⟩
  · simp at h

/-- Everything a host write can do, when it answers a next state. -/
theorem busWrite_next {addr : Offset} {width : Width} {w : Word} (h : busWrite addr width w s = .next t) :
    (∃ r, t = { s with reply := some r }) ∨
    (addr = 0x00010#17 ∧ width = .word ∧ t = { s with reply := some .writeOk, doneIe := w.getLsbD 0 }) ∨
    (s.busy = false ∧
      ((addr = 0x00008#17 ∧ width = .word ∧ ∃ v, t = accept v { s with reply := some .writeOk }) ∨
       (addr = 0x00014#17 ∧ width = .word ∧ t = { s with reply := some .writeOk, klen := w, keyValid := false }) ∨
       (addr = 0x00018#17 ∧ width = .word ∧ t = { s with reply := some .writeOk, len := w }) ∨
       (∃ i, i < 8 ∧ t = { s with reply := some .writeOk, key := putWord s.key i w, keyValid := false }) ∨
       (∃ i, i < 4 ∧ t = { s with reply := some .writeOk, iv := putWord s.iv i w, ivFresh := false }) ∨
       (∃ i, 4 * i + 4 ≤ bufBytes s.cfg ∧
         t = bufWrite { s with reply := some .writeOk } (4 * i)
           [laneByte w 0, laneByte w 1, laneByte w 2, laneByte w 3]))) := by
  unfold busWrite at h
  cases hr : reach s.cfg width addr with
  | none => rw [hr] at h; injection h with h; exact .inl ⟨_, h.symm⟩
  | some g =>
    rw [hr] at h
    obtain ⟨hw, ha, hm⟩ := reach_some hr
    have off : ∀ k : Nat, k < 0x20000 → addr.toNat = k → addr = BitVec.ofNat 17 k := by
      intro k hk e; apply BitVec.eq_of_toNat_eq; simp [e]; omega
    have hg := addressMap_some hm
    simp only at h
    split at h
    · injection h with h; exact .inl ⟨_, h.symm⟩
    · rename_i hb
      simp only [Bool.and_eq_true, Bool.not_eq_true'] at hb
      cases g with
      | id => injection h with h; exact .inl ⟨_, h.symm⟩
      | cap => injection h with h; exact .inl ⟨_, h.symm⟩
      | status => injection h with h; exact .inl ⟨_, h.symm⟩
      | irqen => injection h with h; exact .inr (.inl ⟨off 16 (by omega) (hg.2.1 rfl), hw, h.symm⟩)
      | ctrl =>
        have hb : s.busy = false := by simpa [writableBusy] using hb
        refine .inr (.inr ⟨hb, .inl ⟨off 8 (by omega) (hg.1 rfl), hw, ?_⟩⟩)
        simp only [writeTarget, issue] at h
        cases hd : decodeWord w with
        | none => rw [hd] at h; injection h with h; exact ⟨_, h.symm⟩
        | some i =>
          rw [hd] at h
          simp only [exec_idle (s := { s with reply := some .writeOk }) i hb] at h
          injection h with h; exact ⟨_, h.symm⟩
      | klen =>
        have hb : s.busy = false := by simpa [writableBusy] using hb
        injection h with h; exact .inr (.inr ⟨hb, .inr (.inl ⟨off 20 (by omega) (hg.2.2.1 rfl), hw, h.symm⟩)⟩)
      | len =>
        have hb : s.busy = false := by simpa [writableBusy] using hb
        injection h with h; exact .inr (.inr ⟨hb, .inr (.inr (.inl ⟨off 24 (by omega) (hg.2.2.2.1 rfl), hw, h.symm⟩))⟩)
      | key i =>
        have hb : s.busy = false := by simpa [writableBusy] using hb
        have hi := hg.2.2.2.2.1 i rfl
        injection h with h; exact .inr (.inr ⟨hb, .inr (.inr (.inr (.inl ⟨i, by omega, h.symm⟩)))⟩)
      | iv i =>
        have hb : s.busy = false := by simpa [writableBusy] using hb
        have hi := hg.2.2.2.2.2.1 i rfl
        injection h with h; exact .inr (.inr ⟨hb, .inr (.inr (.inr (.inr (.inl ⟨i, by omega, h.symm⟩))))⟩)
      | buf i =>
        have hb : s.busy = false := by simpa [writableBusy] using hb
        have hi := hg.2.2.2.2.2.2 i rfl
        have h16 : bufBytes s.cfg = 16 * (s.cfg.topBlock.val + 1) := rfl
        injection h with h; exact .inr (.inr ⟨hb, .inr (.inr (.inr (.inr (.inr ⟨i, by omega, h.symm⟩))))⟩)

/-! ## The step -/

theorem step_of_nil (hi : s.inputs = []) : step s = blockTurn s := by simp [step, takeTurn, hi]

theorem step_of_access {a : Access} {rest : List Input} (hi : s.inputs = .access a :: rest) :
    step s = busAccess a { s with inputs := rest } := by simp [step, takeTurn, hi]

theorem step_of_turn {rest : List Input} (hi : s.inputs = .turn :: rest) :
    step s = blockTurn { s with inputs := rest } := by simp [step, takeTurn, hi]

theorem step_of_reset {rest : List Input} (hi : s.inputs = .reset :: rest) :
    step s = .next (resetBlock { s with inputs := rest }) := by simp [step, takeTurn, hi]

/-- Everything one step can be. -/
theorem step_next (h : step s = .next t) :
    (s.inputs = [] ∧ blockTurn s = .next t) ∨
    (∃ rest, s.inputs = .turn :: rest ∧ blockTurn { s with inputs := rest } = .next t) ∨
    (∃ addr width rest, s.inputs = .access (.read addr width) :: rest ∧ t = busRead addr width { s with inputs := rest }) ∨
    (∃ addr width w rest, s.inputs = .access (.write addr width w) :: rest ∧
      busWrite addr width w { s with inputs := rest } = .next t) ∨
    (∃ rest, s.inputs = .reset :: rest ∧ t = resetBlock { s with inputs := rest }) := by
  match hi : s.inputs with
  | [] => exact .inl ⟨rfl, step_of_nil hi ▸ h⟩
  | .turn :: rest => exact .inr (.inl ⟨rest, rfl, step_of_turn hi ▸ h⟩)
  | .access (.read addr width) :: rest =>
    rw [step_of_access hi] at h
    injection h with h
    exact .inr (.inr (.inl ⟨addr, width, rest, rfl, h.symm⟩))
  | .access (.write addr width w) :: rest =>
    exact .inr (.inr (.inr (.inl ⟨addr, width, w, rest, rfl, (step_of_access hi).symm.trans h⟩)))
  | .reset :: rest =>
    rw [step_of_reset hi] at h
    injection h with h
    exact .inr (.inr (.inr (.inr ⟨rest, rfl, h.symm⟩)))

/-! ## Runs of several steps -/

@[simp] theorem andThen_next {α β : Type} (a : α) (f : α → Host.Outcome β Fault Refusal) :
    andThen (.next a) f = f a := rfl

theorem runSteps_one : runSteps 1 s = step s := by
  unfold runSteps; cases step s <;> rfl

theorem runSteps_succ {k : Nat} (h : step s = .next t) : runSteps (k + 1) s = runSteps k t := by
  rw [runSteps, h]; rfl

theorem runSteps_add (n : Nat) : ∀ (a : Nat) (s : State), runSteps (a + n) s = andThen (runSteps a s) (runSteps n)
  | 0, s => by simp [runSteps, andThen]
  | a + 1, s => by
    rw [show a + 1 + n = (a + n) + 1 by omega, runSteps, runSteps]
    cases step s with
    | next t => exact runSteps_add n a t
    | fault r => rfl
    | refused r => rfl

theorem runSteps_trans {a n : Nat} (h : runSteps a s = .next t) : runSteps (a + n) s = runSteps n t := by
  rw [runSteps_add, h]; rfl

/-! ## The random byte source (R200, R202) -/

/-- `j` requests later the outstanding request's answer is `answerTo s j`. -/
theorem nextAnswer_eq (j : Nat) (ha : t.answers = s.answers.drop j) (hr : t.requests = s.requests + j + 1) :
    nextAnswer t = answerTo s j := by
  unfold nextAnswer answerTo
  rw [ha, hr]
  cases hd : s.answers.drop j with
  | nil =>
    have : s.answers.length ≤ j := by simpa using hd
    simp [this]
  | cons x xs =>
    have hh : s.answers[j]? = some x := by
      rw [← List.head?_drop, hd]; rfl
    simp [hh]

end Sys2Proof.Machine
end

