-- ==== Sys2Proof/Laws/Facade.lean ====
section
/-! SUPPORT. The host's single accesses, its POLL and its waits, said once: an access of a host program is the bus access
itself, a pause is the block's own turn, a POLL ends at the first read that shows the value, and a wait for a command
that ends in `k` turns sees its last state, whichever way the host waits. -/

namespace Sys2Proof.Machine

variable {s t : State}

@[simp] theorem thenDo_answer {α β : Type} (a : α) (s : State) (f : State → α → HostRun β) :
    thenDo (answer a s) f = f s a := rfl

@[simp] theorem thenDo_some {α β : Type} (a : α) (s : State) (f : State → α → HostRun β) :
    thenDo (.next (s, some a)) f = f s a := rfl

@[simp] theorem thenDo_waiting {α β : Type} (s : State) (f : State → α → HostRun β) :
    thenDo (.next (s, none)) f = .next (s, none) := rfl

/-- What a program that has ended went through: its first action ended, and so did the rest. -/
theorem thenDo_eq_answer {α β : Type} {x : HostRun α} {f : State → α → HostRun β} {b : β}
    (h : thenDo x f = .next (t, some b)) : ∃ u a, x = .next (u, some a) ∧ f u a = .next (t, some b) := by
  match x with
  | .next (u, some a) => exact ⟨u, a, rfl, h⟩
  | .next (u, none) => simp at h
  | .fault _ => simp [thenDo, andThen] at h
  | .refused _ => simp [thenDo, andThen] at h

/-- What an action that has ended in a next state went through. -/
theorem andThen_eq_next {α β : Type} {x : Host.Outcome α Fault Refusal} {f : α → Host.Outcome β Fault Refusal} {b : β}
    (h : andThen x f = .next b) : ∃ a, x = .next a ∧ f a = .next b := by
  match x with
  | .next a => exact ⟨a, rfl, h⟩
  | .fault _ => simp [andThen] at h
  | .refused _ => simp [andThen] at h

/-! ## Single accesses -/

/-- A host access is the bus access; the inputs already pending stay where they are. -/
theorem hostAccess_eq (a : Access) (s : State) : hostAccess a s = andThen (busAccess a s) fun t => .next (t, t.reply) := by
  rw [hostAccess, step_of_access rfl]

theorem hostPause_eq (s : State) : hostPause s = blockTurn s := by
  rw [hostPause, step_of_turn rfl]

theorem wr_eq (r : Target) (v : Word) (s : State) :
    wr r v s = andThen (busWrite (targetOffset r) .word v s) fun t => .next (t, t.reply) := hostAccess_eq _ _

theorem rd_eq (r : Target) (s : State) :
    rd r s = .next (busRead (targetOffset r) .word s, (busRead (targetOffset r) .word s).reply) := hostAccess_eq _ _

/-- The address map finds each name of R81 at its offset, for the indices R81 gives. -/
theorem reach_targetOffset (c : Config) (g : Target) (hk : ∀ i, g = .key i → i < 8) (hv : ∀ i, g = .iv i → i < 4)
    (hb : ∀ i, g = .buf i → 4 * i < bufBytes c) : reach c .word (targetOffset g) = some g := by
  have hc : bufBytes c ≤ 65536 := by have := c.topBlock.isLt; unfold bufBytes; omega
  cases g with
  | key i =>
    have h := hk i rfl
    have e : (targetOffset (.key i)).toNat = 0x20 + 4 * i := by simp only [targetOffset, BitVec.toNat_ofNat]; omega
    simp only [reach, addressMap, e]
    rw [if_pos (by simp)]
    repeat rw [if_neg (by omega)]
    rw [if_pos (by omega)]
    congr; omega
  | iv i =>
    have h := hv i rfl
    have e : (targetOffset (.iv i)).toNat = 0x40 + 4 * i := by simp only [targetOffset, BitVec.toNat_ofNat]; omega
    simp only [reach, addressMap, e]
    rw [if_pos (by simp)]
    repeat rw [if_neg (by omega)]
    rw [if_pos (by omega)]
    congr; omega
  | buf i =>
    have h := hb i rfl
    have e : (targetOffset (.buf i)).toNat = 0x10000 + 4 * i := by simp only [targetOffset, BitVec.toNat_ofNat]; omega
    simp only [reach, addressMap, e]
    rw [if_pos (by simp)]
    repeat rw [if_neg (by omega)]
    rw [if_pos (by omega)]
    congr; omega
  | id => rfl
  | cap => rfl
  | ctrl => rfl
  | status => rfl
  | irqen => rfl
  | klen => rfl
  | len => rfl

/-- A read of STATUS never gets a bus error (R90). -/
theorem rd_status (s : State) :
    rd .status s = .next ({ s with reply := some (.readOk (statusWord s)) }, some (.readOk (statusWord s))) := by
  have h : reach s.cfg .word (targetOffset .status) = some .status := rfl
  rw [rd_eq]
  simp only [busRead, h, readableBusy, readTarget]
  simp

/-- A write of 1 to IRQEN never gets a bus error (R90). -/
theorem wr_irqen (s : State) :
    wr .irqen 1#32 s = .next ({ s with reply := some .writeOk, doneIe := true }, some .writeOk) := by
  have h : reach s.cfg .word (targetOffset .irqen) = some .irqen := rfl
  rw [wr_eq]
  simp only [busWrite, h, writableBusy, writeTarget]
  simp

/-- STATUS.BUSY as a host reads it (R37, R38). -/
theorem fieldValue_busy (s : State) : fieldValue fieldBusy (statusWord s) = 0#32 ↔ s.busy = false := by
  have h : fieldValue fieldBusy (statusWord s) = if s.busy then 1#32 else 0#32 := by
    simp only [fieldValue, fieldBusy, statusWord, flagAt, ecodeBits]
    cases s.busy <;> cases s.done <;> cases s.err <;> cases s.keyValid <;> cases s.ivFresh <;> cases s.ecode <;> rfl
  rw [h]; cases s.busy <;> simp

/-- STATUS.ERR as a host reads it (R37, R40). -/
theorem fieldValue_err (s : State) : fieldValue fieldErr (statusWord s) = if s.err then 1#32 else 0#32 := by
  simp only [fieldValue, fieldErr, statusWord, flagAt, ecodeBits]
  cases s.busy <;> cases s.done <;> cases s.err <;> cases s.keyValid <;> cases s.ivFresh <;> cases s.ecode <;> rfl

/-! ## POLL (R129) -/

/-- A POLL that has ended read the value in its last read and in no earlier one. -/
theorem poll_ended {gap reads : Nat} {r : Target} {f : RegField} {v : Word} {xs : List Reply}
    (h : poll gap r f v reads s = .next (t, some xs)) :
    ∃ init x, xs = init ++ [x] ∧ fieldValue f (replyData x) = v ∧ (∀ y ∈ init, fieldValue f (replyData y) ≠ v) ∧
      xs.length ≤ reads := by
  induction reads generalizing s xs with
  | zero => simp [poll] at h
  | succ reads ih =>
    obtain ⟨u, x, -, h⟩ := thenDo_eq_answer h
    split at h
    · rename_i hx
      simp only [answer, Host.Outcome.next.injEq, Prod.mk.injEq, Option.some.injEq] at h
      obtain ⟨-, rfl⟩ := h
      exact ⟨[], x, rfl, hx, by simp, by simp⟩
    · rename_i hx
      obtain ⟨u, -, h⟩ := andThen_eq_next h
      obtain ⟨w, ys, hy, h⟩ := thenDo_eq_answer h
      simp only [answer, Host.Outcome.next.injEq, Prod.mk.injEq, Option.some.injEq] at h
      obtain ⟨rfl, rfl⟩ := h
      obtain ⟨init, z, rfl, hz, hi, hl⟩ := ih hy
      refine ⟨x :: init, z, rfl, hz, ?_, by simpa using hl⟩
      intro y hm
      rcases List.mem_cons.1 hm with rfl | hm
      · exact hx
      · exact hi y hm

/-! ## Turns and the wait -/

/-- `s` with another response recorded and another value of DONEIE. -/
def setHost (r : Option Reply) (ie : Bool) (s : State) : State := { s with reply := r, doneIe := ie }

/-- `f` neither reads nor writes the response field or DONEIE. -/
def IgnoresHost (f : State → Result) : Prop :=
  ∀ r ie s, f (setHost r ie s) = andThen (f s) fun t => .next (setHost r ie t)

theorem ignoresHost_next {g : State → State} (h : ∀ r ie s, g (setHost r ie s) = setHost r ie (g s)) :
    IgnoresHost fun s => .next (g s) := fun r ie s => by simp only [h, andThen_next]

theorem accept_setHost (w : Word) (r : Option Reply) (ie : Bool) (s : State) :
    accept w (setHost r ie s) = setHost r ie (accept w s) := by
  by_cases h : w = 0x00000000#32
  · subst h; rfl
  · rw [accept_nonzero _ w h, accept_nonzero _ w h]; rfl

theorem raiseErr_setHost (c : ECode) (r : Option Reply) (ie : Bool) (s : State) :
    raiseErr c (setHost r ie s) = setHost r ie (raiseErr c s) := by
  cases c <;> rfl

theorem ignoresHost_commandStep {i : Instr} {check run : State → Result} (hc : IgnoresHost check)
    (hr : IgnoresHost run) : IgnoresHost (commandStep i check run) := by
  intro r ie s
  cases hb : s.busy with
  | false =>
    rw [commandStep_idle hb, commandStep_idle (s := setHost r ie s) hb, accept_setHost, andThen_next]
  | true =>
    cases hp : s.phase with
    | idle =>
      have h : ∀ s : State, s.busy = true → s.phase = .idle → commandStep i check run s = .next s := by
        intro s hb hp; simp [commandStep, hb, hp]
      rw [h s hb hp, h (setHost r ie s) hb hp, andThen_next]
    | check => rw [commandStep_check hb hp, commandStep_check (s := setHost r ie s) hb hp, hc]
    | run => rw [commandStep_run hb hp, commandStep_run (s := setHost r ie s) hb hp, hr]

theorem initCheck_setHost (r : Option Reply) (ie : Bool) (s : State) : initCheck (setHost r ie s) = setHost r ie (initCheck s) := by
  have hk : klenValid (setHost r ie s) = klenValid s := rfl
  unfold initCheck
  rw [hk]
  split
  · rfl
  · exact raiseErr_setHost _ _ _ _

theorem genivCheck_setHost (r : Option Reply) (ie : Bool) (s : State) :
    genivCheck (setHost r ie s) = setHost r ie (genivCheck s) := by
  have hk : (setHost r ie s).keyValid = s.keyValid := rfl
  unfold genivCheck
  rw [hk]
  split <;> rfl

theorem genivRun_setHost (r : Option Reply) (ie : Bool) (s : State) : genivRun (setHost r ie s) = setHost r ie (genivRun s) := by
  have h1 : (setHost r ie s).rngPend = s.rngPend := rfl
  have h2 : (setHost r ie s).ivptr = s.ivptr := rfl
  have h3 : nextAnswer (setHost r ie s) = nextAnswer s := rfl
  unfold genivRun respond takeByte
  rw [h1, h2, h3]
  split
  · cases nextAnswer s with
    | byte b =>
      by_cases h16 : s.ivptr + 1 = 16
      · simp only [h16, if_true]; rfl
      · simp only [h16, if_false]; rfl
    | fail => rfl
  · split <;> rfl

theorem transformStart_setHost (m : Mode) (d : Dir) (r : Option Reply) (ie : Bool) (s : State) :
    transformStart m d (setHost r ie s) = setHost r ie (transformStart m d s) := by
  have h1 : (setHost r ie s).keyValid = s.keyValid := rfl
  have h2 : (setHost r ie s).len = s.len := rfl
  have h3 : (setHost r ie s).cfg = s.cfg := rfl
  have h4 : (setHost r ie s).ivFresh = s.ivFresh := rfl
  unfold transformStart
  rw [h1, h2, h3, h4]
  split
  · rfl
  split
  · rfl
  split
  · rfl
  split
  · rfl
  split <;> rfl

theorem ignoresHost_blockStep {n : State → Nat} {f : State → List Byte → List Byte × Block}
    (hn : ∀ r ie s, n (setHost r ie s) = n s) (hf : ∀ r ie s, f (setHost r ie s) = f s) :
    IgnoresHost fun s => blockStep (n s) (f s) s := by
  intro r ie s
  simp only [hn, hf]
  have e1 : (setHost r ie s).bptr = s.bptr := rfl
  have e2 : blockCount (setHost r ie s) = blockCount s := rfl
  have e3 : bufRead (setHost r ie s) (16 * s.bptr) (n s) = bufRead s (16 * s.bptr) (n s) := rfl
  unfold blockStep
  rw [e1, e2, e3]
  split
  · cases bufRead s (16 * s.bptr) (n s) with
    | none => rfl
    | some x =>
      simp only [andThen_next]
      unfold finishBlock
      rw [e1, e2]
      split <;> rfl
  · rfl

theorem ignoresHost_exec (i : Instr) : IgnoresHost (exec i) := by
  have stay : IgnoresHost fun s => .next s := ignoresHost_next (g := id) fun _ _ _ => rfl
  have start : ∀ m d, IgnoresHost fun s => .next (transformStart m d s) := fun m d =>
    ignoresHost_next (transformStart_setHost m d)
  cases i with
  | clrstat => exact ignoresHost_commandStep stay stay
  | init => exact ignoresHost_commandStep (ignoresHost_next initCheck_setHost) stay
  | geniv =>
    exact ignoresHost_commandStep (ignoresHost_next genivCheck_setHost) (ignoresHost_next genivRun_setHost)
  | encCfb =>
    exact ignoresHost_commandStep (start _ _) (ignoresHost_blockStep (fun _ _ _ => rfl) fun _ _ _ => rfl)
  | decCfb =>
    exact ignoresHost_commandStep (start _ _) (ignoresHost_blockStep (fun _ _ _ => rfl) fun _ _ _ => rfl)
  | encCbc =>
    exact ignoresHost_commandStep (start _ _)
      (ignoresHost_blockStep (n := fun _ => 16) (fun _ _ _ => rfl) fun _ _ _ => rfl)
  | decCbc =>
    exact ignoresHost_commandStep (start _ _)
      (ignoresHost_blockStep (n := fun _ => 16) (fun _ _ _ => rfl) fun _ _ _ => rfl)
  | zeroize => exact ignoresHost_commandStep (ignoresHost_next fun _ _ _ => rfl) stay

/-- The block's own turn neither reads nor writes the response field or DONEIE. -/
theorem blockTurn_setHost (r : Option Reply) (ie : Bool) (s : State) :
    blockTurn (setHost r ie s) = andThen (blockTurn s) fun t => .next (setHost r ie t) := by
  have h1 : (setHost r ie s).busy = s.busy := rfl
  have h2 : (setHost r ie s).cur = s.cur := rfl
  unfold blockTurn
  rw [h1, h2]
  split
  · cases decodeWord s.cur with
    | some i => exact ignoresHost_exec i r ie s
    | none =>
      have h3 : (setHost r ie s).phase = s.phase := rfl
      simp only [reservedStep]
      rw [h3]
      cases s.phase <;> rfl
  · rfl

/-- The block's own turn leaves DONEIE and the response as they are. -/
theorem blockTurn_host (h : blockTurn s = .next t) : t.doneIe = s.doneIe ∧ t.reply = s.reply := by
  have e : setHost s.reply s.doneIe s = s := rfl
  have h' := blockTurn_setHost s.reply s.doneIe s
  rw [e, h, andThen_next, Host.Outcome.next.injEq] at h'
  exact ⟨by rw [h']; rfl, by rw [h']; rfl⟩

/-- `k` turns of the block take `s`, busy until then, to the idle state `t`. -/
inductive EndsIn : Nat → State → State → Prop where
  /-- The block is idle. -/
  | done {s : State} (h : s.busy = false) : EndsIn 0 s s
  /-- One turn of a busy block, then the rest. -/
  | turn {k : Nat} {s u t : State} (hb : s.busy = true) (h : blockTurn s = .next u) (hr : EndsIn k u t) :
    EndsIn (k + 1) s t

theorem EndsIn.idle {k : Nat} (h : EndsIn k s t) : t.busy = false := by
  induction h with
  | done h => exact h
  | turn _ _ _ ih => exact ih

/-- An idle block has ended already. -/
theorem EndsIn.eq_of_idle {k : Nat} (h : EndsIn k s t) (hb : s.busy = false) : s = t := by
  cases h with
  | done => rfl
  | turn hb' => simp [hb] at hb'

theorem EndsIn.pos_of_busy {k : Nat} (h : EndsIn k s t) (hb : s.busy = true) : 0 < k := by
  cases h with
  | done hb' => simp [hb] at hb'
  | turn => omega

theorem EndsIn.setHost {k : Nat} (h : EndsIn k s t) (r : Option Reply) (ie : Bool) :
    EndsIn k (setHost r ie s) (setHost r ie t) := by
  induction h with
  | done h => exact .done h
  | turn hb h _ ih => exact .turn hb (by rw [blockTurn_setHost, h]; rfl) ih

theorem EndsIn.doneIe {k : Nat} (h : EndsIn k s t) : t.doneIe = s.doneIe := by
  induction h with
  | done => rfl
  | turn _ h _ ih => rw [ih, (blockTurn_host h).1]

theorem hostPauses_idle (n : Nat) (hb : s.busy = false) : hostPauses n s = .next s := by
  induction n with
  | zero => rfl
  | succ n ih => rw [hostPauses, hostPause_eq, blockTurn, if_neg (by simp [hb]), andThen_next, ih]

/-- `n` steps of the block bring it `n` turns nearer to its end; an idle block stays. -/
theorem EndsIn.pauses {k : Nat} (n : Nat) (h : EndsIn k s t) : ∃ u, hostPauses n s = .next u ∧ EndsIn (k - n) u t := by
  induction n generalizing k s with
  | zero => exact ⟨s, rfl, h⟩
  | succ n ih =>
    cases h with
    | done hb => exact ⟨t, hostPauses_idle _ hb, by simpa using .done hb⟩
    | turn hb h hr =>
      obtain ⟨u, hu, he⟩ := ih hr
      exact ⟨u, by rw [hostPauses, hostPause_eq, h, andThen_next, hu], by rwa [Nat.add_sub_add_right]⟩

/-! ## POLL of BUSY, and waits for a condition -/

/-- A POLL of STATUS.BUSY with enough reads ends in the command's last state; its last read is STATUS there. -/
theorem poll_busy_eq {gap reads k : Nat} (h : EndsIn k s t) (hk : k < reads) :
    ∃ xs, poll gap .status fieldBusy 0#32 reads s =
        .next ({ t with reply := some (.readOk (statusWord t)) }, some xs) ∧ lastData xs = statusWord t := by
  induction reads generalizing k s t with
  | zero => omega
  | succ reads ih =>
    rw [poll, rd_status, thenDo_some]
    by_cases hb : s.busy = false
    · obtain rfl := h.eq_of_idle hb
      exact ⟨[.readOk (statusWord s)], if_pos ((fieldValue_busy s).2 hb), rfl⟩
    · have hb' : s.busy = true := by simpa using hb
      have hpos := h.pos_of_busy hb'
      obtain ⟨u, hu, hr⟩ := (h.setHost (some (.readOk (statusWord s))) s.doneIe).pauses (gap + 1)
      obtain ⟨xs, hp, hl⟩ := ih hr (by omega)
      have hd := h.doneIe
      refine ⟨.readOk (statusWord s) :: xs, ?_, ?_⟩
      · refine (if_neg (fun e => hb ((fieldValue_busy s).1 e))).trans ?_
        change andThen (hostPauses (gap + 1) (setHost _ s.doneIe s)) _ = _
        rw [hu, andThen_next, hp, thenDo_some, answer, setHost, ← hd]
        rfl
      · cases xs with
        | nil =>
          obtain ⟨init, x, e, -⟩ := poll_ended hp
          simp at e
        | cons x xs => exact hl

/-- A host that waits until `c` holds, and has seen it, is in a state where `c` holds, after so many block steps. -/
theorem untilHolds_ended {c : State → Bool} {n : Nat} (h : untilHolds c n s = .next (t, some ())) :
    c t = true ∧ ∃ m, m ≤ n ∧ hostPauses m s = .next t := by
  induction n generalizing s with
  | zero =>
    rw [untilHolds] at h
    split at h
    · rename_i hc
      simp only [answer, Host.Outcome.next.injEq, Prod.mk.injEq] at h
      obtain ⟨rfl, -⟩ := h
      exact ⟨hc, 0, Nat.le_refl _, rfl⟩
    · simp at h
  | succ n ih =>
    rw [untilHolds] at h
    split at h
    · rename_i hc
      simp only [answer, Host.Outcome.next.injEq, Prod.mk.injEq] at h
      obtain ⟨rfl, -⟩ := h
      exact ⟨hc, 0, Nat.zero_le _, rfl⟩
    · obtain ⟨u, hu, h⟩ := andThen_eq_next h
      obtain ⟨hc, m, hm, hp⟩ := ih h
      exact ⟨hc, m + 1, Nat.succ_le_succ hm, by rw [hostPauses, hu, andThen_next, hp]⟩

/-- A host that waits until `c` holds sees it no later than the command's last state, if it holds there. -/
theorem untilHolds_eq {c : State → Bool} {n k : Nat} (h : EndsIn k s t) (hk : k ≤ n) (hc : c t = true) :
    ∃ u j, untilHolds c n s = .next (u, some ()) ∧ c u = true ∧ EndsIn j u t ∧ j ≤ k := by
  induction n generalizing k s with
  | zero =>
    obtain rfl : k = 0 := by omega
    cases h with
    | done hb => exact ⟨t, 0, by rw [untilHolds, if_pos hc]; rfl, hc, .done hb, Nat.le_refl _⟩
  | succ n ih =>
    rw [untilHolds]
    by_cases hs : c s = true
    · exact ⟨s, k, by rw [if_pos hs]; rfl, hs, h, Nat.le_refl _⟩
    · cases h with
      | done => exact absurd hc hs
      | turn hb h hr =>
        obtain ⟨u, j, hu, hcu, he, hj⟩ := ih hr (by omega)
        exact ⟨u, j, by rw [if_neg hs, hostPause_eq, h, andThen_next, hu], hcu, he, by omega⟩

/-! ## The end of a run (R354) -/

/-- A run that has ended has executed its last line, and the block, after some more steps of its own, is idle. -/
theorem runProgram_ended {p : Pace} {rounds : Nat} {ops : List BusOp} {xs : List Reply}
    (h : runProgram p rounds ops s = .next (t, some xs)) :
    t.busy = false ∧ t.rngPend = false ∧
      ∃ u m, runOps p ops s = .next (u, some xs) ∧ m ≤ rounds ∧ hostPauses m u = .next t := by
  obtain ⟨u, ys, hu, h⟩ := thenDo_eq_answer h
  obtain ⟨v, _, hv, h⟩ := thenDo_eq_answer h
  simp only [answer, Host.Outcome.next.injEq, Prod.mk.injEq, Option.some.injEq] at h
  obtain ⟨rfl, rfl⟩ := h
  obtain ⟨hc, m, hm, hp⟩ := untilHolds_ended hv
  simp only [blockIdle, Bool.and_eq_true, Bool.not_eq_true'] at hc
  exact ⟨hc.1, hc.2, u, m, hu, hm, hp⟩

/-- A run whose last line leaves a command that ends in `k` turns, with no request outstanding then, ends with it. -/
theorem runProgram_eq {p : Pace} {rounds k : Nat} {ops : List BusOp} {u : State} {xs : List Reply}
    (hu : runOps p ops s = .next (u, some xs)) (h : EndsIn k u t) (hk : k ≤ rounds) (hr : t.rngPend = false) :
    runProgram p rounds ops s = .next (t, some xs) := by
  obtain ⟨v, j, hv, hc, he, -⟩ := untilHolds_eq h hk (c := blockIdle) (by simp [blockIdle, h.idle, hr])
  simp only [blockIdle, Bool.and_eq_true, Bool.not_eq_true'] at hc
  obtain rfl := he.eq_of_idle hc.1
  rw [runProgram, hu, thenDo_some, hv]
  rfl

/-- A run left with BUSY = 1 right after its last line is not finished. -/
theorem runProgram_unfinished {p : Pace} {ops : List BusOp} {u : State} {xs : List Reply}
    (hu : runOps p ops s = .next (u, some xs)) (hb : u.busy = true) : runProgram p 0 ops s = .next (u, none) := by
  rw [runProgram, hu, thenDo_some, untilHolds, if_neg (by simp [blockIdle, hb])]
  rfl

/-! ## Waiting for a command (R260) -/

/-- DONEIE after a wait: the interrupt way sets it, polling leaves it. -/
def doneIeAfter (how : Waiting) (ie : Bool) : Bool :=
  match how with
  | .polling _ => ie
  | .interrupt => true

/-- Either way of waiting ends in the command's last state and shows STATUS there. Waiting for irq needs a command that
sets DONE, which every command but CLRSTAT does. -/
theorem await_eq {k : Nat} (how : Waiting) (h : EndsIn k s t) (hk : k < waitRounds)
    (hd : how = .interrupt → t.done = true) :
    await how s = .next ({ t with reply := some (.readOk (statusWord t)), doneIe := doneIeAfter how t.doneIe },
      some (statusWord t)) := by
  have see : ∀ {s t : State} {k gap : Nat}, EndsIn k s t → k < waitRounds →
      (thenDo (runOps { gap := gap, reads := waitRounds } waitOps s) fun u xs => answer (lastData xs) u) =
        .next ({ t with reply := some (.readOk (statusWord t)) }, some (statusWord t)) := by
    intro s t k gap h hk
    obtain ⟨xs, hp, hl⟩ := poll_busy_eq (gap := gap) h hk
    simp only [waitOps, runOps, runOp, hp, thenDo_some, thenDo_answer, List.append_nil, hl]
    rfl
  cases how with
  | polling gap => exact see h hk
  | interrupt =>
    have h' := h.setHost (some .writeOk) true
    obtain ⟨u, j, hu, -, he, hj⟩ := untilHolds_eq h' (Nat.le_of_lt hk) (c := irq) (by simp [irq, setHost, hd])
    have e := see (gap := 0) he (by omega)
    simp only [await, paceOf]
    rw [wr_irqen, thenDo_some]
    change thenDo (untilHolds irq waitRounds (setHost _ true s)) _ = _
    rw [hu, thenDo_some, e]
    rfl

/-- `RUN`: the command's acceptance, its turns, and STATUS as its last turn leaves it. -/
theorem run_eq {k : Nat} {u : State} (how : Waiting) (i : Instr) (hb : s.busy = false)
    (hu : exec i { s with reply := some .writeOk } = .next u) (h : EndsIn k u t) (hk : k < waitRounds)
    (hd : how = .interrupt → t.done = true) :
    run how i s = .next ({ t with reply := some (.readOk (statusWord t)), doneIe := doneIeAfter how t.doneIe },
      some (statusWord t)) := by
  have hw : wr .ctrl (encode i) s = .next (u, some .writeOk) := by
    have hr : reach s.cfg .word (targetOffset .ctrl) = some .ctrl := rfl
    have hc : decodeWord (encode i) = some i := by cases i <;> rfl
    have hy : u.reply = some .writeOk := by
      rw [exec_idle i (s := { s with reply := some .writeOk }) hb] at hu
      obtain rfl := Host.Outcome.next.inj hu
      cases i <;> rfl
    have hw : busWrite (targetOffset .ctrl) .word (encode i) s = .next u := by
      unfold busWrite
      simp only [hr, hb, Bool.false_and, Bool.false_eq_true, if_false, writeTarget, issue, hc, ← hu]
    rw [wr_eq, hw, andThen_next, hy]
  simp only [run, cmdOps, runOps, runOp, hw, thenDo_some, thenDo_answer]
  exact await_eq how h hk hd

end Sys2Proof.Machine
end

