-- ==== Sys2Proof/Laws/Loading.lean ====
section
/-! SUPPORT. What the pseudo-operations LOADKEY, LOADIV, LOADBUF, READIV and READBUF (30_encoding.md R130) do to an idle
block, and what RUN INIT and RUN ZEROIZE come to, each said once. -/

namespace Sys2Proof.Machine

variable {s t : State}

/-! ## Programs -/

theorem runOps_append (p : Pace) (l l' : List BusOp) (s : State) :
    runOps p (l ++ l') s =
      thenDo (runOps p l s) fun t xs => thenDo (runOps p l' t) fun u ys => answer (xs ++ ys) u := by
  induction l generalizing s with
  | nil =>
    simp only [List.nil_append, runOps, thenDo_answer]
    match runOps p l' s with
    | .next (t, some xs) => rfl
    | .next (t, none) => rfl
    | .fault _ => rfl
    | .refused _ => rfl
  | cons o l ih =>
    simp only [List.cons_append, runOps, ih]
    match runOp p o s with
    | .next (t, some xs) =>
      simp only [thenDo_some]
      match runOps p l t with
      | .next (u, some ys) =>
        simp only [thenDo_some, thenDo_answer]
        match runOps p l' u with
        | .next (v, some zs) => simp
        | .next (v, none) => rfl
        | .fault _ => rfl
        | .refused _ => rfl
      | .next (u, none) => rfl
      | .fault _ => rfl
      | .refused _ => rfl
    | .next (t, none) => rfl
    | .fault _ => rfl
    | .refused _ => rfl

/-- A program that ends, and then one more line that ends. -/
theorem runOps_snoc {p : Pace} {l : List BusOp} {o : BusOp} {u : State} {xs ys : List Reply}
    (hl : runOps p l s = .next (t, some xs)) (ho : runOp p o t = .next (u, some ys)) :
    runOps p (l ++ [o]) s = .next (u, some (xs ++ ys)) := by
  rw [runOps_append, hl, thenDo_some]
  simp [runOps, ho, answer]

/-- A `WR` to a register of an idle block, CTRL apart: its effect, and OK (R89). -/
theorem runOp_wr (p : Pace) {g : Target} (v : Word) (hb : s.busy = false)
    (hr : reach s.cfg .word (targetOffset g) = some g)
    (ht : writeTarget v { s with reply := some .writeOk } g = .next t) (hy : t.reply = some .writeOk) :
    runOp p (.wr g v) s = .next (t, some [.writeOk]) := by
  have hw : busWrite (targetOffset g) .word v s = .next t := by
    unfold busWrite
    rw [hr]
    exact (if_neg (by simp [hb])).trans ht
  rw [runOp, wr_eq, hw, andThen_next, hy]
  rfl

/-- An `RD` of a register of an idle block: its value, and nothing else changes (R88). -/
theorem runOp_rd (p : Pace) {g : Target} (hb : s.busy = false) (hr : reach s.cfg .word (targetOffset g) = some g) :
    runOp p (.rd g) s =
      .next ({ s with reply := some (.readOk (readTarget s g)) }, some [.readOk (readTarget s g)]) := by
  rw [runOp, rd_eq]
  simp only [busRead, hr, hb, Bool.false_and, Bool.false_eq_true, if_false]
  rfl

/-! ## Words and bytes (R83) -/

/-- The four bytes of a word assembled from bytes. -/
theorem laneByte_wordAt (f : Nat → Byte) (i : Nat) :
    laneByte (wordAt f i) 0 = f (4 * i) ∧ laneByte (wordAt f i) 1 = f (4 * i + 1) ∧
    laneByte (wordAt f i) 2 = f (4 * i + 2) ∧ laneByte (wordAt f i) 3 = f (4 * i + 3) :=
  ⟨laneByte_laneWord_zero _ _ _ _, laneByte_laneWord_one _ _ _ _, laneByte_laneWord_two _ _ _ _,
    laneByte_laneWord_three _ _ _ _⟩

/-- A byte vector after word `i` of a byte function was stored in it. -/
theorem getElem_putWord_wordAt {n : Nat} (v : Vector Byte n) (f : Nat → Byte) (i a : Nat) (ha : a < n) :
    (putWord v i (wordAt f i))[a] = if a / 4 = i then f a else v[a] := by
  obtain ⟨h0, h1, h2, h3⟩ := laneByte_wordAt f i
  simp only [putWord, Vector.getElem_setIfInBounds, h0, h1, h2, h3]
  by_cases h : a / 4 = i
  · rcases (by omega : a = 4 * i ∨ a = 4 * i + 1 ∨ a = 4 * i + 2 ∨ a = 4 * i + 3) with e | e | e | e <;> subst e <;>
      simp <;> omega
  · have e0 : 4 * i ≠ a := by omega
    have e1 : 4 * i + 1 ≠ a := by omega
    have e2 : 4 * i + 2 ≠ a := by omega
    have e3 : 4 * i + 3 ≠ a := by omega
    simp [h, e0, e1, e2, e3]

/-- Storing word `n` in a byte vector whose first `n` words are filled from `f` fills one more. -/
theorem putWord_fill {m : Nat} (f : Nat → Byte) (v : Vector Byte m) (n : Nat) :
    putWord (Vector.ofFn fun j => if j.val < 4 * n then f j.val else v[j.val]) n (wordAt f n) =
      Vector.ofFn fun j => if j.val < 4 * (n + 1) then f j.val else v[j.val] := by
  apply Vector.ext
  intro a ha
  rw [getElem_putWord_wordAt, Vector.getElem_ofFn, Vector.getElem_ofFn]
  dsimp only
  by_cases h1 : a / 4 = n
  · rw [if_pos h1, if_pos (by omega)]
  · by_cases h2 : a < 4 * n
    · rw [if_neg h1, if_pos h2, if_pos (by omega)]
    · rw [if_neg h1, if_neg h2, if_neg (by omega)]

/-- A byte vector filled to its end. -/
theorem ofFn_filled {m n : Nat} (f : Nat → Byte) (v : Vector Byte m) (h : m ≤ 4 * n) :
    (Vector.ofFn fun j : Fin m => if j.val < 4 * n then f j.val else v[j.val]) = Vector.ofFn fun j => f j.val := by
  congr
  funext j
  exact if_pos (by omega)

/-- The words of a byte function, unpacked, are its bytes. -/
theorem unpackReplies_wordAt (f : Nat → Byte) (n : Nat) :
    unpackReplies ((List.range n).map fun i => .readOk (wordAt f i)) = (List.range (4 * n)).map f := by
  induction n with
  | zero => rfl
  | succ n ih =>
    obtain ⟨h0, h1, h2, h3⟩ := laneByte_wordAt f n
    rw [List.range_succ, List.map_append, unpackReplies, List.flatMap_append, ← unpackReplies, ih,
      show 4 * (n + 1) = 4 * n + 1 + 1 + 1 + 1 by omega]
    simp [List.range_succ, replyData, h0, h1, h2, h3]

/-! ## LOADKEY, LOADIV, LOADBUF -/

/-- The first `n` words of LOADKEY. -/
theorem runOps_keyWords (p : Pace) (k : List Byte) (hb : s.busy = false) (n : Nat) (hn : n ≤ 8) :
    ∃ kv r xs, runOps p (wordWrites .key n k) s = .next ({ s with
      key := Vector.ofFn fun j => if j.val < 4 * n then k.getD j.val 0#8 else s.key[j.val]
      keyValid := kv, reply := r }, some xs) := by
  induction n with
  | zero => exact ⟨s.keyValid, s.reply, [], by simp [wordWrites, runOps, answer]⟩
  | succ n ih =>
    obtain ⟨kv, r, xs, h⟩ := ih (by omega)
    refine ⟨false, some .writeOk, xs ++ [.writeOk], ?_⟩
    rw [wordWrites, List.range_succ, List.map_append]
    refine runOps_snoc h (runOp_wr p _ hb (reach_targetOffset _ _ ?_ (by simp) (by simp)) ?_ rfl)
    · intro i hi; cases hi; omega
    · simp only [writeTarget]
      rw [putWord_fill (fun j => k.getD j 0#8)]

/-- LOADKEY puts the key, with zero bytes after it, in KEYBYTES and its length in KLEN, and clears KEYVALID. -/
theorem runOps_loadKey (p : Pace) (k : List Byte) (hb : s.busy = false) :
    ∃ xs, runOps p (loadKeyOps k) s = .next ({ s with
      key := Vector.ofFn fun j => k.getD j.val 0#8
      klen := BitVec.ofNat 32 k.length, keyValid := false, reply := some .writeOk }, some xs) := by
  obtain ⟨kv, r, xs, h⟩ := runOps_keyWords p k hb 8 (Nat.le_refl _)
  rw [ofFn_filled (fun j => k.getD j 0#8) _ (by omega)] at h
  exact ⟨xs ++ [.writeOk], runOps_snoc h (runOp_wr (s := { s with
    key := Vector.ofFn fun j => k.getD j.val 0#8, keyValid := kv, reply := r }) p _ hb rfl rfl rfl)⟩

/-- The first `n` words of LOADIV. -/
theorem runOps_ivWords (p : Pace) (v : List Byte) (hb : s.busy = false) (n : Nat) (hn : n ≤ 4) :
    ∃ f r xs, runOps p (wordWrites .iv n v) s = .next ({ s with
      iv := Vector.ofFn fun j => if j.val < 4 * n then v.getD j.val 0#8 else s.iv[j.val]
      ivFresh := f, reply := r }, some xs) ∧ (0 < n → f = false ∧ r = some .writeOk) := by
  induction n with
  | zero => exact ⟨s.ivFresh, s.reply, [], by simp [wordWrites, runOps, answer], by omega⟩
  | succ n ih =>
    obtain ⟨f, r, xs, h, -⟩ := ih (by omega)
    refine ⟨false, some .writeOk, xs ++ [.writeOk], ?_, fun _ => ⟨rfl, rfl⟩⟩
    rw [wordWrites, List.range_succ, List.map_append]
    refine runOps_snoc h (runOp_wr p _ hb (reach_targetOffset _ _ (by simp) ?_ (by simp)) ?_ rfl)
    · intro i hi; cases hi; omega
    · simp only [writeTarget]
      rw [putWord_fill (fun j => v.getD j 0#8)]

/-- LOADIV puts 16 bytes in IVBYTES and clears IVFRESH. -/
theorem runOps_loadIv (p : Pace) (v : List Byte) (hb : s.busy = false) :
    ∃ xs, runOps p (loadIvOps v) s =
      .next ({ s with iv := blockOf v, ivFresh := false, reply := some .writeOk }, some xs) := by
  obtain ⟨f, r, xs, h, hf⟩ := runOps_ivWords p v hb 4 (Nat.le_refl _)
  obtain ⟨rfl, rfl⟩ := hf (by omega)
  rw [ofFn_filled (fun j => v.getD j 0#8) _ (by omega)] at h
  exact ⟨xs, h⟩

/-- The first `n` words of LOADBUF. -/
theorem runOps_bufWords (p : Pace) (l : List Byte) (hb : s.busy = false) (hw : Cells.wf s.buf = true)
    (hi : Cells.below (bufBytes s.cfg) s.buf = true) (n : Nat) (hn : 4 * n ≤ bufBytes s.cfg) :
    ∃ m r xs, runOps p (wordWrites .buf n l) s = .next ({ s with buf := m, reply := r }, some xs) ∧
      Cells.wf m = true ∧ Cells.below (bufBytes s.cfg) m = true ∧
      ∀ a, Cells.read m a = if a < 4 * n then l.getD a 0#8 else Cells.read s.buf a := by
  induction n with
  | zero => exact ⟨s.buf, s.reply, [], by simp [wordWrites, runOps, answer], hw, hi, by simp⟩
  | succ n ih =>
    obtain ⟨m, r, xs, h, hm, hi, ha⟩ := ih (by omega)
    obtain ⟨h0, h1, h2, h3⟩ := laneByte_wordAt (fun j => l.getD j 0#8) n
    generalize hv : wordAt (fun j => l.getD j 0#8) n = v at h0 h1 h2 h3
    refine ⟨Cells.writeAll m (4 * n) [laneByte v 0, laneByte v 1, laneByte v 2, laneByte v 3], some .writeOk,
      xs ++ [.writeOk], ?_, Cells.wf_writeAll hm, Cells.below_writeAll ?_ hi, ?_⟩
    rotate_left
    · simp only [List.length_cons, List.length_nil]; omega
    · intro a
      rw [Cells.read_writeAll hm, ha, h0, h1, h2, h3]
      simp only [List.length_cons, List.length_nil]
      by_cases hc : 4 * n ≤ a ∧ a < 4 * n + (0 + 1 + 1 + 1 + 1)
      · rw [if_pos hc, if_pos (by omega)]
        rcases (by omega : a = 4 * n ∨ a = 4 * n + 1 ∨ a = 4 * n + 2 ∨ a = 4 * n + 3) with e | e | e | e <;>
          subst e <;> simp
      · rw [if_neg hc]
        by_cases hd : a < 4 * n
        · rw [if_pos hd, if_pos (by omega)]
        · rw [if_neg hd, if_neg (by omega)]
    · rw [wordWrites, List.range_succ, List.map_append]
      refine runOps_snoc h ?_
      dsimp only
      rw [hv]
      refine runOp_wr (s := { s with buf := m, reply := r }) p v hb
        (reach_targetOffset _ _ (by simp) (by simp) ?_) rfl rfl
      intro i hi; cases hi; change 4 * n < bufBytes s.cfg; omega

/-- LOADBUF puts the bytes, with zero bytes up to a whole word, in BUF from byte 0 on and their number in LEN. -/
theorem runOps_loadBuf (p : Pace) (l : List Byte) (hb : s.busy = false) (hw : Cells.wf s.buf = true)
    (hi : Cells.below (bufBytes s.cfg) s.buf = true) (hl : l.length ≤ bufBytes s.cfg) :
    ∃ m xs, runOps p (loadBufOps l) s = .next ({ s with
      buf := m, len := BitVec.ofNat 32 l.length, reply := some .writeOk }, some xs) ∧
      Cells.wf m = true ∧ Cells.below (bufBytes s.cfg) m = true ∧
      ∀ a, Cells.read m a = if a < 4 * ((l.length + 3) / 4) then l.getD a 0#8 else Cells.read s.buf a := by
  have hc : bufBytes s.cfg = 16 * (s.cfg.topBlock.val + 1) := rfl
  obtain ⟨m, r, xs, h, hm, hi, ha⟩ := runOps_bufWords p l hb hw hi ((l.length + 3) / 4) (by omega)
  exact ⟨m, xs ++ [.writeOk], runOps_snoc h
    (runOp_wr (s := { s with buf := m, reply := r }) p _ hb rfl rfl rfl), hm, hi, ha⟩

/-- After LOADBUF the bytes read back. -/
theorem readAll_loaded {m m' : Cells} {l : List Byte}
    (h : ∀ a, Cells.read m a = if a < 4 * ((l.length + 3) / 4) then l.getD a 0#8 else Cells.read m' a) :
    Cells.readAll m 0 l.length = l := by
  apply List.ext_getElem
  · simp
  · intro j h1 h2
    rw [Cells.getElem_readAll, h, if_pos (by omega)]
    simp [h2]

/-! ## READIV, READBUF -/

/-- Reads of an idle block, one after another, each with its value; nothing else changes. -/
theorem runOps_reads (p : Pace) (g : Nat → Target) (hb : s.busy = false) (n : Nat)
    (hr : ∀ i, i < n → reach s.cfg .word (targetOffset (g i)) = some (g i))
    (hv : ∀ i r, readTarget { s with reply := r } (g i) = readTarget s (g i)) :
    ∃ r, runOps p ((List.range n).map fun i => .rd (g i)) s =
      .next ({ s with reply := r }, some ((List.range n).map fun i => .readOk (readTarget s (g i)))) := by
  induction n with
  | zero => exact ⟨s.reply, rfl⟩
  | succ n ih =>
    obtain ⟨r, h⟩ := ih fun i hi => hr i (by omega)
    refine ⟨some (.readOk (readTarget s (g n))), ?_⟩
    rw [List.range_succ, List.map_append, List.map_append]
    have e := runOp_rd (s := { s with reply := r }) p (g := g n) hb (hr n (by omega))
    rw [hv] at e
    exact runOps_snoc h e

/-- READIV answers IVBYTES. -/
theorem readIv_eq (how : Waiting) (hb : s.busy = false) :
    ∃ r, readIv how s = .next ({ s with reply := r }, some s.iv.toList) := by
  obtain ⟨r, h⟩ := runOps_reads (s := s) (paceOf how) .iv hb 4
    (fun i hi => reach_targetOffset _ _ (by simp) (fun j e => by cases e; exact hi) (by simp)) (fun _ _ => rfl)
  refine ⟨r, ?_⟩
  rw [readIv, readIvOps, h, thenDo_some]
  have e := unpackReplies_wordAt (fun j => s.iv.toList.getD j 0#8) 4
  simp only [readTarget, e, answer]
  congr
  apply List.ext_getElem
  · simp
  · intro j h1 h2
    have hj : j < 16 := by simpa using h2
    simp [hj]

/-- READBUF answers the first `n` bytes of BUF. -/
theorem readBuf_eq (how : Waiting) (n : Nat) (hb : s.busy = false) (hn : n ≤ bufBytes s.cfg) :
    ∃ r, readBuf how n s = .next ({ s with reply := r }, some (Cells.readAll s.buf 0 n)) := by
  have hc : bufBytes s.cfg = 16 * (s.cfg.topBlock.val + 1) := rfl
  obtain ⟨r, h⟩ := runOps_reads (s := s) (paceOf how) .buf hb ((n + 3) / 4)
    (fun i hi => reach_targetOffset _ _ (by simp) (by simp) (fun j e => by cases e; omega)) (fun _ _ => rfl)
  refine ⟨r, ?_⟩
  rw [readBuf, readBufOps, h, thenDo_some]
  have e := unpackReplies_wordAt (bufByte s) ((n + 3) / 4)
  simp only [readTarget, e, answer]
  congr
  apply List.ext_getElem
  · simp; omega
  · intro j h1 h2
    simp [bufByte]

/-! ## RUN INIT, RUN ZEROIZE -/

/-- RUN of a command that ends in its start step, `check`. -/
theorem run_of_check {i : Instr} {check : State → State} (how : Waiting) (hb : s.busy = false)
    (hz : encode i ≠ 0x00000000#32)
    (hx : ∀ u : State, u.busy = true → u.phase = .check → exec i u = .next (check u))
    (ht : check { s with
      reply := some .writeOk, done := false, err := false, ecode := .none, cur := encode i, phase := .check
      bptr := 0, ivptr := 0, busy := true } = t)
    (hi : t.busy = false) (hd : t.done = true) :
    run how i s = .next ({ t with reply := some (.readOk (statusWord t)), doneIe := doneIeAfter how t.doneIe },
      some (statusWord t)) := by
  have hc : decodeWord (encode i) = some i := by cases i <;> rfl
  refine run_eq (k := 1) how i hb (exec_idle i hb) ?_ (by decide) fun _ => hd
  rw [accept_nonzero _ _ hz]
  refine .turn (u := t) rfl ?_ (.done hi)
  rw [blockTurn, if_pos rfl, hc]
  exact (hx _ rfl rfl).trans (congrArg _ ht)

/-- RUN INIT of an idle block with KLEN in KEYSIZES sets KEYVALID, and STATUS shows no error (R157). -/
theorem run_init_valid (how : Waiting) (hb : s.busy = false) (hk : klenValid s = true) :
    ∃ r w, run how .init s = .next ({ s with
      busy := false, done := true, err := false, ecode := .none, cur := encode .init, phase := .idle, bptr := 0
      ivptr := 0, keyValid := true, reply := r, doneIe := doneIeAfter how s.doneIe }, some w) ∧ errBit w = false :=
  ⟨_, _, run_of_check (check := initCheck) how hb (by decide)
      (fun u h1 h2 => commandStep_check (check := fun s => .next (initCheck s)) h1 h2)
      (t := { s with
        busy := false, done := true, err := false, ecode := .none, cur := encode .init, phase := .idle, bptr := 0
        ivptr := 0, keyValid := true, reply := some .writeOk }) (if_pos hk) rfl rfl,
    by rw [errBit, fieldValue_err]; rfl⟩

/-- RUN INIT of an idle block with KLEN not in KEYSIZES clears the key, and STATUS shows the error (R157, R310). -/
theorem run_init_invalid (how : Waiting) (hb : s.busy = false) (hk : klenValid s = false) :
    ∃ r w, run how .init s = .next ({ s with
      busy := false, done := true, err := true, ecode := .invalidKey, cur := encode .init, phase := .idle, bptr := 0
      ivptr := 0, key := zeroKey, keyValid := false, ivFresh := false, chain := zeroBlock, rngPend := false
      reply := r, doneIe := doneIeAfter how s.doneIe }, some w) ∧ errBit w = true :=
  ⟨_, _, run_of_check (check := initCheck) how hb (by decide)
      (fun u h1 h2 => commandStep_check (check := fun s => .next (initCheck s)) h1 h2)
      (t := { s with
        busy := false, done := true, err := true, ecode := .invalidKey, cur := encode .init, phase := .idle, bptr := 0
        ivptr := 0, key := zeroKey, keyValid := false, ivFresh := false, chain := zeroBlock, rngPend := false
        reply := some .writeOk }) (if_neg (fun h => Bool.noConfusion (hk.symm.trans h))) rfl rfl,
    by rw [errBit, fieldValue_err]; rfl⟩

/-- RUN ZEROIZE of an idle block clears every operand and result (R231). -/
theorem run_zeroize (how : Waiting) (hb : s.busy = false) :
    ∃ r w, run how .zeroize s = .next ({ zeroizeAll s with
      busy := false, done := true, err := false, ecode := .none, cur := encode .zeroize, phase := .idle, bptr := 0
      ivptr := 0, reply := r, doneIe := doneIeAfter how s.doneIe }, some w) :=
  ⟨_, _, run_of_check (check := zeroizeCheck) how hb (by decide)
    (fun u h1 h2 => commandStep_check (check := fun s => .next (zeroizeCheck s)) h1 h2)
    (t := { zeroizeAll s with
      busy := false, done := true, err := false, ecode := .none, cur := encode .zeroize, phase := .idle, bptr := 0
      ivptr := 0, reply := some .writeOk }) rfl rfl rfl⟩

/-- A call's last act on an idle block returns the result and leaves what ZEROIZE leaves (R259). -/
theorem endCall_eq (how : Waiting) (res : FacadeResult) (hb : s.busy = false) :
    ∃ r, endCall how res s = .next ({ zeroizeAll s with
      busy := false, done := true, err := false, ecode := .none, cur := encode .zeroize, phase := .idle, bptr := 0
      ivptr := 0, reply := r, doneIe := doneIeAfter how s.doneIe }, some res) := by
  obtain ⟨r, w, h⟩ := run_zeroize how hb
  exact ⟨r, by rw [endCall, h, thenDo_some, answer]⟩

end Sys2Proof.Machine
end

