-- ==== Sys2Proof/Laws/PerInstr.lean ====
section
/-! SUPPORT. The per-instruction laws of the command words: the word of each command is well-formed, decodes to the
command, has RSVD = 0 and is not reserved (30_encoding.md R120 to R123). -/

namespace Sys2Proof.Laws.CommandWord

/-- What R120 to R123 say of a command's CTRL word. -/
def Statement (i : Instr) : Prop :=
  i.wellFormed = true ∧ decodeWord (encode i) = some i ∧ rsvdField (encode i) = 0#28 ∧ reservedWord (encode i) = false

theorem clrstat : Statement .clrstat := by unfold Statement; decide
theorem init : Statement .init := by unfold Statement; decide
theorem geniv : Statement .geniv := by unfold Statement; decide
theorem encCfb : Statement .encCfb := by unfold Statement; decide
theorem decCfb : Statement .decCfb := by unfold Statement; decide
theorem encCbc : Statement .encCbc := by unfold Statement; decide
theorem decCbc : Statement .decCbc := by unfold Statement; decide
theorem zeroize : Statement .zeroize := by unfold Statement; decide

end Sys2Proof.Laws.CommandWord
end

