-- ==== Sys2Proof/Tests/Slice0.lean ====
section
/-! SUPPORT. The model's own tests: the well-formedness smoke test, the words of 30_encoding.md R122 and R123, at most
two one-step tests per command with values from spec/95_test_vectors.md or the rules' examples, and for each statement
of Certificates/Slice0/Obligations.lean that has hypotheses a state and operands that meet them. -/

namespace Sys2Proof.Tests

open Sys2Proof Sys2Proof.Machine

/-! ## Helpers -/

/-- The result is a next state with `f`. -/
def okAnd (r : Result) (f : State → Bool) : Bool :=
  match r with
  | .next t => f t
  | .fault _ => false
  | .refused _ => false

theorem okAnd_next {r : Result} {f : State → Bool} (h : okAnd r f = true) : ∃ t, r = .next t ∧ f t = true := by
  cases r with
  | next t => exact ⟨t, rfl, h⟩
  | fault _ => simp [okAnd] at h
  | refused _ => simp [okAnd] at h

/-- The default parameters with TOY as the block cipher (95_test_vectors.md section 2.2). -/
def toyCfg : Config := { Config.default with cipher := .toy }

/-- TOY with a buffer of one block and KEYSIZES = 16. -/
def smallCfg : Config :=
  { Config.default with cipher := .toy, topBlock := 0, keySizes := { k16 := true, k24 := false, k32 := false } }

/-- `n` bytes counting up from `b`. -/
def bytesFrom (b n : Nat) : List Byte := (List.range n).map fun j => BitVec.ofNat 8 (b + j)

/-- The key K16 of 95_test_vectors.md in KEYBYTES. -/
def keyK16 : Vector Byte 32 := Vector.ofFn fun j => if j.val < 16 then BitVec.ofNat 8 (j.val + 1) else 0#8

/-- IVA of 95_test_vectors.md. -/
def ivA : Block := blockOf (bytesFrom 0xA0 16)

/-- PHW of 95_test_vectors.md. -/
def phw : List Byte :=
  [0x68#8, 0x65#8, 0x6c#8, 0x6c#8, 0x6f#8, 0x77#8, 0x6f#8, 0x72#8, 0x6c#8, 0x64#8, 6#8, 6#8, 6#8, 6#8, 6#8, 6#8]

/-- CBC_ENC(K16, IVA, PHW) under TOY (95_test_vectors.md section 2.3). -/
def cbcHw : List Byte :=
  [0xc6#8, 0xcd#8, 0xcb#8, 0xce#8, 0xd4#8, 0xce#8, 0xdd#8, 0xcd#8, 0xc7#8, 0xa7#8, 0xa1#8, 0xa7#8, 0xa5#8, 0xa7#8,
    0xb9#8, 0xc9#8]

/-- CFB_ENC(K16, IVA, PHW) under TOY (95_test_vectors.md section 2.3). -/
def cfbHw : List Byte :=
  [0xcb#8, 0xc4#8, 0xcb#8, 0xcd#8, 0xcc#8, 0xd6#8, 0xc0#8, 0xd3#8, 0xcf#8, 0xc5#8, 0xa1#8, 0xa7#8, 0xa5#8, 0xa7#8,
    0xb9#8, 0xa7#8]

/-- A BUF that holds a byte sequence from byte 0 on. -/
def bufOf (l : List Byte) : Cells := Cells.writeAll [] 0 l

/-- An idle block with K16 validated, a fresh IVA, LEN and BUF. -/
def loaded (len : Nat) (data : List Byte) : State :=
  { State.resetWith toyCfg with
    keyValid := true, ivFresh := true, klen := 16#32, len := BitVec.ofNat 32 len, key := keyK16, iv := ivA
    buf := bufOf data }

/-- The loaded block with command `i` in its start step. -/
def starting (i : Instr) (len : Nat) (data : List Byte) : State :=
  { loaded len data with busy := true, phase := .check, cur := encode i }

/-- The loaded block inside a transform, at its first block. -/
def running (i : Instr) (len : Nat) (data : List Byte) : State :=
  { loaded len data with busy := true, phase := .run, cur := encode i, chain := ivA }

/-- The loaded block inside GENIV, after `k` bytes. -/
def drawing (k : Nat) (pend : Bool) (answers : List Answer) : State :=
  { loaded 0 [] with
    busy := true, phase := .run, cur := encode .geniv, ivFresh := false, ivptr := k, rngPend := pend
    answers := answers }

/-- `s` with inputs pending. -/
def given (l : List Input) (s : State) : State := { s with inputs := l }

/-- A pending 32-bit host write. -/
def wrIn (a : Offset) (w : Word) : Input := .access (.write a .word w)

/-- A pending 32-bit host read. -/
def rdIn (a : Offset) : Input := .access (.read a .word)

/-! ## Well-formedness and decoding -/

/-- R9: KEYSIZES must not be empty. -/
theorem test_config_ill_formed :
    Config.wellFormed { Config.default with keySizes := { k16 := false, k24 := false, k32 := false } } = false := by
  decide

/-- R9: the default KEYSIZES is accepted. -/
theorem test_config_well_formed : Config.wellFormed Config.default = true := by decide

/-- R124: no command can be ill-formed. -/
theorem test_instr_well_formed : Instr.wellFormed .encCbc = true := by decide

/-- R122, written out bit by bit: RSVD = 0, CMD = 0b0000. -/
theorem test_decode_clrstat : decodeWord 0b00000000000000000000000000000000#32 = some .clrstat := by decide
/-- R122: CMD = 0b0001. -/
theorem test_decode_init : decodeWord 0b00000000000000000000000000000001#32 = some .init := by decide
/-- R122: CMD = 0b0010. -/
theorem test_decode_geniv : decodeWord 0b00000000000000000000000000000010#32 = some .geniv := by decide
/-- R121, R122: CMD = 0b0100, transform, CFB, encrypt. -/
theorem test_decode_encCfb : decodeWord 0b00000000000000000000000000000100#32 = some .encCfb := by decide
/-- R121, R122: CMD = 0b0101, transform, CFB, decrypt. -/
theorem test_decode_decCfb : decodeWord 0b00000000000000000000000000000101#32 = some .decCfb := by decide
/-- R121, R122: CMD = 0b0110, transform, CBC, encrypt. -/
theorem test_decode_encCbc : decodeWord 0b00000000000000000000000000000110#32 = some .encCbc := by decide
/-- R121, R122: CMD = 0b0111, transform, CBC, decrypt. -/
theorem test_decode_decCbc : decodeWord 0b00000000000000000000000000000111#32 = some .decCbc := by decide
/-- R122: CMD = 0b1000. -/
theorem test_decode_zeroize : decodeWord 0b00000000000000000000000000001000#32 = some .zeroize := by decide
/-- R123: CMD = 0x3 and 0x9..0xF are reserved. -/
theorem test_decode_reserved_cmd :
    ∀ c : BitVec 4, c = 0x3#4 ∨ 0x9#4 ≤ c → decodeWord (c.setWidth 32) = none := by decide
/-- R123: RSVD != 0 is reserved, in its lowest and its highest bit. -/
theorem test_decode_reserved_bits : decodeWord 0x00000013#32 = none ∧ decodeWord 0x80000001#32 = none := by decide
/-- The opcode table's numbering: a 32-bit row, and bits above the row are 0. -/
theorem test_decode_table_word : decodeTableWord 32 5 = some .decCfb ∧ decodeTableWord 32 3 = none := by decide
/-- R232's check is the decoder's on the reserved words. -/
theorem test_reserved_word : reservedWord 0x00000009#32 = true ∧ reservedWord 0x00000008#32 = false := by decide

/-! ## One step of each command -/

/-- R230's example: STATUS 0x00000106, then CLRSTAT, gives STATUS 0. -/
theorem test_clrstat_example :
    okAnd (exec .clrstat { State.resetWith toyCfg with done := true, err := true, ecode := .invalidKey })
      (fun t => statusWord t == 0#32 && !t.busy) = true := by decide

/-- R157's example: KLEN = 3 gives STATUS 0x00000106. -/
theorem test_init_rejects_three :
    okAnd (exec .init { starting .init 0 [] with klen := 3#32, keyValid := false, ivFresh := false })
      (fun t => statusWord t == 0x00000106#32 && t.klen == 3#32 && t.key == zeroKey) = true := by decide

/-- R157's example: KLEN = 16 gives STATUS 0x0000000A. -/
theorem test_init_accepts_sixteen :
    okAnd (exec .init { starting .init 0 [] with keyValid := false, ivFresh := false })
      (fun t => statusWord t == 0x0000000A#32 && t.key == keyK16) = true := by decide

/-- R205's example, its last byte: IV3 reads 0xAFAEADAC and STATUS is 0x0000001A. -/
theorem test_geniv_last_byte :
    okAnd (exec .geniv { drawing 15 true [.byte 0xAF#8] with iv := ivA.set 15 0#8 })
      (fun t => statusWord t == 0x0000001A#32 && readTarget t (.iv 3) == 0xAFAEADAC#32) = true := by decide

/-- R205: Fail zeroes the IV and ends in STATUS 0x00000206 (95_test_vectors.md program P5). -/
theorem test_geniv_fail :
    okAnd (exec .geniv (drawing 5 true [.fail]))
      (fun t => statusWord t == 0x00000206#32 && t.iv == zeroBlock) = true := by decide

/-- 95_test_vectors.md section 2.3: CFB_ENC of PHW. -/
theorem test_encCfb_block :
    okAnd (exec .encCfb (running .encCfb 16 phw)) (fun t => t.buf == bufOf cfbHw && statusWord t == 2#32) = true := by
  decide

/-- 95_test_vectors.md section 2.3, R162: the short last segment of 00 01 .. 13 is b2 b7 b4 b1, and the byte after LEN
stays. -/
theorem test_encCfb_short :
    okAnd (exec .encCfb { running .encCfb 20 (bytesFrom 0 21) with
        bptr := 1
        chain := blockOf [0xa3#8, 0xa0#8, 0xa5#8, 0xa2#8, 0xa7#8, 0xa4#8, 0xa9#8, 0xa6#8, 0xab#8, 0xa8#8, 0xad#8,
          0xaa#8, 0xaf#8, 0xac#8, 0xb1#8, 0xae#8] })
      (fun t => Cells.readAll t.buf 16 5 == [0xb2#8, 0xb7#8, 0xb4#8, 0xb1#8, 0x14#8]) = true := by decide

/-- 95_test_vectors.md section 2.3: CFB_DEC gives PHW back. -/
theorem test_decCfb_block :
    okAnd (exec .decCfb (running .decCfb 16 cfbHw)) (fun t => t.buf == bufOf phw) = true := by decide

/-- R165: CHAIN takes the ciphertext read. -/
theorem test_decCfb_chain :
    okAnd (exec .decCfb (running .decCfb 32 cfbHw)) (fun t => t.chain == blockOf cfbHw && t.bptr == 1) = true := by
  decide

/-- 95_test_vectors.md section 2.3: CBC_ENC of PHW. -/
theorem test_encCbc_block :
    okAnd (exec .encCbc (running .encCbc 16 phw)) (fun t => t.buf == bufOf cbcHw && statusWord t == 2#32) = true := by
  decide

/-- R163: LEN = 20 gives MALFORMED, STATUS 0x00000306. -/
theorem test_encCbc_malformed :
    okAnd (exec .encCbc (starting .encCbc 20 phw))
      (fun t => statusWord t == 0x00000306#32 && t.buf == bufOf phw) = true := by decide

/-- 95_test_vectors.md section 2.3: CBC_DEC gives PHW back. -/
theorem test_decCbc_block :
    okAnd (exec .decCbc (running .decCbc 16 cbcHw)) (fun t => t.buf == bufOf phw) = true := by decide

/-- R158: a decryption does not check IVFRESH, and LEN = BUF_BYTES is allowed. -/
theorem test_decCbc_start :
    okAnd (exec .decCbc { starting .decCbc 4096 [] with ivFresh := false })
      (fun t => t.phase == .run && t.chain == ivA) = true := by decide

/-- R231's example: STATUS 0x00000002, IRQEN unchanged. -/
theorem test_zeroize :
    okAnd (exec .zeroize { starting .zeroize 16 phw with doneIe := true })
      (fun t => statusWord t == 2#32 && t.buf == [] && t.iv == zeroBlock && t.doneIe && irq t) = true := by decide

/-- R232's example: word 3 ends in STATUS 0x00000706. -/
theorem test_reserved_word_step :
    okAnd (step { starting .init 0 [] with cur := 3#32 }) (fun t => statusWord t == 0x00000706#32) = true := by decide

/-- R34: CAP with the default parameters. -/
theorem test_cap : capWord Config.default = 0x07100100#32 := by decide

/-- The first word of LOADKEY K16 in 95_test_vectors.md program P1: WR KEY0, 0x04030201. -/
theorem test_key_lanes :
    okAnd (step (given [wrIn 0x00020#17 0x04030201#32] (State.resetWith toyCfg)))
      (fun t => t.key.toList.take 5 == [1#8, 2#8, 3#8, 4#8, 0#8]) = true := by decide

/-- A command placed by withFetchWord is accepted by the very next step. -/
theorem test_fetch_word :
    okAnd (step (State.reset.withFetchWord 32 8)) (fun t => t.busy && t.cur == encode .zeroize) = true := by decide

/-- An access at a platform address reaches the block's offset (R102). -/
theorem test_offset_of :
    offsetOf { Config.default with baseIndex := 2 } 0x50010 = some 0x10010#17 ∧
    offsetOf { Config.default with baseIndex := 2 } 0x60000 = none := by decide

/-- 95_test_vectors.md section 2.1: Pad and Unpad. -/
theorem test_padding :
    pad [1#8, 2#8, 3#8] 4 = [1#8, 2#8, 3#8, 1#8] ∧ pad [] 1 = [1#8] ∧ unpad [0xaa#8, 3#8, 2#8, 3#8] false = some [0xaa#8] ∧
    unpad [0xaa#8, 3#8, 2#8, 3#8] true = none ∧ unpad [2#8] false = none ∧ unpad [] false = none := by decide

/-! ## Witnesses: the step and acceptance -/

theorem witness_stepRunsDecodedCommand :
    ((loaded 0 []).busy = false ∧ decodeWord 0x6#32 = some .encCbc ∧
      (given [wrIn 0x00008#17 0x6#32] (loaded 0 [])).inputs = .access (.write 0x00008#17 .word 0x6#32) :: []) ∧
    ((running .encCbc 16 phw).busy = true ∧ decodeWord (running .encCbc 16 phw).cur = some .encCbc ∧
      (running .encCbc 16 phw).inputs = []) ∧
    (given [.turn] (running .encCbc 16 phw)).inputs = .turn :: [] := by decide

theorem witness_acceptanceStartsCommand : (loaded 0 []).busy = false ∧ Instr.geniv ≠ .clrstat := by decide

theorem witness_ctrlWriteAcceptance :
    (given [wrIn 0x00008#17 0#32] (loaded 0 [])).inputs = .access (.write 0x00008#17 .word 0#32) :: [] ∧
    (given [wrIn 0x00008#17 1#32] (loaded 0 [])).inputs = .access (.write 0x00008#17 .word 1#32) :: [] ∧
    (given [wrIn 0x00008#17 0#32] (loaded 0 [])).busy = false ∧
    (given [wrIn 0x00008#17 1#32] (starting .init 0 [])).busy = true ∧ (1#32 : Word) ≠ 0#32 := by decide

theorem witness_clrstatClearsStatus :
    (loaded 0 []).busy = false ∧
    (given [wrIn 0x00008#17 0#32] (loaded 0 [])).inputs = .access (.write 0x00008#17 .word 0x00000000#32) :: [] ∧
    (given [wrIn 0x00008#17 0#32] (starting .init 0 [])).busy = true := by decide

/-- The reserved words at the ends of their ranges. -/
theorem witness_reservedWordEndsInBadCmd :
    ∀ w ∈ [0x00000003#32, 0x00000009#32, 0x0000000F#32, 0x00000010#32, 0x80000000#32],
      (given [wrIn 0x00008#17 w] (loaded 0 [])).busy = false ∧
      (w.extractLsb' 4 28 ≠ 0#28 ∨ w.extractLsb' 0 4 = 0x3#4 ∨ 0x9#4 ≤ w.extractLsb' 0 4) ∧
      (given [wrIn 0x00008#17 w] (loaded 0 [])).inputs = [.access (.write 0x00008#17 .word w)] := by
  have h : ∀ w ∈ [0x00000003#32, 0x00000009#32, 0x0000000F#32, 0x00000010#32, 0x80000000#32],
      (w.extractLsb' 4 28 ≠ 0#28 ∨ w.extractLsb' 0 4 = 0x3#4 ∨ 0x9#4 ≤ w.extractLsb' 0 4) := by
    intro w hw
    simp only [List.mem_cons, List.not_mem_nil, or_false] at hw
    rcases hw with rfl | rfl | rfl | rfl | rfl <;> decide
  exact fun w hw => ⟨rfl, h w hw, rfl⟩

theorem witness_idleBlockStartsNothing :
    (loaded 0 []).busy = false ∧ (loaded 0 []).inputs = [] ∧ (given [.turn] (loaded 0 [])).inputs = .turn :: [] := by
  decide

/-! ## Witnesses: INIT and GENIV -/

/-- The three legal lengths, and lengths next to them. -/
theorem witness_initStep :
    (starting .init 0 []).busy = true ∧ (starting .init 0 []).phase = .check ∧
    ([16#32, 24#32, 32#32].all fun k => klenValid { starting .init 0 [] with klen := k }) = true ∧
    ([0#32, 15#32, 17#32, 23#32, 25#32, 31#32, 33#32].all fun k =>
      !klenValid { starting .init 0 [] with klen := k }) = true ∧
    klenValid { starting .init 0 [] with klen := 24#32, cfg := smallCfg } = false := by decide

/-- Each of GENIV's steps, with the IV byte index at the ends of its ranges. -/
theorem witness_genivSteps :
    ((starting .geniv 0 []).busy = true ∧ (starting .geniv 0 []).phase = .check ∧
      (starting .geniv 0 []).keyValid = true) ∧
    (starting .init 0 []).phase = .check ∧
    ((drawing 0 false []).busy = true ∧ (drawing 0 false []).phase = .run ∧ (drawing 0 false []).rngPend = false ∧
      (drawing 0 false []).ivptr < 16 ∧ (drawing 15 false []).ivptr < 16) ∧
    ((drawing 14 true [.byte 1#8]).rngPend = true ∧ nextAnswer (drawing 14 true [.byte 1#8]) = .byte 1#8 ∧
      (drawing 14 true [.byte 1#8]).ivptr + 1 ≠ 16) ∧
    (nextAnswer (drawing 15 true [.byte 1#8]) = .byte 1#8 ∧ (drawing 15 true [.byte 1#8]).ivptr + 1 = 16) ∧
    nextAnswer (drawing 0 true [.fail]) = .fail := by decide

/-- A GENIV at its start, with answers listed. -/
def genivStart (answers : List Answer) : State := { starting .geniv 0 [] with answers := answers }

theorem witness_genivDrawsSixteenBytes :
    let s := genivStart ((bytesFrom 0xA0 16).map .byte)
    s.busy = true ∧ s.phase = .check ∧ s.cur = encode .geniv ∧ s.inputs = [] ∧ s.keyValid = true ∧ s.rngPend = false ∧
      s.ivptr = 0 ∧ ∀ j, j < 16 → answerTo s j = .byte (ivA.toList.getD j 0#8) := by
  have h : ∀ j, j < 16 → ((bytesFrom 0xA0 16).map Answer.byte)[j]? = some (.byte (ivA.toList.getD j 0#8)) := by decide
  refine ⟨rfl, rfl, rfl, rfl, rfl, rfl, rfl, fun j hj => ?_⟩
  show (((bytesFrom 0xA0 16).map Answer.byte)[j]?).getD _ = _
  rw [h j hj]; rfl

/-- Fail at the first and at the last request. -/
theorem witness_genivFailsWithoutPartialIv :
    (let s := genivStart [.fail]
     s.busy = true ∧ s.phase = .check ∧ s.cur = encode .geniv ∧ s.inputs = [] ∧ s.keyValid = true ∧
      s.rngPend = false ∧ s.ivptr = 0 ∧ 0 < 16 ∧ answerTo s 0 = .fail) ∧
    (let s := genivStart ((bytesFrom 0xA0 15).map .byte ++ [.fail])
     15 < 16 ∧ (∀ j, j < 15 → answerTo s j = .byte ((bytesFrom 0xA0 15).getD j 0#8)) ∧ answerTo s 15 = .fail) := by
  decide

/-! ## Witnesses: the transforms -/

/-- The start step's checks, each as the first that applies, and the two ways through. LEN is at the ends of its
range. -/
theorem witness_transformStartStep :
    ((starting .encCbc 16 []).busy = true ∧ (starting .encCbc 16 []).phase = .check) ∧
    ({ starting .encCbc 16 [] with keyValid := false } : State).keyValid = false ∧
    ((starting .encCfb 4097 []).keyValid = true ∧ bufBytes toyCfg < (starting .encCfb 4097 []).len.toNat) ∧
    ((starting .encCbc 4095 []).len.toNat ≤ bufBytes toyCfg ∧ (starting .encCbc 4095 []).len.toNat % 16 ≠ 0) ∧
    ((starting .encCbc 4096 []).len.toNat ≤ bufBytes toyCfg ∧ (starting .encCbc 4096 []).len.toNat % 16 = 0 ∧
      ({ starting .encCbc 4096 [] with ivFresh := false } : State).ivFresh = false) ∧
    ((starting .encCbc 4096 []).ivFresh = true ∧ (starting .encCbc 4096 []).len.toNat ≠ 0) ∧
    (starting .encCbc 0 []).len.toNat = 0 := by decide

/-- A short last block, a full last block and a block that is not the last. -/
theorem witness_cfbBlockSteps :
    (let s := running .encCfb 1 [7#8]
     s.busy = true ∧ s.phase = .run ∧ Cells.wf s.buf = true ∧ s.len.toNat ≤ bufBytes s.cfg ∧
      s.bptr < ceilDiv16 s.len.toNat ∧ s.bptr + 1 = ceilDiv16 s.len.toNat) ∧
    (let s := running .decCfb 17 cfbHw
     s.busy = true ∧ s.phase = .run ∧ Cells.wf s.buf = true ∧ s.len.toNat ≤ bufBytes s.cfg ∧
      s.bptr < ceilDiv16 s.len.toNat ∧ s.bptr + 1 < ceilDiv16 s.len.toNat) := by decide

/-- The last block of a full buffer, and a block that is not the last; the block `c` of the statements is defined by an
equation. -/
theorem witness_cbcBlockSteps :
    (let s := { running .encCbc 4096 phw with bptr := 255 }
     s.busy = true ∧ s.phase = .run ∧ Cells.wf s.buf = true ∧ 16 * s.bptr + 16 ≤ bufBytes s.cfg ∧
      s.bptr < ceilDiv16 s.len.toNat ∧ s.bptr + 1 = ceilDiv16 s.len.toNat) ∧
    (let s := running .decCbc 32 cbcHw
     s.busy = true ∧ s.phase = .run ∧ Cells.wf s.buf = true ∧ 16 * s.bptr + 16 ≤ bufBytes s.cfg ∧
      s.bptr < ceilDiv16 s.len.toNat ∧ s.bptr + 1 < ceilDiv16 s.len.toNat ∧
      blockOf cbcHw = blockOf (Cells.readAll s.buf (16 * s.bptr) 16)) := by decide

/-- LEN 0, a short last segment and whole blocks. -/
theorem witness_transformComputesReferenceFunction :
    (let s := given [wrIn 0x00008#17 (encode (transformOf .cfb .encrypt))] (loaded 20 (bytesFrom 0 20))
     s.busy = false ∧ s.keyValid = true ∧ Cells.wf s.buf = true ∧
      s.inputs = [.access (.write 0x00008#17 .word (encode (transformOf .cfb .encrypt)))] ∧
      s.len.toNat ≤ bufBytes s.cfg ∧ s.ivFresh = true) ∧
    (let s := given [wrIn 0x00008#17 (encode (transformOf .cbc .decrypt))] (loaded 16 cbcHw)
     s.busy = false ∧ s.keyValid = true ∧ Cells.wf s.buf = true ∧ s.len.toNat ≤ bufBytes s.cfg ∧
      s.len.toNat % 16 = 0) ∧
    (loaded 0 []).len.toNat % 16 = 0 := by decide

theorem witness_zeroizeClearsEverything :
    (starting .zeroize 16 phw).busy = true ∧ (starting .zeroize 16 phw).phase = .check := by decide

/-- A block whose LEN a host could only have set with BUF_BYTES of another block: one block of BUF, two of LEN. -/
theorem witness_blockStepStopsOutsideBuf :
    (let s := { running .encCfb 17 phw with cfg := smallCfg, bptr := 1 }
     s.busy = true ∧ s.phase = .run ∧ s.bptr < ceilDiv16 s.len.toNat ∧
      bufBytes s.cfg < 16 * s.bptr + min 16 (s.len.toNat - 16 * s.bptr)) := by decide

/-! ## Witnesses: the bus -/

theorem witness_byteLanesLittleEndian :
    (3 < 4) ∧ (7 < 8 ∧ 31 < 32) ∧ (3 < 4 ∧ 15 < 16) ∧ Cells.wf (bufOf phw) = true := by decide

/-- Each kind of refused access, at the ends of its range. -/
theorem witness_badAccessIsBusError :
    (Width.half ≠ .word) ∧ ((0x00002#17 : Offset).toNat % 4 ≠ 0) ∧ ((0x0001C#17 : Offset).toNat = 0x1C) ∧
    (0x50 ≤ (0x00050#17 : Offset).toNat ∧ (0x0FFFC#17 : Offset).toNat < 0x10000) ∧
    (0x10000 + bufBytes toyCfg ≤ (0x11000#17 : Offset).toNat ∧ 0x10000 + bufBytes toyCfg ≤ (0x1FFFC#17 : Offset).toNat) ∧
    (given [rdIn 0x11000#17] (loaded 0 [])).inputs = .access (.read 0x11000#17 .word) :: [] := by decide

theorem witness_busyRule :
    (starting .init 0 []).busy = true ∧
    (given [rdIn 0x00008#17] (starting .init 0 [])).inputs = .access (.read 0x00008#17 .word) :: [] ∧
    (given [wrIn 0x00000#17 1#32] (starting .init 0 [])).inputs = .access (.write 0x00000#17 .word 1#32) :: [] ∧
    (given [rdIn 0x00000#17] (starting .init 0 [])).inputs = .access (.read 0x00000#17 .word) :: [] ∧
    (given [rdIn 0x00004#17] (starting .init 0 [])).inputs = .access (.read 0x00004#17 .word) :: [] ∧
    (given [rdIn 0x0000C#17] (starting .init 0 [])).inputs = .access (.read 0x0000C#17 .word) :: [] ∧
    (given [rdIn 0x00010#17] (starting .init 0 [])).inputs = .access (.read 0x00010#17 .word) :: [] ∧
    (given [wrIn 0x00010#17 1#32] (starting .init 0 [])).inputs = .access (.write 0x00010#17 .word 1#32) :: [] := by
  decide

/-- Each kind of read, at the ends of its range of offsets. -/
theorem witness_readsReturn :
    (loaded 0 []).busy = false ∧
    (∀ a ∈ [0x00000#17, 0x00004#17, 0x00008#17, 0x0000C#17, 0x00010#17, 0x00014#17, 0x00018#17, 0x00020#17, 0x0003C#17,
        0x00040#17, 0x0004C#17, 0x10000#17, 0x10FFC#17],
      (given [rdIn a] (loaded 0 [])).inputs = .access (.read a .word) :: []) ∧
    ((0x0003C#17 : Offset).toNat = 0x20 + 4 * 7) ∧ ((0x0004C#17 : Offset).toNat = 0x40 + 4 * 3) ∧
    (4 * 1023 < bufBytes toyCfg ∧ (0x10FFC#17 : Offset).toNat = 0x10000 + 4 * 1023) := ⟨rfl, fun _ _ => rfl, by decide⟩

/-- Each kind of write, at the ends of its range of offsets. -/
theorem witness_idleWritesStore :
    (loaded 0 []).busy = false ∧
    (∀ a ∈ [0x00000#17, 0x00004#17, 0x0000C#17, 0x00010#17, 0x00014#17, 0x00018#17, 0x00020#17, 0x0003C#17, 0x00040#17,
        0x0004C#17, 0x10000#17, 0x10FFC#17],
      (given [wrIn a 5#32] (loaded 0 [])).inputs = .access (.write a .word 5#32) :: []) ∧
    ((0x0003C#17 : Offset).toNat = 0x20 + 4 * 7) ∧ ((0x0004C#17 : Offset).toNat = 0x40 + 4 * 3) ∧
    (4 * 1023 < bufBytes toyCfg ∧ (0x10FFC#17 : Offset).toNat = 0x10000 + 4 * 1023) ∧
    Cells.wf (loaded 16 phw).buf = true := ⟨rfl, fun _ _ => rfl, by decide⟩

theorem witness_writtenWordReadsBack :
    (loaded 16 phw).busy = false ∧ Cells.wf (loaded 16 phw).buf = true ∧
    (given [wrIn 0x10FFC#17 5#32, rdIn 0x10FFC#17] (loaded 16 phw)).inputs =
      [.access (.write 0x10FFC#17 .word 5#32), .access (.read 0x10FFC#17 .word)] ∧
    (3 < 4 ∧ (0x0004C#17 : Offset).toNat = 0x40 + 4 * 3) ∧
    (4 * 1023 < bufBytes (loaded 16 phw).cfg ∧ (0x10FFC#17 : Offset).toNat = 0x10000 + 4 * 1023) := by decide

theorem witness_accessesAreIdempotent :
    Cells.wf (given [wrIn 0x00014#17 5#32, wrIn 0x00014#17 5#32] (loaded 16 phw)).buf = true ∧
    (∀ width w, Access.write 0x00014#17 .word 5#32 ≠ .write 0x00008#17 width w) ∧
    ∃ t, runSteps 2 (given [wrIn 0x00014#17 5#32, wrIn 0x00014#17 5#32] (loaded 16 phw)) = .next t := by
  refine ⟨by decide, by intro width w h; simp at h, ?_⟩
  exact (okAnd_next (f := fun _ => true) (by decide)).imp fun _ h => h.1

theorem witness_hiddenStateUnreadable :
    (given [rdIn 0x00020#17] (running .encCbc 16 phw)).inputs = .access (.read 0x00020#17 .word) :: [] := by decide

theorem witness_busyBlockShutsHostOut :
    (starting .init 0 []).busy = true ∧
    ∃ t, step (given [wrIn 0x00014#17 5#32] (starting .init 0 [])) = .next t ∧ (t.klen == 16#32) = true :=
  ⟨by decide, okAnd_next (by decide)⟩

/-! ## Witnesses: what alone changes a piece of state -/

theorem witness_keyValidSetOnlyByInit :
    ∃ t, step { starting .init 0 [] with keyValid := false } = .next t ∧ t.keyValid = true := okAnd_next (by decide)

theorem witness_ivFreshSetOnlyByGeniv :
    (drawing 15 true [.byte 1#8]).ivFresh = false ∧
    ∃ t, step (drawing 15 true [.byte 1#8]) = .next t ∧ t.ivFresh = true := ⟨by decide, okAnd_next (by decide)⟩

theorem witness_irqenChangedOnlyByHost :
    (∃ t, step (given [wrIn 0x00010#17 1#32] (loaded 0 [])) = .next t ∧ t.doneIe = true) ∧
    (∃ t, step (given [.reset] { loaded 0 [] with doneIe := true }) = .next t ∧ (!t.doneIe) = true) :=
  ⟨okAnd_next (by decide), okAnd_next (by decide)⟩

/-- A write, reset and ZEROIZE, for LEN and then for KLEN. -/
theorem witness_lengthsChangedOnlyBy :
    ((∃ t, step (given [wrIn 0x00018#17 5#32] (loaded 16 [])) = .next t ∧ (t.len != 16#32) = true) ∧
      (∃ t, step (given [.reset] (loaded 16 [])) = .next t ∧ (t.len != 16#32) = true) ∧
      (∃ t, step (starting .zeroize 16 []) = .next t ∧ (t.len != 16#32) = true)) ∧
    ((∃ t, step (given [wrIn 0x00014#17 5#32] (loaded 16 [])) = .next t ∧ (t.klen != 16#32) = true) ∧
      (∃ t, step (given [.reset] (loaded 16 [])) = .next t ∧ (t.klen != 16#32) = true) ∧
      (∃ t, step (starting .zeroize 16 []) = .next t ∧ (t.klen != 16#32) = true)) :=
  ⟨⟨okAnd_next (by decide), okAnd_next (by decide), okAnd_next (by decide)⟩,
    okAnd_next (by decide), okAnd_next (by decide), okAnd_next (by decide)⟩

theorem witness_statusStaysUntilCtrlWrite :
    (∃ t, step (given [wrIn 0x00008#17 0#32] { loaded 0 [] with done := true }) = .next t ∧ (!t.done) = true) ∧
    (∃ t, step (given [.reset] { loaded 0 [] with done := true }) = .next t ∧ (!t.done) = true) :=
  ⟨okAnd_next (by decide), okAnd_next (by decide)⟩

theorem witness_irqRisesAndFalls :
    (∃ t, step { starting .zeroize 16 phw with doneIe := true } = .next t ∧ irq t = true) ∧
    (∃ t, step (given [wrIn 0x00010#17 1#32] { loaded 0 [] with done := true }) = .next t ∧ irq t = true) ∧
    ((loaded 0 []).busy = false ∧
      (given [wrIn 0x00008#17 1#32] (loaded 0 [])).inputs = .access (.write 0x00008#17 .word 1#32) :: []) :=
  ⟨okAnd_next (by decide), okAnd_next (by decide), by decide⟩

theorem witness_requestsOnlyByGeniv :
    ∃ t, step (drawing 0 false []) = .next t ∧ (t.requests != (drawing 0 false []).requests) = true :=
  okAnd_next (by decide)

theorem witness_errorLeavesNoPartialResult :
    (starting .encCbc 20 phw).err = false ∧ ∃ t, step (starting .encCbc 20 phw) = .next t ∧ t.err = true :=
  ⟨by decide, okAnd_next (by decide)⟩

theorem witness_configurationIsFixed : ∃ t, step (starting .encCbc 20 phw) = .next t ∧ (t.cfg == toyCfg) = true :=
  okAnd_next (by decide)

/-- Reset in the middle of a GENIV, with a request outstanding and with none. -/
theorem witness_resetInOneStep :
    ((given [.reset] (drawing 5 true [.byte 1#8])).inputs = .reset :: [] ∧
      (drawing 5 true [.byte 1#8]).rngPend = true) ∧
    ((given [.reset] (drawing 5 false [.byte 1#8])).inputs = .reset :: [] ∧
      (drawing 5 false [.byte 1#8]).rngPend = false) := by
  decide

/-! ## Witnesses: the invariant -/

theorem inv_loaded : Inv (loaded 16 phw) :=
  ⟨⟨by decide, by decide, by decide, by decide⟩, ⟨by decide, by decide, by decide, by decide⟩, ⟨by decide, by decide⟩,
    ⟨by decide, by decide, by decide⟩, ⟨by decide, by decide, by decide⟩, ⟨by decide, by decide⟩⟩

theorem inv_running : Inv (running .encCbc 32 phw) :=
  ⟨⟨by decide, by decide, by decide, by decide⟩, ⟨by decide, by decide, by decide, by decide⟩, ⟨by decide, by decide⟩,
    ⟨by decide, by decide, by decide⟩, ⟨by decide, by decide, by decide⟩, ⟨by decide, by decide⟩⟩

theorem inv_drawing : Inv (drawing 15 true [.byte 1#8]) :=
  ⟨⟨by decide, by decide, by decide, by decide⟩, ⟨by decide, by decide, by decide, by decide⟩, ⟨by decide, by decide⟩,
    ⟨by decide, by decide, by decide⟩, ⟨by decide, by decide, by decide⟩, ⟨by decide, by decide⟩⟩

theorem witness_everyStepKeepsInvariant :
    (Inv (running .encCbc 32 phw) ∧ ∃ t, step (running .encCbc 32 phw) = .next t ∧ (t.bptr == 1) = true) ∧
    (Inv (drawing 15 true [.byte 1#8]) ∧ ∃ t, step (drawing 15 true [.byte 1#8]) = .next t ∧ t.ivFresh = true) :=
  ⟨⟨inv_running, okAnd_next (by decide)⟩, inv_drawing, okAnd_next (by decide)⟩

theorem witness_noStepStops : Inv (running .encCbc 32 phw) ∧ Inv (loaded 16 phw) := ⟨inv_running, inv_loaded⟩

theorem witness_everyCommandEnds :
    Inv (drawing 15 true [.byte 1#8]) ∧ (drawing 15 true [.byte 1#8]).busy = true ∧
      (drawing 15 true [.byte 1#8]).inputs = [] := ⟨inv_drawing, by decide⟩

/-! ## Witnesses: the modes and the host's contract -/

theorem witness_decryptionInvertsEncryption : phw.length % 16 = 0 := by decide

/-- A cut inside a block, a cut at a block's end, and the whole. -/
theorem witness_modesHavePrefixProperty :
    17 ≤ (phw ++ phw).length ∧ (16 ≤ (phw ++ phw).length ∧ 16 % 16 = 0 ∧ (phw ++ phw).length % 16 = 0) ∧
    32 ≤ (phw ++ phw).length := by decide

/-- The same byte of the next block, another byte of it, and a byte before the changed block. -/
theorem witness_cbcErrorSpread :
    ((cbcHw ++ cbcHw).length % 16 = 0 ∧ 15 < (cbcHw ++ cbcHw).length ∧ 31 < (cbcHw ++ cbcHw).length ∧
      31 / 16 ≠ 15 / 16 ∧ 31 = 15 + 16) ∧
    (16 < (cbcHw ++ cbcHw).length ∧ 16 / 16 ≠ 15 / 16 ∧ 16 ≠ 15 + 16) ∧
    (0 < (cbcHw ++ cbcHw).length ∧ 0 / 16 ≠ 31 / 16 ∧ 0 ≠ 31 + 16) := by decide

/-- The changed byte itself, another byte of its block, and a byte before it. -/
theorem witness_cfbErrorSpread :
    (15 < (cfbHw ++ cfbHw).length ∧ 15 / 16 ≠ 15 / 16 + 1) ∧ (0 < (cfbHw ++ cfbHw).length ∧ 0 / 16 ≠ 15 / 16 + 1) ∧
    (31 < (cfbHw ++ cfbHw).length ∧ 15 / 16 ≠ 31 / 16 + 1) := by decide

theorem witness_unpadInvertsPad : (1 ≤ 1 ∧ 1 ≤ 255) ∧ (1 ≤ 255 ∧ 255 ≤ 255) := by decide

theorem witness_cfbTamperingIsSeen : (0xFF#8 : Byte) ≠ 0#8 := by decide

/-- An idle block with answers listed. -/
def calling (c : Config) (answers : List Answer) : State := { State.resetWith c with answers := answers }

theorem inv_calling (c : Config) (answers : List Answer) : Inv (calling c answers) :=
  ⟨⟨by simp [calling, State.resetWith], by simp [calling, State.resetWith], by simp [calling, State.resetWith],
      by simp [calling, State.resetWith]⟩,
    ⟨by simp [calling, State.resetWith], by simp [calling, State.resetWith], by simp [calling, State.resetWith],
      by simp [calling, State.resetWith]⟩,
    ⟨by simp [calling, State.resetWith], fun h => absurd rfl h⟩,
    ⟨by simp [calling, State.resetWith], by simp [calling, State.resetWith], by simp [calling, State.resetWith]⟩,
    ⟨by simp [calling, State.resetWith], by simp [calling, State.resetWith], by simp [calling, State.resetWith]⟩,
    ⟨rfl, rfl⟩⟩

/-- The hypotheses of the wire format and of the round trip. -/
theorem witness_encryptFacadeWireFormat :
    Inv (calling toyCfg ((bytesFrom 0xA0 16).map .byte)) ∧
    (calling toyCfg ((bytesFrom 0xA0 16).map .byte)).busy = false ∧ inKeySizes toyCfg (bytesFrom 1 16).length = true ∧
    (pad (phw.take 10) 16).length ≤ bufBytes toyCfg ∧
    ∀ j, j < 16 → answerTo (calling toyCfg ((bytesFrom 0xA0 16).map .byte)) j = .byte (ivA.toList.getD j 0#8) :=
  ⟨inv_calling _ _, by decide⟩

theorem witness_facadeRoundTrip :
    Inv (calling smallCfg ((bytesFrom 0xA0 16).map .byte)) ∧
    (calling smallCfg ((bytesFrom 0xA0 16).map .byte)).busy = false ∧ inKeySizes smallCfg (bytesFrom 1 16).length = true ∧
    (pad (bytesFrom 0 15) 16).length ≤ bufBytes smallCfg ∧
    ∀ j, j < 16 → answerTo (calling smallCfg ((bytesFrom 0xA0 16).map .byte)) j = .byte (ivA.toList.getD j 0#8) :=
  ⟨inv_calling _ _, by decide⟩

/-- The source's key [1, 2, 3] and a key one byte too long for the KEY registers. -/
theorem witness_facadesRejectBadKeys :
    Inv (calling toyCfg []) ∧ (calling toyCfg []).busy = false ∧ inKeySizes toyCfg [1#8, 2#8, 3#8].length = false ∧
    inKeySizes toyCfg (bytesFrom 0 33).length = false := ⟨inv_calling _ _, by decide⟩

/-- Each error of a facade, at the ends of its range. -/
theorem witness_facadesReportErrors :
    Inv (calling smallCfg [.fail]) ∧ (calling smallCfg [.fail]).busy = false ∧
    inKeySizes smallCfg (bytesFrom 1 16).length = true ∧ bufBytes smallCfg < (pad (bytesFrom 0 16) 16).length ∧
    ((pad (bytesFrom 0 15) 16).length ≤ bufBytes smallCfg ∧ answerTo (calling smallCfg [.fail]) 0 = .fail) ∧
    ((∀ j, j < 15 → answerTo (calling smallCfg ((bytesFrom 0 15).map .byte ++ [.fail])) j = .byte (BitVec.ofNat 8 j)) ∧
      answerTo (calling smallCfg ((bytesFrom 0 15).map .byte ++ [.fail])) 15 = .fail) ∧
    (([] : List Byte).length = 0 ∧ (bytesFrom 0 17).length % 16 ≠ 0) ∧
    ((bytesFrom 0 48).length % 16 = 0 ∧ bufBytes smallCfg + 16 < (bytesFrom 0 48).length) ∧
    ((bytesFrom 0 16).length % 16 = 0 ∧ 16 ≤ (bytesFrom 0 16).length ∧
      (bytesFrom 0 16).length ≤ bufBytes smallCfg + 16) ∧
    ((bytesFrom 0 32).length % 16 = 0 ∧ 16 ≤ (bytesFrom 0 32).length ∧
      (bytesFrom 0 32).length ≤ bufBytes smallCfg + 16) :=
  ⟨inv_calling _ _, by decide⟩

/-- Both results of the last clause (95_test_vectors.md 2.3 and 2.13): a body that unpads, one that does not, and the
empty body of a 16-byte ciphertext. -/
theorem witness_facadesReportErrors_unpad :
    unpad (modeDec .cbc (cipherOf .toy (bytesFrom 1 16)) (blockOf ((bytesFrom 0xA0 16 ++ cbcHw).take 16))
      ((bytesFrom 0xA0 16 ++ cbcHw).drop 16)) false = some (phw.take 10) ∧
    unpad (modeDec .cbc (cipherOf .toy (bytesFrom 1 16)) (blockOf ((bytesFrom 0xA0 16 ++ rep 16 0x11#8).take 16))
      ((bytesFrom 0xA0 16 ++ rep 16 0x11#8).drop 16)) false = none ∧
    unpad (modeDec .cfb (cipherOf .toy (bytesFrom 1 16)) (blockOf ((bytesFrom 0xA0 16).take 16))
      ((bytesFrom 0xA0 16).drop 16)) true = none := by decide

theorem witness_facadesLeaveNothing :
    Inv (calling smallCfg []) ∧ (calling smallCfg []).busy = false ∧ (bytesFrom 0 32).length ≤ 32 ∧
    32 < (bytesFrom 0 33).length := ⟨inv_calling _ _, by decide⟩

/-! ## Host programs (30_encoding.md R129, 45_host_facade.md R260) -/

/-- The action ended, with `f` of the state and the result. -/
def endedAnd {α : Type} (r : HostRun α) (f : State → α → Bool) : Bool :=
  match r with
  | .next (t, some a) => f t a
  | .next (_, none) => false
  | .fault _ => false
  | .refused _ => false

/-- A POLL of another register, field and value: CAP.BSIZE is 16 (10_state.md R34), at the first read. -/
theorem test_poll_cap :
    endedAnd (runOps { gap := 0, reads := 3 } [.poll .cap fieldBsize 16#32] State.reset) (fun _ xs =>
      decide (xs = [.readOk 0x07100100#32])) = true := by decide

/-- A POLL whose value does not come has no result, and no later line of the program runs. -/
theorem test_poll_goes_on :
    runOps { gap := 0, reads := 2 } [.poll .status fieldDone 1#32, .wr .len 5#32] State.reset =
      .next ({ State.reset with reply := some (.readOk 0#32) }, none) := rfl

/-- INIT waited for by irq: IRQEN is set, irq is seen, and STATUS then reads DONE and KEYVALID (0xA). -/
theorem test_wait_for_irq :
    endedAnd (run .interrupt .init { loaded 0 [] with keyValid := false, ivFresh := false }) (fun t w =>
      t.doneIe && irq t && decide (w = 0x0000000A#32)) = true := by decide

/-- A run whose last line issues GENIV: left right after it, it is not finished (BUSY = 1); followed to the sixteenth
byte, it has ended, idle, with the line's OK as its responses (70_reset_and_hazards.md R354). -/
theorem test_run_ends_idle :
    runProgram { gap := 0, reads := 0 } 0 (cmdOps .geniv) (loaded 0 []) =
        .next ({ accept (encode .geniv) (loaded 0 []) with reply := some .writeOk }, none) ∧
    endedAnd (runProgram { gap := 0, reads := 0 } 33 (cmdOps .geniv)
        { loaded 0 [] with answers := (bytesFrom 0xA0 16).map .byte }) (fun t xs =>
      !t.busy && !t.rngPend && t.ivFresh && decide (xs = [.writeOk])) = true := ⟨rfl, by decide⟩

end Sys2Proof.Tests
end

/-! ## The reference functions block by block (R152 to R155), and decryption after encryption (R167) -/

namespace Sys2Proof.Machine

/-- Appended segments come apart again at byte 16, if only the last segment is short. -/
theorem take_drop_append_segment {c rest : List Byte} (hc : c.length ≤ 16) (hr : c.length < 16 → rest = []) :
    (c ++ rest).take 16 = c ∧ (c ++ rest).drop 16 = rest := by
  rcases Nat.lt_or_eq_of_le hc with hlt | heq
  · simp [hr hlt, hc]
  · exact ⟨List.take_left' heq, List.drop_left' heq⟩

variable (e : Equiv.Perm Block)

/-- One block of CFB encryption; XOR cuts the cipher's output to the segment by itself (R154). -/
theorem cfbEncBlocks_succ (n : Nat) (x : Block) (p : List Byte) :
    cfbEncBlocks e (n + 1) x p =
      xorBytes (p.take 16) (e x).toList ++
        cfbEncBlocks e n (blockOf (xorBytes (p.take 16) (e x).toList)) (p.drop 16) := by
  simp only [cfbEncBlocks, xorBytes_take_right]

/-- One block of CFB decryption (R155). -/
theorem cfbDecBlocks_succ (n : Nat) (x : Block) (c : List Byte) :
    cfbDecBlocks e (n + 1) x c =
      xorBytes (c.take 16) (e x).toList ++ cfbDecBlocks e n (blockOf (c.take 16)) (c.drop 16) := by
  simp only [cfbDecBlocks, xorBytes_take_right]

@[simp] theorem length_cbcEncBlocks (n : Nat) (prev : Block) (p : List Byte) :
    (cbcEncBlocks e n prev p).length = 16 * n := by
  induction n generalizing prev p with
  | zero => rfl
  | succ n ih => rw [cbcEncBlocks, List.length_append, ih, length_toList_block]; omega

@[simp] theorem length_cfbEncBlocks (n : Nat) (x : Block) (p : List Byte) :
    (cfbEncBlocks e n x p).length = min (16 * n) p.length := by
  induction n generalizing x p with
  | zero => simp [cfbEncBlocks]
  | succ n ih =>
    rw [cfbEncBlocks_succ, List.length_append, ih, length_xorBytes, length_toList_block, List.length_take,
      List.length_drop]
    omega

/-- CBC, for `n` whole blocks: each block read is the ciphertext block written, so both sides chain the same block. -/
theorem cbcDecBlocks_cbcEncBlocks (n : Nat) (prev : Block) (p : List Byte) (hp : p.length = 16 * n) :
    cbcDecBlocks e n prev (cbcEncBlocks e n prev p) = p := by
  induction n generalizing prev p with
  | zero => exact (List.eq_nil_of_length_eq_zero hp).symm
  | succ n ih =>
    have hx : (xorBytes (p.take 16) prev.toList).length = 16 := by
      rw [length_xorBytes, List.length_take, length_toList_block]; omega
    rw [cbcEncBlocks, cbcDecBlocks, List.take_left' (length_toList_block _), List.drop_left' (length_toList_block _),
      blockOf_toList, Equiv.symm_apply_apply, toList_blockOf hx, xorBytes_cancel (by simp),
      ih _ _ (by rw [List.length_drop]; omega), List.take_append_drop]

/-- CFB, for at most `n` blocks: each segment read is the ciphertext segment written, and XOR with the same cipher
output takes it back. -/
theorem cfbDecBlocks_cfbEncBlocks (n : Nat) (x : Block) (p : List Byte) (hp : p.length ≤ 16 * n) :
    cfbDecBlocks e n x (cfbEncBlocks e n x p) = p := by
  induction n generalizing x p with
  | zero => exact (List.eq_nil_of_length_eq_zero (by omega)).symm
  | succ n ih =>
    rw [cfbEncBlocks_succ]
    set c := xorBytes (p.take 16) (e x).toList with hc
    have hlen : c.length = min 16 p.length := by simp [hc]
    obtain ⟨htake, hdrop⟩ := take_drop_append_segment (c := c) (rest := cfbEncBlocks e n (blockOf c) (p.drop 16))
      (by omega) fun hlt => List.eq_nil_of_length_eq_zero (by
        rw [length_cfbEncBlocks, List.length_drop]; omega)
    rw [cfbDecBlocks_succ, htake, hdrop, ih _ _ (by rw [List.length_drop]; omega), hc,
      xorBytes_cancel (by simp), List.take_append_drop]

variable (iv : Block) (p : List Byte)

@[simp] theorem length_cfbEnc : (cfbEnc e iv p).length = p.length := by
  rw [cfbEnc, length_cfbEncBlocks, ceilDiv16]; omega

theorem length_cbcEnc (hp : p.length % 16 = 0) : (cbcEnc e iv p).length = p.length := by
  rw [cbcEnc, length_cbcEncBlocks, ceilDiv16]; omega

theorem cfbDec_cfbEnc : cfbDec e iv (cfbEnc e iv p) = p := by
  rw [cfbDec, length_cfbEnc]
  exact cfbDecBlocks_cfbEncBlocks e _ iv p (by unfold ceilDiv16; omega)

theorem cbcDec_cbcEnc (hp : p.length % 16 = 0) : cbcDec e iv (cbcEnc e iv p) = p := by
  rw [cbcDec, length_cbcEnc e iv p hp]
  exact cbcDecBlocks_cbcEncBlocks e _ iv p (by unfold ceilDiv16; omega)

end Sys2Proof.Machine

/-! ## What a step runs and when it answers a next state (R20, R21, R36, R50) -/

namespace Sys2Proof

open Sys2Proof.Machine

/-- R122: the decoder answers a command for its own word only. -/
theorem decodeWord_eq_some {w : Word} {i : Instr} : decodeWord w = some i ↔ w = encode i := by
  constructor
  · intro h
    unfold decodeWord at h
    split at h
    · rename_i hr
      have hc : ∀ c, decodeCmd c = some i → c.setWidth 32 = encode i := by cases i <;> decide
      rw [word_of_fields w, hr, hc _ h]
      cases i <;> rfl
    · cases h
  · rintro rfl
    cases i <;> rfl

variable {s : State}

/-- A host write that reaches CTRL while BUSY = 0 issues its word, with the OK response (R36, R89). -/
theorem busWrite_ctrl (w : Word) (hb : s.busy = false) :
    busWrite 0x00008#17 .word w s = issue w { s with reply := some .writeOk } := by
  have hr : reach s.cfg .word 0x00008#17 = some .ctrl := rfl
  simp [busWrite, hr, hb, writeTarget]

theorem issue_of_decoded {w : Word} {i : Instr} (hd : decodeWord w = some i) : issue w s = exec i s := by
  simp [issue, hd]

theorem blockTurn_of_decoded {i : Instr} (hb : s.busy = true) (hd : decodeWord s.cur = some i) :
    blockTurn s = exec i s := by
  simp [blockTurn, hb, hd]

/-- A CTRL write while BUSY = 0 never stops, whatever its word: it is an acceptance. -/
theorem issue_answers (w : Word) (hb : s.busy = false) : ∃ t, issue w s = .next t := by
  cases hd : decodeWord w with
  | none => exact ⟨accept w s, by simp [issue, hd]⟩
  | some i => exact ⟨_, (issue_of_decoded hd).trans (exec_idle i hb)⟩

/-- No host write stops the machine: CTRL is reached only while BUSY = 0 (R90). -/
theorem busWrite_answers (addr : Offset) (width : Width) (w : Word) (s : State) :
    ∃ t, busWrite addr width w s = .next t := by
  unfold busWrite
  split
  · exact ⟨_, rfl⟩
  · rename_i g _
    split
    · exact ⟨_, rfl⟩
    · rename_i hb
      cases g with
      | ctrl => exact issue_answers w (by simpa [writableBusy] using hb)
      | _ => exact ⟨_, rfl⟩

/-- A start step never stops, so a command's step answers a next state where its step in PHASE RUN does. -/
theorem commandStep_answers {i : Instr} {check : State → State} {run : State → Result}
    (hr : s.phase = .run → ∃ t, run s = .next t) :
    ∃ t, commandStep i (fun s => .next (check s)) run s = .next t := by
  unfold commandStep
  split
  · split
    · exact ⟨_, rfl⟩
    · exact ⟨_, rfl⟩
    · rename_i hp
      exact hr hp
  · exact ⟨_, rfl⟩

theorem reservedStep_answers (s : State) : ∃ t, reservedStep s = .next t := by
  unfold reservedStep
  cases s.phase <;> exact ⟨_, rfl⟩

/-- The segment a running transform processes next lies inside BUF (R20). -/
theorem TransformInv.segment_inside (ht : TransformInv s) (hp : s.phase = .run) (hc : curIsAnyTransform s) :
    s.bptr < blockCount s ∧ 16 * s.bptr + segmentLen s ≤ bufBytes s.cfg := by
  obtain ⟨_, hlen, hleft⟩ := ht.running hp hc
  exact ⟨hleft, (segmentLen_bounds hleft hlen).1⟩

/-- The whole block a running CBC transform processes next lies inside BUF (R20). -/
theorem TransformInv.block_inside (ht : TransformInv s) (hp : s.phase = .run) (hc : curIsTransform .cbc s) :
    s.bptr < blockCount s ∧ 16 * s.bptr + 16 ≤ bufBytes s.cfg := by
  obtain ⟨hleft, hin⟩ := ht.segment_inside hp (.inr hc)
  exact ⟨hleft, segmentLen_of_dvd hleft (ht.wholeBlocks hp hc) ▸ hin⟩

/-- The invariant speaks of no pending input. -/
theorem TransformInv.setInputs (ht : TransformInv s) (rest : List Input) : TransformInv { s with inputs := rest } :=
  ⟨ht.running, ht.wholeBlocks, ht.bptrBound⟩

theorem blockStep_answers {r : Nat} {f : List Byte → List Byte × Block}
    (h : s.bptr < blockCount s ∧ 16 * s.bptr + r ≤ bufBytes s.cfg) : ∃ t, blockStep r f s = .next t :=
  ⟨_, blockStep_of_inside h.1 h.2⟩

/-- No step of the command in CUR stops: a transform's BufRead stays inside BUF, and no other command reads BUF. -/
theorem exec_answers {i : Instr} (hcur : s.cur = encode i) (ht : TransformInv s) : ∃ t, exec i s = .next t := by
  cases i with
  | clrstat => exact commandStep_answers (check := id) fun _ => ⟨_, rfl⟩
  | init => exact commandStep_answers fun _ => ⟨_, rfl⟩
  | geniv => exact commandStep_answers (run := fun s => .next (genivRun s)) fun _ => ⟨_, rfl⟩
  | encCfb => exact commandStep_answers fun hp => blockStep_answers (ht.segment_inside hp (.inl (.inl hcur)))
  | decCfb => exact commandStep_answers fun hp => blockStep_answers (ht.segment_inside hp (.inl (.inr hcur)))
  | encCbc => exact commandStep_answers fun hp => blockStep_answers (ht.block_inside hp (.inl hcur))
  | decCbc => exact commandStep_answers fun hp => blockStep_answers (ht.block_inside hp (.inr hcur))
  | zeroize => exact commandStep_answers fun _ => ⟨_, rfl⟩

/-- No turn of the block stops. -/
theorem blockTurn_answers (ht : TransformInv s) : ∃ t, blockTurn s = .next t := by
  unfold blockTurn
  split
  · split
    · rename_i hd
      exact exec_answers (decodeWord_eq_some.mp hd) ht
    · exact reservedStep_answers s
  · exact ⟨_, rfl⟩

end Sys2Proof

/-! ## The statements of the scope -/

namespace Sys2Proof

open Sys2Proof.Machine

/-- Settles O46, over what the step takes next: an access or a reset answers from every state, a turn of the block by
the invariant of a running transform. -/
theorem noStepStops : Obligations.NoStepStops := by
  unfold Obligations.NoStepStops
  intro s hs
  match hi : s.inputs with
  | [] => rw [step_of_nil hi]; exact blockTurn_answers hs.transform
  | .turn :: rest => rw [step_of_turn hi]; exact blockTurn_answers (hs.transform.setInputs rest)
  | .access (.read addr width) :: rest => exact ⟨_, step_of_access hi⟩
  | .access (.write addr width w) :: rest => rw [step_of_access hi]; exact busWrite_answers addr width w _
  | .reset :: rest => exact ⟨_, step_of_reset hi⟩

/-- Settles O49, mode by mode. -/
theorem decryptionInvertsEncryption : Obligations.DecryptionInvertsEncryption := by
  unfold Obligations.DecryptionInvertsEncryption
  exact fun e iv p => ⟨cbcDec_cbcEnc e iv p, cfbDec_cfbEnc e iv p⟩

/-- Settles O5: an accepted write to CTRL issues the word, and a turn runs the command in CUR. -/
theorem stepRunsDecodedCommand : Obligations.StepRunsDecodedCommand := by
  unfold Obligations.StepRunsDecodedCommand
  refine ⟨fun s w i rest hb hd hi => ?_, fun s i hb hd hi => ?_, fun s i rest hb hd hi => ?_⟩
  · calc
      step s = busWrite 0x00008#17 .word w { s with inputs := rest } := step_of_access hi
      _ = issue w { s with inputs := rest, reply := some .writeOk } := busWrite_ctrl w hb
      _ = exec i { s with inputs := rest, reply := some .writeOk } := issue_of_decoded hd
  · exact (step_of_nil hi).trans (blockTurn_of_decoded hb hd)
  · exact (step_of_turn hi).trans (blockTurn_of_decoded hb hd)

/-- Settles O47: CFB reads the block's segment, CBC the whole block, which reaches at least as far. -/
theorem blockStepStopsOutsideBuf : Obligations.BlockStepStopsOutsideBuf := by
  unfold Obligations.BlockStepStopsOutsideBuf
  intro s hb hp hleft hout
  have hblock : bufBytes s.cfg < 16 * s.bptr + 16 := by omega
  exact ⟨(exec_encCfb_run hb hp).trans (blockStep_of_outside hleft hout),
    (exec_decCfb_run hb hp).trans (blockStep_of_outside hleft hout),
    (exec_encCbc_run hb hp).trans (blockStep_of_outside hleft hblock),
    (exec_decCbc_run hb hp).trans (blockStep_of_outside hleft hblock)⟩

end Sys2Proof

/-! ## What one step can be, case by case (R21, R36, R51) -/

namespace Sys2Proof

open Sys2Proof.Machine

/-- The states one turn of the block leads to from `s`, each with the step of the rules that leads there and the guards
it passed. -/
inductive TurnTo (s : State) : State → Prop
  /-- No step of the engine or of the source is enabled. -/
  | stay : TurnTo s s
  /-- A start step's check fails (R157, R158, R205, R232). -/
  | error (c : ECode) (busy : s.busy = true) (phase : s.phase = .check) (code : c ≠ .none) : TurnTo s (raiseErr c s)
  /-- INIT accepts the key length (R157). -/
  | keyInit (busy : s.busy = true) (phase : s.phase = .check) (cur : s.cur = encode .init)
      (legal : klenValid s = true) : TurnTo s (complete { s with keyValid := true })
  /-- ZEROIZE's step (R231). -/
  | zeroized (busy : s.busy = true) (phase : s.phase = .check) (cur : s.cur = encode .zeroize) :
      TurnTo s (zeroizeCheck s)
  /-- GENIV starts (R205). -/
  | genivStart (busy : s.busy = true) (phase : s.phase = .check) (cur : s.cur = encode .geniv)
      (key : s.keyValid = true) : TurnTo s { s with ivFresh := false, phase := .run }
  /-- GENIV issues a request (R202). -/
  | request (busy : s.busy = true) (phase : s.phase = .run) (cur : s.cur = encode .geniv) (free : s.rngPend = false)
      (left : s.ivptr < 16) : TurnTo s (requestByte s)
  /-- The source answers with a byte that is not the last (R205). -/
  | byte (b : Byte) (busy : s.busy = true) (phase : s.phase = .run) (cur : s.cur = encode .geniv)
      (pending : s.rngPend = true) (left : s.ivptr ≠ 15) : TurnTo s { s with
        answers := s.answers.tail, rngPend := false, iv := s.iv.setIfInBounds s.ivptr b, ivptr := s.ivptr + 1 }
  /-- The source answers with the sixteenth byte (R205). -/
  | lastByte (b : Byte) (busy : s.busy = true) (phase : s.phase = .run) (cur : s.cur = encode .geniv)
      (pending : s.rngPend = true) (last : s.ivptr = 15) : TurnTo s { s with
        answers := s.answers.tail, rngPend := false, iv := s.iv.setIfInBounds 15 b, ivptr := 16
        ivFresh := true, busy := false, done := true, phase := .idle }
  /-- The source answers Fail (R208). -/
  | noByte (busy : s.busy = true) (phase : s.phase = .run) (cur : s.cur = encode .geniv) (pending : s.rngPend = true) :
      TurnTo s (raiseErr .randomSource { s with answers := s.answers.tail, rngPend := false, iv := zeroBlock })
  /-- A transform's checks pass and LEN is 0 (R158). -/
  | emptyTransform (m : Mode) (d : Dir) (busy : s.busy = true) (phase : s.phase = .check)
      (cur : s.cur = encode (transformOf m d)) : TurnTo s (transformDone { s with chain := s.iv, phase := .run })
  /-- A transform's checks pass and a block is left (R158). -/
  | transformStart (m : Mode) (d : Dir) (busy : s.busy = true) (phase : s.phase = .check)
      (cur : s.cur = encode (transformOf m d)) (key : s.keyValid = true) (fits : s.len.toNat ≤ bufBytes s.cfg)
      (whole : m = .cbc → s.len.toNat % 16 = 0) (nonzero : s.len.toNat ≠ 0) :
      TurnTo s { s with chain := s.iv, phase := .run }
  /-- A block step that is not the last (R156, R165). -/
  | block (m : Mode) (d : Dir) (out : List Byte) (c : Block) (busy : s.busy = true) (phase : s.phase = .run)
      (cur : s.cur = encode (transformOf m d)) (left : s.bptr + 1 < blockCount s)
      (inside : 16 * s.bptr + out.length ≤ bufBytes s.cfg) :
      TurnTo s { s with buf := Cells.writeAll s.buf (16 * s.bptr) out, chain := c, bptr := s.bptr + 1 }
  /-- A transform's last block step (R159). -/
  | lastBlock (m : Mode) (d : Dir) (out : List Byte) (busy : s.busy = true) (phase : s.phase = .run)
      (cur : s.cur = encode (transformOf m d)) (last : s.bptr + 1 = blockCount s)
      (inside : 16 * s.bptr + out.length ≤ bufBytes s.cfg) :
      TurnTo s { s with
        buf := Cells.writeAll s.buf (16 * s.bptr) out, bptr := s.bptr + 1, key := zeroKey, keyValid := false
        ivFresh := false, chain := zeroBlock, busy := false, done := true, phase := .idle }

/-- The states one step leads to from `s`; `rest` are the inputs still pending after it. -/
inductive StepTo (s : State) : State → Prop
  /-- A turn of the block. -/
  | turn (rest : List Input) {t : State} (turn : TurnTo { s with inputs := rest } t) : StepTo s t
  /-- A read, an ignored write or a bus error: only the response (R82 to R90). -/
  | answered (rest : List Input) (r : Reply) : StepTo s { s with inputs := rest, reply := some r }
  /-- A write to IRQEN (R43). -/
  | irqen (w : Word) (rest : List Input) (first : s.inputs = .access (.write 0x00010#17 .word w) :: rest) :
      StepTo s { s with inputs := rest, reply := some .writeOk, doneIe := w.getLsbD 0 }
  /-- An accepted write to CTRL (R36). -/
  | ctrl (w v : Word) (rest : List Input) (idle : s.busy = false)
      (first : s.inputs = .access (.write 0x00008#17 .word w) :: rest) :
      StepTo s (accept v { s with inputs := rest, reply := some .writeOk })
  /-- A write to KLEN (R44, R58). -/
  | klen (w : Word) (rest : List Input) (idle : s.busy = false)
      (first : s.inputs = .access (.write 0x00014#17 .word w) :: rest) :
      StepTo s { s with inputs := rest, reply := some .writeOk, klen := w, keyValid := false }
  /-- A write to LEN (R45). -/
  | len (w : Word) (rest : List Input) (idle : s.busy = false)
      (first : s.inputs = .access (.write 0x00018#17 .word w) :: rest) :
      StepTo s { s with inputs := rest, reply := some .writeOk, len := w }
  /-- A write to KEYi (R46, R58). -/
  | key (i : Nat) (w : Word) (rest : List Input) (idle : s.busy = false) :
      StepTo s { s with inputs := rest, reply := some .writeOk, key := putWord s.key i w, keyValid := false }
  /-- A write to IVi (R47, R58). -/
  | iv (i : Nat) (w : Word) (rest : List Input) (idle : s.busy = false) :
      StepTo s { s with inputs := rest, reply := some .writeOk, iv := putWord s.iv i w, ivFresh := false }
  /-- A write to the BUF window (R48). -/
  | buf (i : Nat) (w : Word) (rest : List Input) (idle : s.busy = false) (inside : 4 * i + 4 ≤ bufBytes s.cfg) :
      StepTo s (bufWrite { s with inputs := rest, reply := some .writeOk } (4 * i)
        [laneByte w 0, laneByte w 1, laneByte w 2, laneByte w 3])
  /-- Reset (R340). -/
  | reset (rest : List Input) (first : s.inputs = .reset :: rest) : StepTo s (resetBlock { s with inputs := rest })

variable {s t : State}

theorem turnTo_initCheck (hb : s.busy = true) (hp : s.phase = .check) (hc : s.cur = encode .init) :
    TurnTo s (initCheck s) := by
  unfold initCheck
  split
  · rename_i hk; exact .keyInit hb hp hc hk
  · exact .error _ hb hp (by decide)

theorem turnTo_genivCheck (hb : s.busy = true) (hp : s.phase = .check) (hc : s.cur = encode .geniv) :
    TurnTo s (genivCheck s) := by
  unfold genivCheck
  split
  · rename_i hk; exact .genivStart hb hp hc hk
  · exact .error _ hb hp (by decide)

theorem turnTo_transformStart {m : Mode} {d : Dir} (hb : s.busy = true) (hp : s.phase = .check)
    (hc : s.cur = encode (transformOf m d)) : TurnTo s (Machine.transformStart m d s) := by
  rcases transformStart_cases m d s with ⟨c, hn, -, h⟩ | ⟨hk, hl, hm, -, ⟨-, h⟩ | ⟨h0, h⟩⟩
  · exact h ▸ .error c hb hp hn
  · exact h ▸ .emptyTransform m d hb hp hc
  · exact h ▸ .transformStart m d hb hp hc hk hl hm h0

theorem turnTo_genivRun (hb : s.busy = true) (hp : s.phase = .run) (hc : s.cur = encode .geniv) :
    TurnTo s (genivRun s) := by
  rcases genivRun_cases s with ⟨-, -, h⟩ | ⟨hr, hi, h⟩ | ⟨hr, b, -, hi, h⟩ | ⟨hr, b, -, hi, h⟩ | ⟨hr, -, h⟩
  · rw [h]; exact .stay
  · exact h ▸ .request hb hp hc hr hi
  · exact h ▸ .byte b hb hp hc hr hi
  · exact h ▸ .lastByte b hb hp hc hr hi
  · exact h ▸ .noByte hb hp hc hr

theorem turnTo_finishBlock {m : Mode} {d : Dir} {out : List Byte} (c : Block) (hb : s.busy = true) (hp : s.phase = .run)
    (hc : s.cur = encode (transformOf m d)) (hn : s.bptr < blockCount s)
    (hr : 16 * s.bptr + out.length ≤ bufBytes s.cfg) : TurnTo s (finishBlock out c s) := by
  by_cases hlast : s.bptr + 1 = blockCount s
  · exact finishBlock_of_last out c hlast ▸ .lastBlock m d out hb hp hc hlast hr
  · exact finishBlock_of_not_last out c hlast ▸ .block m d out c hb hp hc (by omega) hr

/-- Everything one turn of the block can be. -/
theorem turnTo_of_blockTurn (h : blockTurn s = .next t) : TurnTo s t := by
  have hcur {i : Instr} (hd : decodeWord s.cur = some i) : s.cur = encode i := decodeWord_eq_some.mp hd
  rcases blockTurn_next h with rfl | ⟨hb, ⟨hp, h⟩ | ⟨hp, h⟩⟩
  · exact .stay
  · rcases h with ⟨hd, rfl⟩ | ⟨hd, rfl⟩ | ⟨m, d, hd, rfl⟩ | ⟨hd, rfl⟩ | ⟨-, rfl⟩
    · exact turnTo_initCheck hb hp (hcur hd)
    · exact turnTo_genivCheck hb hp (hcur hd)
    · exact turnTo_transformStart hb hp (hcur hd)
    · exact .zeroized hb hp (hcur hd)
    · exact .error _ hb hp (by decide)
  · rcases h with ⟨hd, rfl⟩ | ⟨m, d, hd, hn, out, c, hr, rfl⟩
    · exact turnTo_genivRun hb hp (hcur hd)
    · exact turnTo_finishBlock c hb hp (hcur hd) hn hr

/-- Everything one step can be. -/
theorem stepTo_of_step (h : step s = .next t) : StepTo s t := by
  rcases step_next h with ⟨hi, h⟩ | ⟨rest, -, h⟩ | ⟨addr, width, rest, hi, rfl⟩ | ⟨addr, width, w, rest, hi, h⟩ |
    ⟨rest, hi, rfl⟩
  · have hs : s = { s with inputs := [] } := by rw [← hi]
    exact .turn [] (turnTo_of_blockTurn (hs ▸ h))
  · exact .turn rest (turnTo_of_blockTurn h)
  · unfold busRead
    split
    · exact .answered rest _
    · split <;> exact .answered rest _
  · rcases busWrite_next h with ⟨r, rfl⟩ | ⟨rfl, rfl, rfl⟩ | ⟨hb, ⟨rfl, rfl, v, rfl⟩ | ⟨rfl, rfl, rfl⟩ | ⟨rfl, rfl, rfl⟩ |
      ⟨i, -, rfl⟩ | ⟨i, -, rfl⟩ | ⟨i, hin, rfl⟩⟩
    · exact .answered rest r
    · exact .irqen w rest hi
    · exact .ctrl w v rest hb hi
    · exact .klen w rest hb hi
    · exact .len w rest hb hi
    · exact .key i w rest hb
    · exact .iv i w rest hb
    · exact .buf i w rest hb hin
  · exact .reset rest hi

end Sys2Proof

/-! ## Every step keeps the invariant (R36 to R54, R310, R311) -/

namespace Sys2Proof

open Sys2Proof.Machine

variable {s t : State}

theorem encode_geniv_ne_transform (m : Mode) (d : Dir) : encode .geniv ≠ encode (transformOf m d) := by
  cases m <;> cases d <;> decide

theorem curIsTransform_iff {m : Mode} : curIsTransform m s ↔ ∃ d, s.cur = encode (transformOf m d) := by
  constructor
  · rintro (h | h)
    · exact ⟨_, h⟩
    · exact ⟨_, h⟩
  · rintro ⟨d, h⟩
    cases d
    · exact .inl h
    · exact .inr h

theorem curIsAnyTransform_iff : curIsAnyTransform s ↔ ∃ m d, s.cur = encode (transformOf m d) := by
  constructor
  · rintro (h | h)
    · exact ⟨_, curIsTransform_iff.mp h⟩
    · exact ⟨_, curIsTransform_iff.mp h⟩
  · rintro ⟨m, h⟩
    cases m
    · exact .inl (curIsTransform_iff.mpr h)
    · exact .inr (curIsTransform_iff.mpr h)

theorem not_transform_of_geniv (hc : s.cur = encode .geniv) : ¬ curIsAnyTransform s := by
  intro h
  obtain ⟨m, d, h⟩ := curIsAnyTransform_iff.mp h
  exact encode_geniv_ne_transform m d (hc.symm.trans h)

theorem mode_of_curIsTransform {m m' : Mode} {d : Dir} (hc : s.cur = encode (transformOf m d))
    (h : curIsTransform m' s) : m = m' := by
  obtain ⟨d', h⟩ := curIsTransform_iff.mp h
  have hw : ∀ m m' d d', encode (transformOf m d) = encode (transformOf m' d') → m = m' := by
    intro m m' d d'; cases m <;> cases m' <;> cases d <;> cases d' <;> decide
  exact hw _ _ _ _ (hc.symm.trans h)

/-! ### What the invariant says of an idle block, of a start step and of a running command -/

theorem Inv.phase_of_idle (h : Inv s) (hb : s.busy = false) : s.phase = .idle := by
  by_contra hp
  exact absurd (h.seq.busyPhase.mpr hp) (by simp [hb])

theorem Inv.rngPend_of_not_run (h : Inv s) (hp : s.phase ≠ .run) : s.rngPend = false := by
  by_contra hr
  exact hp (h.draw.pending (by simpa using hr)).1

theorem Inv.chain_of_not_run (h : Inv s) (hp : s.phase ≠ .run) : s.chain = zeroBlock := by
  by_contra hc
  exact hp (h.secret.chainClear hc).1

theorem Inv.rngPend_of_transform (h : Inv s) (hc : curIsAnyTransform s) : s.rngPend = false := by
  by_contra hr
  exact not_transform_of_geniv (h.draw.pending (by simpa using hr)).2 hc

theorem Inv.chain_of_geniv (h : Inv s) (hc : s.cur = encode .geniv) : s.chain = zeroBlock := by
  by_contra hz
  exact not_transform_of_geniv hc (h.secret.chainClear hz).2

theorem Inv.err_of_busy (h : Inv s) (hb : s.busy = true) : s.done = false ∧ s.err = false ∧ s.ecode = .none := by
  have hd : s.done = false := by
    by_contra hd
    exact absurd (h.status.doneIdle (by simpa using hd)) (by simp [hb])
  have he : s.err = false := by
    by_contra he
    exact absurd (h.status.errDone (by simpa using he)) (by simp [hd])
  exact ⟨hd, he, by by_contra hc; exact absurd (h.status.errCode.mpr hc) (by simp [he])⟩

theorem statusInv_of_no_error (hd : s.done = true → s.busy = false) (he : s.err = false) (hc : s.ecode = .none) :
    StatusInv s :=
  ⟨hd, by simp [he], by simp [he, hc], by simp [he]⟩

/-- A command that ends without an error leaves the error fields as acceptance cleared them (R309). -/
theorem Inv.statusInv_of_success (h : Inv s) (hb : s.busy = true) (hidle : t.busy = false) (he : t.err = s.err)
    (hc : t.ecode = s.ecode) : StatusInv t := by
  obtain ⟨-, herr, hcode⟩ := h.err_of_busy hb
  exact statusInv_of_no_error (fun _ => hidle) (he.trans herr) (hc.trans hcode)

/-- BUF has at most 4096 blocks, so no legal LEN needs more (R10, R52). -/
theorem blockCount_le (hl : s.len.toNat ≤ bufBytes s.cfg) : blockCount s ≤ 4096 := by
  have := s.cfg.topBlock.isLt
  unfold blockCount ceilDiv16 bufBytes at *
  omega

/-! ### States that meet the invariant -/

/-- What the invariant asks of a block that executes no command. -/
theorem inv_of_idle (hb : s.busy = false) (hp : s.phase = .idle) (hr : s.rngPend = false) (hz : s.chain = zeroBlock)
    (hs : StatusInv s) (hk : s.keyValid = true → klenValid s = true) (hi : s.ivptr ≤ 16) (hn : s.bptr ≤ 4096)
    (hbuf : BufInv s) : Inv s where
  seq := ⟨by simp [hb, hp], by simp [hb], by simp [hp], by simp [hp]⟩
  status := hs
  secret := ⟨hk, fun h => absurd hz h⟩
  draw := ⟨by simp [hr], by simp [hp], hi⟩
  transform := ⟨by simp [hp], by simp [hp], hn⟩
  buf := hbuf

/-- The invariant speaks of no pending input, response, answer or request count, nor of DONEIE and the bytes of KEY and
IV. -/
theorem Inv.set_unread (h : Inv s) (inputs : List Input) (reply : Option Reply) (doneIe : Bool) (answers : List Answer)
    (requests : Nat) (key : Vector Byte 32) (iv : Block) :
    Inv { s with
      inputs := inputs, reply := reply, doneIe := doneIe, answers := answers, requests := requests, key := key
      iv := iv } where
  seq := ⟨h.seq.busyPhase, h.seq.curNonzero, h.seq.runCommand, h.seq.startFresh⟩
  status := ⟨h.status.doneIdle, h.status.errDone, h.status.errCode, h.status.errKey⟩
  secret := ⟨h.secret.keyLegal, h.secret.chainClear⟩
  draw := ⟨h.draw.pending, h.draw.drawing, h.draw.ivptrBound⟩
  transform := ⟨h.transform.running, h.transform.wholeBlocks, h.transform.bptrBound⟩
  buf := ⟨h.buf.canonical, h.buf.inside⟩

theorem Inv.set_inputs (h : Inv s) (inputs : List Input) : Inv { s with inputs := inputs } :=
  h.set_unread inputs s.reply s.doneIe s.answers s.requests s.key s.iv

theorem inv_resetWith (c : Config) : Inv (State.resetWith c) :=
  inv_of_idle rfl rfl rfl rfl (statusInv_of_no_error (fun _ => rfl) rfl rfl) Bool.noConfusion
    (Nat.zero_le _) (Nat.zero_le _) ⟨rfl, rfl⟩

theorem Inv.raiseErr (h : Inv s) {c : ECode} (hc : c ≠ .none) : Inv (Machine.raiseErr c s) := by
  refine inv_of_idle (by simp) (by simp) (by simp) (by simp) ?_ (by simp) ?_ ?_ ⟨?_, ?_⟩
  · exact ⟨by simp, by simp, by simp [hc], by simp⟩
  · simpa using h.draw.ivptrBound
  · simpa using h.transform.bptrBound
  · simpa using h.buf.canonical
  · simpa using h.buf.inside

/-- A byte sequence stored inside BUF keeps BUF's canonical form. -/
theorem BufInv.writeAll (h : BufInv s) {a : Nat} {vs : List Byte} (hin : a + vs.length ≤ bufBytes s.cfg) :
    BufInv { s with buf := Cells.writeAll s.buf a vs } :=
  ⟨Cells.wf_writeAll h.canonical, Cells.below_writeAll hin h.inside⟩

/-- An accepted command finds the block idle and leaves it before the command's start step (R36). -/
theorem Inv.accept (h : Inv s) (hb : s.busy = false) (v : Word) : Inv (Machine.accept v s) := by
  have hp := h.phase_of_idle hb
  have hr : s.rngPend = false := h.rngPend_of_not_run (by simp [hp])
  have hz : s.chain = zeroBlock := h.chain_of_not_run (by simp [hp])
  by_cases hv : v = 0x00000000#32
  · subst hv
    exact inv_of_idle hb hp hr hz (statusInv_of_no_error (fun _ => hb) rfl rfl) h.secret.keyLegal h.draw.ivptrBound
      h.transform.bptrBound ⟨h.buf.canonical, h.buf.inside⟩
  · rw [accept_nonzero s v hv]
    exact {
      seq := ⟨by simp, fun _ => hv, by simp, fun _ => ⟨rfl, rfl, hr⟩⟩
      status := statusInv_of_no_error (by simp) rfl rfl
      secret := ⟨h.secret.keyLegal, fun hc => absurd hz hc⟩
      draw := ⟨by simp [hr], by simp, Nat.zero_le _⟩
      transform := ⟨by simp, by simp, Nat.zero_le _⟩
      buf := ⟨h.buf.canonical, h.buf.inside⟩ }

/-! ### The turns of the block -/

/-- GENIV's start has drawn nothing yet (R205). -/
theorem Inv.genivStart (h : Inv s) (hp : s.phase = .check) (hc : s.cur = encode .geniv) (hk : s.keyValid = true) :
    Inv { s with ivFresh := false, phase := .run } := by
  have hb : s.busy = true := h.seq.busyPhase.mpr (by simp [hp])
  obtain ⟨hd, he, hcode⟩ := h.err_of_busy hb
  obtain ⟨-, hi, hr⟩ := h.seq.startFresh hp
  exact {
    seq := ⟨by simp [hb], h.seq.curNonzero, fun _ => .inl hc, by simp⟩
    status := statusInv_of_no_error (by simp [hd]) he hcode
    secret := ⟨h.secret.keyLegal, fun hz => absurd (h.chain_of_geniv hc) hz⟩
    draw := ⟨by simp [hr], fun _ _ => ⟨by simp [hi], hk, rfl⟩, h.draw.ivptrBound⟩
    transform := ⟨fun _ ht => absurd ht (not_transform_of_geniv hc),
      fun _ ht => absurd (.inr ht) (not_transform_of_geniv hc), h.transform.bptrBound⟩
    buf := ⟨h.buf.canonical, h.buf.inside⟩ }

/-- While GENIV draws, only RNGPEND and an IVPTR below 16 move (R205). -/
theorem Inv.genivDraw (h : Inv s) (hp : s.phase = .run) (hc : s.cur = encode .geniv) (pend : Bool) {n : Nat}
    (hn : n < 16) : Inv { s with rngPend := pend, ivptr := n } := by
  obtain ⟨-, hk, hf⟩ := h.draw.drawing hp hc
  exact {
    seq := ⟨h.seq.busyPhase, h.seq.curNonzero, h.seq.runCommand, by simp [hp]⟩
    status := ⟨h.status.doneIdle, h.status.errDone, h.status.errCode, h.status.errKey⟩
    secret := ⟨h.secret.keyLegal, h.secret.chainClear⟩
    draw := ⟨fun _ => ⟨hp, hc⟩, fun _ _ => ⟨hn, hk, hf⟩, hn.le⟩
    transform := ⟨h.transform.running, h.transform.wholeBlocks, h.transform.bptrBound⟩
    buf := ⟨h.buf.canonical, h.buf.inside⟩ }

/-- A transform that passes its checks has a block left (R158). -/
theorem Inv.transformStart (h : Inv s) {m : Mode} {d : Dir} (hp : s.phase = .check)
    (hc : s.cur = encode (transformOf m d)) (hk : s.keyValid = true) (hl : s.len.toNat ≤ bufBytes s.cfg)
    (hm : m = .cbc → s.len.toNat % 16 = 0) (h0 : s.len.toNat ≠ 0) : Inv { s with chain := s.iv, phase := .run } := by
  have hb : s.busy = true := h.seq.busyPhase.mpr (by simp [hp])
  obtain ⟨hd, he, hcode⟩ := h.err_of_busy hb
  obtain ⟨hn, -, hr⟩ := h.seq.startFresh hp
  have ht : curIsAnyTransform s := curIsAnyTransform_iff.mpr ⟨m, d, hc⟩
  have hleft : s.bptr < blockCount s := by rw [hn]; exact ceilDiv16_pos (by omega)
  exact {
    seq := ⟨by simp [hb], h.seq.curNonzero, fun _ => .inr ht, by simp⟩
    status := statusInv_of_no_error (by simp [hd]) he hcode
    secret := ⟨h.secret.keyLegal, fun _ => ⟨rfl, ht⟩⟩
    draw := ⟨by simp [hr], fun _ hg => absurd ht (not_transform_of_geniv (s := s) hg), h.draw.ivptrBound⟩
    transform := ⟨fun _ _ => ⟨hk, hl, hleft⟩, fun _ hcbc => hm (mode_of_curIsTransform (s := s) hc hcbc),
      h.transform.bptrBound⟩
    buf := ⟨h.buf.canonical, h.buf.inside⟩ }

/-- A block step that is not the last leaves a block to process (R156). -/
theorem Inv.block (h : Inv s) {m : Mode} {d : Dir} {out : List Byte} (c : Block) (hp : s.phase = .run)
    (hc : s.cur = encode (transformOf m d)) (hleft : s.bptr + 1 < blockCount s)
    (hin : 16 * s.bptr + out.length ≤ bufBytes s.cfg) :
    Inv { s with buf := Cells.writeAll s.buf (16 * s.bptr) out, chain := c, bptr := s.bptr + 1 } := by
  have ht : curIsAnyTransform s := curIsAnyTransform_iff.mpr ⟨m, d, hc⟩
  obtain ⟨hk, hl, -⟩ := h.transform.running hp ht
  have hcount := blockCount_le hl
  have hbuf := h.buf.writeAll hin
  exact {
    seq := ⟨h.seq.busyPhase, h.seq.curNonzero, h.seq.runCommand, by simp [hp]⟩
    status := ⟨h.status.doneIdle, h.status.errDone, h.status.errCode, h.status.errKey⟩
    secret := ⟨h.secret.keyLegal, fun _ => ⟨hp, ht⟩⟩
    draw := ⟨h.draw.pending, h.draw.drawing, h.draw.ivptrBound⟩
    transform := ⟨fun _ _ => ⟨hk, hl, hleft⟩, h.transform.wholeBlocks, by simp; omega⟩
    buf := ⟨hbuf.canonical, hbuf.inside⟩ }

/-- One turn of the block keeps the invariant. -/
theorem Inv.turn (h : Inv s) (ht : TurnTo s t) : Inv t := by
  have hi := h.draw.ivptrBound
  have hn := h.transform.bptrBound
  cases ht with
  | stay => exact h
  | error c busy phase code => exact h.raiseErr code
  | keyInit busy phase cur legal =>
    obtain ⟨-, -, hr⟩ := h.seq.startFresh phase
    exact inv_of_idle rfl rfl hr (h.chain_of_not_run (by simp [phase])) (h.statusInv_of_success busy rfl rfl rfl)
      (fun _ => legal) hi hn ⟨h.buf.canonical, h.buf.inside⟩
  | zeroized busy phase cur =>
    obtain ⟨-, -, hr⟩ := h.seq.startFresh phase
    exact inv_of_idle rfl rfl hr rfl (h.statusInv_of_success busy rfl rfl rfl) (by simp) hi hn ⟨rfl, rfl⟩
  | genivStart busy phase cur key => exact h.genivStart phase cur key
  | request busy phase cur free left =>
    exact (h.genivDraw phase cur true left).set_unread _ _ _ _ (s.requests + 1) _ _
  | byte b busy phase cur pending left =>
    have hlt := (h.draw.drawing phase cur).1
    exact (h.genivDraw phase cur false (n := s.ivptr + 1) (by omega)).set_unread _ _ _ _ _ _ _
  | lastByte b busy phase cur pending last =>
    exact inv_of_idle rfl rfl rfl (h.chain_of_geniv cur) (h.statusInv_of_success busy rfl rfl rfl)
      h.secret.keyLegal le_rfl hn ⟨h.buf.canonical, h.buf.inside⟩
  | noByte busy phase cur pending =>
    have hlt := (h.draw.drawing phase cur).1
    exact ((h.genivDraw phase cur false hlt).set_unread _ _ _ _ _ _ _).raiseErr (by decide)
  | emptyTransform m d busy phase cur =>
    obtain ⟨-, -, hr⟩ := h.seq.startFresh phase
    exact inv_of_idle rfl rfl hr rfl (h.statusInv_of_success busy rfl rfl rfl) (by simp) hi hn
      ⟨h.buf.canonical, h.buf.inside⟩
  | transformStart m d busy phase cur key fits whole nonzero => exact h.transformStart phase cur key fits whole nonzero
  | block m d out c busy phase cur left inside => exact h.block c phase cur left inside
  | lastBlock m d out busy phase cur last inside =>
    have htr : curIsAnyTransform s := curIsAnyTransform_iff.mpr ⟨m, d, cur⟩
    have hcount := blockCount_le (h.transform.running phase htr).2.1
    have hbuf := h.buf.writeAll inside
    exact inv_of_idle rfl rfl (h.rngPend_of_transform htr) rfl (h.statusInv_of_success busy rfl rfl rfl)
      (by simp) hi (by simp; omega) ⟨hbuf.canonical, hbuf.inside⟩

/-! ### The host's writes -/

/-- A write to an idle block's registers keeps the invariant: it may clear KEYVALID and IVFRESH, and a new KLEN clears
KEYVALID (R58). -/
theorem Inv.store (h : Inv s) (hb : s.busy = false) {klen len : Word} {keyValid ivFresh : Bool} {buf : Cells}
    (hk : keyValid = true → s.keyValid = true ∧ klen = s.klen) (hf : ivFresh = true → s.ivFresh = true)
    (hbuf : BufInv { s with buf := buf }) :
    Inv { s with klen := klen, len := len, keyValid := keyValid, ivFresh := ivFresh, buf := buf } := by
  have hp := h.phase_of_idle hb
  refine inv_of_idle hb hp (h.rngPend_of_not_run (by simp [hp])) (h.chain_of_not_run (by simp [hp])) ?_ ?_
    h.draw.ivptrBound h.transform.bptrBound ⟨hbuf.canonical, hbuf.inside⟩
  · refine ⟨h.status.doneIdle, h.status.errDone, h.status.errCode, fun he => ?_⟩
    obtain ⟨hkey, hfresh⟩ := h.status.errKey he
    exact ⟨Bool.eq_false_iff.mpr fun hv => by simp [(hk hv).1] at hkey,
      Bool.eq_false_iff.mpr fun hv => by simp [hf hv] at hfresh⟩
  · intro hv
    obtain ⟨hkey, rfl⟩ := hk hv
    exact h.secret.keyLegal hkey

/-- One step keeps the invariant. -/
theorem Inv.step (h : Inv s) (ht : StepTo s t) : Inv t := by
  have replied (rest : List Input) (r : Reply) : Inv { s with inputs := rest, reply := some r } :=
    h.set_unread ..
  cases ht with
  | turn rest turn => exact (h.set_inputs rest).turn turn
  | answered rest r => exact replied rest r
  | irqen w rest first => exact h.set_unread ..
  | ctrl w v rest idle first => exact (replied rest .writeOk).accept idle v
  | klen w rest idle first => exact (replied rest .writeOk).store idle (by simp) id ⟨h.buf.canonical, h.buf.inside⟩
  | len w rest idle first =>
    exact (replied rest .writeOk).store idle (fun hk => ⟨hk, rfl⟩) id ⟨h.buf.canonical, h.buf.inside⟩
  | key i w rest idle =>
    exact (h.set_unread rest (some .writeOk) s.doneIe s.answers s.requests (putWord s.key i w) s.iv).store idle
      (by simp) id ⟨h.buf.canonical, h.buf.inside⟩
  | iv i w rest idle =>
    exact (h.set_unread rest (some .writeOk) s.doneIe s.answers s.requests s.key (putWord s.iv i w)).store idle
      (fun hk => ⟨hk, rfl⟩) (by simp) ⟨h.buf.canonical, h.buf.inside⟩
  | buf i w rest idle inside =>
    exact (replied rest .writeOk).store idle (fun hk => ⟨hk, rfl⟩) id ((replied rest .writeOk).buf.writeAll inside)
  | reset rest first => exact (inv_resetWith s.cfg).set_unread ..

end Sys2Proof

/-! ## What a turn of the block leaves alone -/

namespace Sys2Proof

open Sys2Proof.Machine

variable {s t : State}

theorem TurnTo.doneIe (h : TurnTo s t) : t.doneIe = s.doneIe := by cases h <;> simp

theorem TurnTo.cfg (h : TurnTo s t) : t.cfg = s.cfg := by cases h <;> simp

/-- A turn does something only while a command executes (R38). -/
theorem TurnTo.eq_or_busy (h : TurnTo s t) : t = s ∨ s.busy = true := by
  cases h with
  | stay => exact .inl rfl
  | _ => exact .inr ‹_›

/-- DONE moves only in a turn that ends the command (R309, R310). -/
theorem TurnTo.done_same_or_ends (h : TurnTo s t) : t.done = s.done ∨ (s.busy = true ∧ t.busy = false) := by
  rcases h.eq_or_busy with rfl | hb
  · exact .inl rfl
  · cases h <;> simp [hb]

/-- LEN and KLEN move only in ZEROIZE's step (R231, R311). -/
theorem TurnTo.lengths (h : TurnTo s t) :
    (t.len = s.len ∧ t.klen = s.klen) ∨
      (s.busy = true ∧ s.phase = .check ∧ s.cur = encode .zeroize ∧ t.len = 0#32 ∧ t.klen = 0#32) := by
  cases h with
  | zeroized busy phase cur => exact .inr ⟨busy, phase, cur, rfl, rfl⟩
  | _ => simp

end Sys2Proof

/-! ## Acceptance (R36) -/

namespace Sys2Proof

open Sys2Proof.Machine

variable {s : State}

theorem encode_ne_zero {i : Instr} (h : i ≠ .clrstat) : encode i ≠ 0x00000000#32 := by
  cases i with
  | clrstat => exact absurd rfl h
  | _ => decide

/-- Every word written to CTRL while BUSY = 0 is accepted, reserved words included (R36, R123). -/
theorem issue_idle (w : Word) (hb : s.busy = false) : issue w s = .next (accept w s) := by
  cases hd : decodeWord w with
  | none => simp [issue, hd]
  | some i => rw [issue_of_decoded hd, exec_idle i hb, decodeWord_eq_some.mp hd]

/-- Settles O7: while BUSY = 0 the write issues its word, and while BUSY = 1 CTRL is not writable. -/
theorem ctrlWriteAcceptance : Obligations.CtrlWriteAcceptance := by
  unfold Obligations.CtrlWriteAcceptance
  intro s w rest hi
  have accepted (hb : s.busy = false) : step s = .next (accept w { s with inputs := rest, reply := some .writeOk }) :=
    calc
      step s = busWrite 0x00008#17 .word w { s with inputs := rest } := step_of_access hi
      _ = issue w { s with inputs := rest, reply := some .writeOk } := busWrite_ctrl w hb
      _ = .next (accept w { s with inputs := rest, reply := some .writeOk }) := issue_idle w hb
  refine ⟨fun hb hw => ?_, fun hb hw => ?_, fun hb => ?_⟩
  · subst hw; exact accepted hb
  · rw [accepted hb, accept_nonzero _ w hw]
  · rw [step_of_access hi]
    have hr : reach s.cfg .word 0x00008#17 = some .ctrl := rfl
    simp [busAccess, busWrite, hr, hb, writableBusy]

/-- Settles O6: exec of an idle block is acceptance of a word other than 0. -/
theorem acceptanceStartsCommand : Obligations.AcceptanceStartsCommand := by
  unfold Obligations.AcceptanceStartsCommand
  intro s i hb hi
  rw [exec_idle i hb, accept_nonzero s _ (encode_ne_zero hi)]

/-- Settles O10: a turn finds no command to step. -/
theorem idleBlockStartsNothing : Obligations.IdleBlockStartsNothing := by
  unfold Obligations.IdleBlockStartsNothing
  refine fun s hb => ⟨fun hi => ?_, fun rest hi => ?_⟩
  · rw [step_of_nil hi]; simp [blockTurn, hb]
  · rw [step_of_turn hi]; simp [blockTurn, hb]

end Sys2Proof

/-! ## The words a host reads, bit by bit (R34, R37) -/

namespace Sys2Proof

open Sys2Proof.Machine

@[simp] theorem getElem_flagAt (b : Bool) (n i : Nat) (hi : i < 32) : (flagAt b n)[i] = (b && decide (i = n)) := by
  cases b
  · simp [flagAt]
  · by_cases h : n ≤ i
    · have hone : i - n = 0 ↔ i = n := by omega
      simp [flagAt, h, hone]
    · have hne : i ≠ n := by omega
      have hlt : i < n := by omega
      simp [flagAt, hne, hlt]

/-- Every bit of STATUS: five flags, and ECODE's number from bit 8 on (R37). -/
@[simp] theorem getElem_statusWord (s : State) (i : Nat) (hi : i < 32) :
    (statusWord s)[i] =
      (s.busy && decide (i = 0) || s.done && decide (i = 1) || s.err && decide (i = 2) ||
        s.keyValid && decide (i = 3) || s.ivFresh && decide (i = 4) ||
        !decide (i < 8) && (ecodeBits s.ecode).getLsbD (i - 8)) := by
  simp [statusWord]

theorem getElem_ofNat (w n i : Nat) (hi : i < w) : (BitVec.ofNat w n)[i] = n.testBit i := by
  rw [← BitVec.getLsbD_eq_getElem, BitVec.getLsbD_ofNat, decide_eq_true hi, Bool.true_and]

/-- NBLK needs no bit from 16 on: BUF has at most 4096 blocks (R10). -/
theorem testBit_blocks (c : Config) {i : Nat} (hi : 16 ≤ i) : (bufBytes c / 16).testBit i = false := by
  apply Nat.testBit_lt_two_pow
  have := c.topBlock.isLt
  calc
    bufBytes c / 16 < 2 ^ 16 := by unfold bufBytes; omega
    _ ≤ 2 ^ i := Nat.pow_le_pow_right (by omega) hi

/-- Every bit of CAP: NBLK below bit 16, BSIZE's one bit, and KEYSIZES from bit 24 on (R34). -/
@[simp] theorem getElem_capWord (c : Config) (i : Nat) (hi : i < 32) :
    (capWord c)[i] =
      ((bufBytes c / 16).testBit i || decide (i = 20) || c.keySizes.k16 && decide (i = 24) ||
        c.keySizes.k24 && decide (i = 25) || c.keySizes.k32 && decide (i = 26)) := by
  have hsize : (0x100000#32)[i] = decide (i = 20) := by revert i; decide
  simp [capWord, hsize, getElem_ofNat]

/-- Settles O23: each field is read off the bits of the word. -/
theorem statusWordLayout : Obligations.StatusWordLayout := by
  unfold Obligations.StatusWordLayout
  intro s
  refine ⟨by simp, by simp, by simp, by simp, by simp, ?_, ?_, ?_⟩
  · apply BitVec.eq_of_getLsbD_eq
    intro i hi
    have hlow : 5 + i < 32 ∧ 5 + i ≠ 0 ∧ 5 + i ≠ 1 ∧ 5 + i ≠ 2 ∧ 5 + i ≠ 3 ∧ 5 + i ≠ 4 ∧ 5 + i < 8 := by omega
    simp [hlow]
  · apply BitVec.eq_of_getLsbD_eq
    intro i hi
    have hhigh : 12 + i < 32 ∧ 12 + i ≠ 1 ∧ 12 + i ≠ 2 ∧ 12 + i ≠ 3 ∧ 12 + i ≠ 4 ∧ 4 ≤ 12 + i - 8 := by omega
    simp [hi, hhigh, BitVec.getLsbD_of_ge]
  · have h : (statusWord s).extractLsb' 8 4 = ecodeBits s.ecode := by
      apply BitVec.eq_of_getLsbD_eq
      intro i hi
      have hfield : 8 + i < 32 ∧ 8 + i ≠ 1 ∧ 8 + i ≠ 2 ∧ 8 + i ≠ 3 ∧ 8 + i ≠ 4 := by omega
      simp [hi, hfield]
    rw [h]
    cases s.ecode <;> rfl

/-- Settles O24: each field is read off the bits of the word. -/
theorem capWordLayout : Obligations.CapWordLayout := by
  unfold Obligations.CapWordLayout
  intro c
  have high {i : Nat} := testBit_blocks c (i := i)
  refine ⟨?_, ?_, by simp [high], by simp [high], by simp [high], ?_⟩
  · have h : (capWord c).extractLsb' 0 16 = BitVec.ofNat 16 (bufBytes c / 16) := by
      apply BitVec.eq_of_getLsbD_eq
      intro i hi
      have hlow : i < 32 ∧ i ≠ 20 ∧ i ≠ 24 ∧ i ≠ 25 ∧ i ≠ 26 := by omega
      simp [hi, hlow, getElem_ofNat]
    have := c.topBlock.isLt
    rw [h, BitVec.toNat_ofNat, Nat.mod_eq_of_lt (by unfold bufBytes; omega)]
  · apply BitVec.eq_of_getLsbD_eq
    intro i hi
    have hfield : 16 + i < 32 ∧ 16 + i ≠ 24 ∧ 16 + i ≠ 25 ∧ 16 + i ≠ 26 ∧ (16 + i = 20 ↔ i = 4) := by omega
    have hsize : (16#8)[i] = decide (i = 4) := by revert i; decide
    simp [hi, hfield, high, hsize]
  · apply BitVec.eq_of_getLsbD_eq
    intro i hi
    have hfield : 27 + i < 32 ∧ 27 + i ≠ 20 ∧ 27 + i ≠ 24 ∧ 27 + i ≠ 25 ∧ 27 + i ≠ 26 := by omega
    simp [hi, hfield, testBit_blocks c (show 16 ≤ 27 + i by omega)]

/-- Settles O43, register by register. -/
theorem resetRegistersRead : Obligations.ResetRegistersRead := by
  unfold Obligations.ResetRegistersRead
  have hzero : laneWord 0#8 0#8 0#8 0#8 = 0#32 := by decide
  exact ⟨rfl, by decide, rfl, by decide, by decide, rfl, rfl, fun _ _ => rfl, by decide, fun _ => hzero⟩

end Sys2Proof

/-! ## Host accesses to an idle block (R83, R88, R89) -/

namespace Sys2Proof

open Sys2Proof.Machine

variable {s t : State}

/-! ### Words in byte arrays -/

/-- Bytes that are the lanes of a word make the word. -/
theorem wordAt_of_lanes {f : Nat → Byte} {i : Nat} {w : Word} (h : ∀ k, k < 4 → f (4 * i + k) = laneByte w k) :
    wordAt f i = w := by
  have h0 : f (4 * i) = laneByte w 0 := h 0 (by omega)
  rw [wordAt, h0, h 1 (by omega), h 2 (by omega), h 3 (by omega), laneWord_laneByte]

/-- Byte `a` after word `i` was stored: the word's lane, or the old byte. -/
theorem getElem_putWord {n : Nat} (v : Vector Byte n) (i : Nat) (w : Word) (a : Nat) (ha : a < n) :
    (putWord v i w)[a] = if a / 4 = i then laneByte w (a % 4) else v[a] := by
  have hw : wordAt (fun b => laneByte w (b % 4)) i = w :=
    wordAt_of_lanes fun k hk => by rw [show (4 * i + k) % 4 = k by omega]
  conv_lhs => rw [← hw]
  exact getElem_putWord_wordAt v _ i a ha

theorem putWord_putWord {n : Nat} (v : Vector Byte n) (i : Nat) (w : Word) :
    putWord (putWord v i w) i w = putWord v i w := by
  ext a ha
  simp only [getElem_putWord]
  split <;> rfl

/-- A stored word reads back. -/
theorem wordAt_putWord {n : Nat} (v : Vector Byte n) {i : Nat} (w : Word) (hi : 4 * i + 4 ≤ n) :
    wordAt (fun a => (putWord v i w).toList.getD a 0#8) i = w := by
  refine wordAt_of_lanes fun k hk => ?_
  have ha : 4 * i + k < n := by omega
  simp [ha, getElem_putWord, show (4 * i + k) / 4 = i by omega, show (4 * i + k) % 4 = k by omega]

/-- The four bytes of a word, lowest first. -/
def wordBytes (w : Word) : List Byte := [laneByte w 0, laneByte w 1, laneByte w 2, laneByte w 3]

theorem getD_wordBytes (w : Word) {k : Nat} (hk : k < 4) : (wordBytes w).getD k 0#8 = laneByte w k := by
  rcases (by omega : k = 0 ∨ k = 1 ∨ k = 2 ∨ k = 3) with rfl | rfl | rfl | rfl <;> rfl

/-- Byte `a` after word `i` was stored in BUF. -/
theorem read_writeAll_wordBytes {m : Cells} (h : Cells.wf m = true) (i a : Nat) (w : Word) :
    Cells.read (Cells.writeAll m (4 * i) (wordBytes w)) a =
      if a / 4 = i then laneByte w (a % 4) else Cells.read m a := by
  rw [Cells.read_writeAll h]
  by_cases ha : a / 4 = i
  · have hin : 4 * i ≤ a ∧ a < 4 * i + (wordBytes w).length := by simp [wordBytes]; omega
    rw [if_pos hin, if_pos ha, show a - 4 * i = a % 4 by omega, getD_wordBytes w (by omega)]
  · have hout : ¬ (4 * i ≤ a ∧ a < 4 * i + (wordBytes w).length) := by simp [wordBytes]; omega
    rw [if_neg hout, if_neg ha]

theorem wordAt_writeAll_wordBytes {m : Cells} (h : Cells.wf m = true) (i : Nat) (w : Word) :
    wordAt (Cells.read (Cells.writeAll m (4 * i) (wordBytes w))) i = w := by
  refine wordAt_of_lanes fun k hk => ?_
  rw [read_writeAll_wordBytes h, if_pos (by omega), show (4 * i + k) % 4 = k by omega]

/-! ### Offsets and accesses -/

theorem reach_key {c : Config} {addr : Offset} {i : Nat} (hi : i < 8) (ha : addr.toNat = 0x20 + 4 * i) :
    reach c .word addr = some (.key i) := by
  have he : addr = targetOffset (.key i) := BitVec.eq_of_toNat_eq (by simp [targetOffset]; omega)
  exact he ▸ reach_targetOffset c (.key i) (by simp; omega) (by simp) (by simp)

theorem reach_iv {c : Config} {addr : Offset} {i : Nat} (hi : i < 4) (ha : addr.toNat = 0x40 + 4 * i) :
    reach c .word addr = some (.iv i) := by
  have he : addr = targetOffset (.iv i) := BitVec.eq_of_toNat_eq (by simp [targetOffset]; omega)
  exact he ▸ reach_targetOffset c (.iv i) (by simp) (by simp; omega) (by simp)

theorem reach_buf {c : Config} {addr : Offset} {i : Nat} (hi : 4 * i < bufBytes c)
    (ha : addr.toNat = 0x10000 + 4 * i) : reach c .word addr = some (.buf i) := by
  have he : addr = targetOffset (.buf i) := BitVec.eq_of_toNat_eq (by
    have := addr.isLt
    simp [targetOffset]; omega)
  exact he ▸ reach_targetOffset c (.buf i) (by simp) (by simp) (by simpa using hi)

/-- A write that reaches a register while BUSY = 0 is served, with the OK response (R89). -/
theorem step_write_idle {addr : Offset} {w : Word} {rest : List Input} {g : Target} (hb : s.busy = false)
    (hi : s.inputs = .access (.write addr .word w) :: rest) (hr : reach s.cfg .word addr = some g) :
    step s = writeTarget w { s with inputs := rest, reply := some .writeOk } g := by
  rw [step_of_access hi]
  simp [busAccess, busWrite, hr, hb]

/-- A read that reaches a register while BUSY = 0 answers its value and changes nothing else (R88). -/
theorem step_read_idle {addr : Offset} {rest : List Input} {g : Target} (hb : s.busy = false)
    (hi : s.inputs = .access (.read addr .word) :: rest) (hr : reach s.cfg .word addr = some g) :
    step s = .next { s with inputs := rest, reply := some (.readOk (readTarget { s with inputs := rest } g)) } := by
  rw [step_of_access hi]
  simp [busAccess, busRead, hr, hb]

/-- Settles O28, register by register. -/
theorem idleWritesStore : Obligations.IdleWritesStore := by
  unfold Obligations.IdleWritesStore
  intro s addr w rest hb hi
  have served {g : Target} (hr : reach s.cfg .word addr = some g) := step_write_idle hb hi hr
  refine ⟨?_, ?_, ?_, ?_, fun i hlt ha => served (reach_key hlt ha), fun i hlt ha => served (reach_iv hlt ha),
    fun i hlt ha hwf => ⟨_, served (reach_buf hlt ha), rfl, fun a => read_writeAll_wordBytes hwf i a w⟩⟩
  · rintro (rfl | rfl | rfl)
    · exact served (g := .id) rfl
    · exact served (g := .cap) rfl
    · exact served (g := .status) rfl
  · rintro rfl; exact served (g := .irqen) rfl
  · rintro rfl; exact served (g := .klen) rfl
  · rintro rfl; exact served (g := .len) rfl

/-- A register written while idle and then read answers what it holds after the write. -/
theorem runSteps_write_read {addr : Offset} {w : Word} {g : Target} (hb : s.busy = false)
    (hi : s.inputs = [.access (.write addr .word w), .access (.read addr .word)])
    (hr : reach s.cfg .word addr = some g)
    (hw : writeTarget w { s with inputs := [.access (.read addr .word)], reply := some .writeOk } g = .next t)
    (hbusy : t.busy = false) (hcfg : t.cfg = s.cfg) (hin : t.inputs = [.access (.read addr .word)])
    (hv : readTarget { t with inputs := [] } g = w) :
    ∃ t, runSteps 2 s = .next t ∧ t.reply = some (.readOk w) := by
  have h1 : step s = .next t := (step_write_idle hb hi hr).trans hw
  have h2 := step_read_idle hbusy hin (hcfg ▸ hr)
  exact ⟨_, (runSteps_succ h1).trans (runSteps_one.trans h2), by rw [hv]⟩

/-- Settles O29: each of the four kinds of register holds the word after the write. -/
theorem writtenWordReadsBack : Obligations.WrittenWordReadsBack := by
  unfold Obligations.WrittenWordReadsBack
  rintro s addr w hb hwf hi (rfl | rfl | ⟨i, hlt, ha⟩ | ⟨i, hlt, ha⟩)
  · exact runSteps_write_read (g := .klen) hb hi rfl rfl hb rfl rfl rfl
  · exact runSteps_write_read (g := .len) hb hi rfl rfl hb rfl rfl rfl
  · exact runSteps_write_read hb hi (reach_iv hlt ha) rfl hb rfl rfl (wordAt_putWord s.iv w (by omega))
  · exact runSteps_write_read hb hi (reach_buf hlt ha) rfl hb rfl rfl (wordAt_writeAll_wordBytes hwf i w)

end Sys2Proof

/-! ## The same access twice (R94), and what reads cannot see (R46, R56) -/

namespace Sys2Proof

open Sys2Proof.Machine

variable {s t : State}

/-- A write to a register other than CTRL, done again on the state it left with other inputs pending, does what it does
with them pending at once: what it stores does not depend on what it stored (R89). -/
theorem writeTarget_again {w : Word} {g : Target} (hg : g ≠ .ctrl) (hwf : Cells.wf s.buf = true)
    (h : writeTarget w s g = .next t) (inputs : List Input) :
    writeTarget w { t with inputs := inputs } g = writeTarget w { s with inputs := inputs } g := by
  cases g with
  | ctrl => exact absurd rfl hg
  | key i => cases h; simp [writeTarget, putWord_putWord]
  | iv i => cases h; simp [writeTarget, putWord_putWord]
  | buf i => cases h; simp [writeTarget, bufWrite, Cells.writeAll_idem hwf]
  | _ => cases h; rfl

/-- What a write that is served leaves as it was, CTRL apart. -/
theorem writeTarget_frame {w : Word} {g : Target} (hg : g ≠ .ctrl) (h : writeTarget w s g = .next t) :
    t.cfg = s.cfg ∧ t.busy = s.busy ∧ t.reply = s.reply := by
  cases g with
  | ctrl => exact absurd rfl hg
  | _ => cases h; exact ⟨rfl, rfl, rfl⟩

/-- Only offset 0x008 reaches CTRL (R81). -/
theorem target_ne_ctrl {c : Config} {addr : Offset} {width : Width} {g : Target} (ha : addr ≠ 0x00008#17)
    (hr : reach c width addr = some g) : g ≠ .ctrl := by
  intro hg
  obtain ⟨-, -, hm⟩ := reach_some hr
  exact ha (BitVec.eq_of_toNat_eq ((addressMap_some hm).1 hg))

theorem busWrite_refused {addr : Offset} {width : Width} {w : Word} {g : Target} (hr : reach s.cfg width addr = some g)
    (hb : (s.busy && !writableBusy g) = true) : busWrite addr width w s = .next { s with reply := some .writeErr } := by
  simp only [busWrite, hr, hb, if_true]

theorem busWrite_served {addr : Offset} {width : Width} {w : Word} {g : Target} (hr : reach s.cfg width addr = some g)
    (hb : ¬ (s.busy && !writableBusy g) = true) :
    busWrite addr width w s = writeTarget w { s with reply := some .writeOk } g := by
  simp only [busWrite, hr, if_neg hb]

theorem busWrite_unmapped {addr : Offset} {width : Width} {w : Word} (hr : reach s.cfg width addr = none) :
    busWrite addr width w s = .next { s with reply := some .writeErr } := by
  simp only [busWrite, hr]

/-- As `writeTarget_again`, for a write at any other offset than CTRL's: a refused one is refused again. -/
theorem busWrite_again {addr : Offset} {width : Width} {w : Word} (ha : addr ≠ 0x00008#17)
    (hwf : Cells.wf s.buf = true) (h : busWrite addr width w s = .next t) (inputs : List Input) :
    busWrite addr width w { t with inputs := inputs } = busWrite addr width w { s with inputs := inputs } := by
  cases hr : reach s.cfg width addr with
  | none =>
    rw [busWrite_unmapped hr] at h
    cases h
    exact (busWrite_unmapped (s := { s with inputs := inputs, reply := some .writeErr }) hr).trans
      (busWrite_unmapped (s := { s with inputs := inputs }) hr).symm
  | some g =>
    by_cases hb : (s.busy && !writableBusy g) = true
    · rw [busWrite_refused hr hb] at h
      cases h
      exact (busWrite_refused (s := { s with inputs := inputs, reply := some .writeErr }) hr hb).trans
        (busWrite_refused (s := { s with inputs := inputs }) hr hb).symm
    · have hg := target_ne_ctrl ha hr
      rw [busWrite_served hr hb] at h
      obtain ⟨hcfg, hbusy, hreply⟩ := writeTarget_frame hg h
      have ht : { t with inputs := inputs, reply := some .writeOk } = { t with inputs := inputs } := by
        cases t; cases hreply; rfl
      calc
        busWrite addr width w { t with inputs := inputs } =
            writeTarget w { t with inputs := inputs, reply := some .writeOk } g :=
          busWrite_served (s := { t with inputs := inputs }) (hcfg ▸ hr) (hbusy ▸ hb)
        _ = writeTarget w { t with inputs := inputs } g := by rw [ht]
        _ = writeTarget w { s with inputs := inputs, reply := some .writeOk } g :=
          writeTarget_again (s := { s with reply := some .writeOk }) hg hwf h inputs
        _ = busWrite addr width w { s with inputs := inputs } :=
          (busWrite_served (s := { s with inputs := inputs }) hr hb).symm

/-- As `writeTarget_again`, for any access but a CTRL write: a read stores nothing. -/
theorem busAccess_again {a : Access} (ha : ∀ width w, a ≠ .write 0x00008#17 width w) (hwf : Cells.wf s.buf = true)
    (h : busAccess a s = .next t) (inputs : List Input) :
    busAccess a { t with inputs := inputs } = busAccess a { s with inputs := inputs } := by
  cases a with
  | read addr width =>
    injection h with h
    rw [busRead_eq] at h
    subst h
    rfl
  | write addr width w => exact busWrite_again (fun he => ha width w (he ▸ rfl)) hwf h inputs

/-- No access touches the inputs still pending. -/
theorem busAccess_inputs {a : Access} (h : busAccess a s = .next t) : t.inputs = s.inputs := by
  cases a with
  | read addr width =>
    injection h with h
    rw [← h, busRead_eq]
  | write addr width w =>
    rcases busWrite_next h with ⟨r, rfl⟩ | ⟨-, -, rfl⟩ | ⟨-, ⟨-, -, v, rfl⟩ | ⟨-, -, rfl⟩ | ⟨-, -, rfl⟩ | ⟨i, -, rfl⟩ |
      ⟨i, -, rfl⟩ | ⟨i, -, rfl⟩⟩ <;> simp

/-- Settles O30: after the first access, the second does what it would have done in its place. -/
theorem accessesAreIdempotent : Obligations.AccessesAreIdempotent := by
  unfold Obligations.AccessesAreIdempotent
  intro s t a rest hwf ha hi h
  rw [runSteps, step_of_access hi] at h
  cases h1 : busAccess a { s with inputs := .access a :: rest } with
  | fault r => rw [h1] at h; cases h
  | refused r => rw [h1] at h; cases h
  | next u =>
    have hu : u.inputs = .access a :: rest := busAccess_inputs h1
    rw [h1, andThen_next, runSteps_one, step_of_access hu,
      busAccess_again (s := { s with inputs := .access a :: rest }) ha hwf h1 rest] at h
    exact (step_of_access rfl).trans h

/-- `s` with the fields that no read sees taken from `u` (R46, R56). -/
def withHidden (u s : State) : State :=
  { s with
    key := u.key, chain := u.chain, cur := u.cur, phase := u.phase, bptr := u.bptr, ivptr := u.ivptr
    rngPend := u.rngPend }

theorem readTarget_withHidden (u s : State) (g : Target) : readTarget (withHidden u s) g = readTarget s g := by
  cases g <;> rfl

theorem busRead_withHidden (u s : State) (addr : Offset) (width : Width) :
    busRead addr width (withHidden u s) = withHidden u (busRead addr width s) := by
  unfold busRead
  rw [show (withHidden u s).cfg = s.cfg from rfl, show (withHidden u s).busy = s.busy from rfl]
  cases reach s.cfg width addr with
  | none => rfl
  | some g =>
    simp only [readTarget_withHidden]
    split <;> rfl

/-- Every read gets a response. -/
theorem busRead_replied (s : State) (addr : Offset) (width : Width) :
    ∃ r, busRead addr width s = { s with reply := some r } := by
  unfold busRead
  split
  · exact ⟨_, rfl⟩
  · split <;> exact ⟨_, rfl⟩

/-- Settles O31: reading and replacing the hidden fields commute. -/
theorem hiddenStateUnreadable : Obligations.HiddenStateUnreadable := by
  unfold Obligations.HiddenStateUnreadable
  intro s key chain cur phase bptr ivptr rngPend addr width rest hi
  obtain ⟨r, hr⟩ := busRead_replied { s with inputs := rest } addr width
  have answered (u : State) :
      step (withHidden u s) = .next (withHidden u { s with inputs := rest, reply := some r }) :=
    calc
      step (withHidden u s) = .next (busRead addr width (withHidden u { s with inputs := rest })) :=
        step_of_access (s := withHidden u s) hi
      _ = .next (withHidden u { s with inputs := rest, reply := some r }) := by rw [busRead_withHidden, hr]
  exact ⟨r, answered s, answered { s with
    key := key, chain := chain, cur := cur, phase := phase, bptr := bptr, ivptr := ivptr, rngPend := rngPend }⟩

end Sys2Proof

/-! ## A transform computes its reference function (R152 to R166) -/

namespace Sys2Proof

open Sys2Proof.Machine

variable {m : Mode} {d : Dir} {s : State}

/-! ### The reference functions, segment by segment -/

/-- What a transform makes of one segment `x` with chaining value `prev`: the bytes it stores and the next chaining
value (R160, R161, R163, R164). -/
def segmentFn (e : Equiv.Perm Block) (prev : Block) (x : List Byte) : Mode → Dir → List Byte × Block
  | .cfb, .encrypt => (xorBytes x (e prev).toList, blockOf (xorBytes x (e prev).toList))
  | .cfb, .decrypt => (xorBytes x (e prev).toList, blockOf x)
  | .cbc, .encrypt => ((e (blockOf (xorBytes x prev.toList))).toList, e (blockOf (xorBytes x prev.toList)))
  | .cbc, .decrypt => (xorBytes (e.symm (blockOf x)).toList prev.toList, blockOf x)

/-- `n` segments, one after another. -/
def segmentsFn (m : Mode) (d : Dir) (e : Equiv.Perm Block) : Nat → Block → List Byte → List Byte
  | 0, _, _ => []
  | n + 1, prev, x =>
    (segmentFn e prev (x.take 16) m d).1 ++ segmentsFn m d e n (segmentFn e prev (x.take 16) m d).2 (x.drop 16)

/-- A function that goes through its segments as `segmentsFn` does is `segmentsFn`. -/
theorem eq_segmentsFn {e : Equiv.Perm Block} {blocks : Nat → Block → List Byte → List Byte}
    (h0 : ∀ prev x, blocks 0 prev x = [])
    (h1 : ∀ n prev x, blocks (n + 1) prev x =
      (segmentFn e prev (x.take 16) m d).1 ++ blocks n (segmentFn e prev (x.take 16) m d).2 (x.drop 16))
    (n : Nat) (prev : Block) (x : List Byte) : blocks n prev x = segmentsFn m d e n prev x := by
  induction n generalizing prev x with
  | zero => exact h0 prev x
  | succ n ih => rw [h1, ih, segmentsFn]

/-- The four reference functions are one recursion over segments (R152 to R155). -/
theorem transformFn_eq_segmentsFn (m : Mode) (d : Dir) (e : Equiv.Perm Block) (iv : Block) (x : List Byte) :
    transformFn m d e iv x = segmentsFn m d e (ceilDiv16 x.length) iv x := by
  cases m with
  | cfb =>
    cases d with
    | encrypt => exact eq_segmentsFn (fun _ _ => rfl) (cfbEncBlocks_succ e) _ _ _
    | decrypt => exact eq_segmentsFn (fun _ _ => rfl) (cfbDecBlocks_succ e) _ _ _
  | cbc =>
    cases d with
    | encrypt => exact eq_segmentsFn (blocks := cbcEncBlocks e) (fun _ _ => rfl) (fun _ _ _ => rfl) _ _ _
    | decrypt => exact eq_segmentsFn (blocks := cbcDecBlocks e) (fun _ _ => rfl) (fun _ _ _ => rfl) _ _ _

/-! ### One block step -/

/-- The block function of a transform's step. -/
def blockFn (s : State) : Mode → Dir → List Byte → List Byte × Block
  | .cfb, .encrypt => encCfbBlock s
  | .cfb, .decrypt => decCfbBlock s
  | .cbc, .encrypt => encCbcBlock s
  | .cbc, .decrypt => decCbcBlock s

/-- A transform in PHASE RUN, past its checks, with only the block's own turns to come. -/
structure InTransform (m : Mode) (d : Dir) (s : State) : Prop where
  /-- A command executes. -/
  busy : s.busy = true
  /-- Its checks have passed. -/
  phase : s.phase = .run
  /-- It is the transform of mode `m` and direction `d`. -/
  cur : s.cur = encode (transformOf m d)
  /-- The host waits. -/
  waiting : s.inputs = []
  /-- LEN is legal (R158). -/
  fits : s.len.toNat ≤ bufBytes s.cfg
  /-- CBC has whole blocks only (R158). -/
  whole : m = .cbc → s.len.toNat % 16 = 0
  /-- BUF is canonical. -/
  canonical : Cells.wf s.buf = true

/-- The bytes the next block step reads. -/
def segmentAt (s : State) : List Byte := Cells.readAll s.buf (16 * s.bptr) (segmentLen s)

@[simp] theorem length_segmentAt (s : State) : (segmentAt s).length = segmentLen s := by simp [segmentAt]

/-- What the next block step makes of them. -/
def segmentOut (m : Mode) (d : Dir) (s : State) : List Byte × Block :=
  segmentFn (keyedCipher s) s.chain (segmentAt s) m d

/-- The step stores `segmentFn`'s bytes: a short CFB segment is XORed with as many bytes of the cipher's output. -/
theorem blockFn_fst (s : State) (m : Mode) (d : Dir) : (blockFn s m d (segmentAt s)).1 = (segmentOut m d s).1 := by
  have hcut (o : Block) : xorBytes (segmentAt s) (o.toList.take (segmentLen s)) = xorBytes (segmentAt s) o.toList := by
    rw [← length_segmentAt, xorBytes_take_right]
  cases m with
  | cfb => cases d <;> exact hcut _
  | cbc => cases d <;> rfl

/-- CHAIN takes `segmentFn`'s chaining value after a full block (R162). -/
theorem blockFn_snd (s : State) (m : Mode) (d : Dir) (h : segmentLen s = 16) :
    (blockFn s m d (segmentAt s)).2 = (segmentOut m d s).2 := by
  cases m with
  | cfb =>
    cases d with
    | encrypt => exact (if_pos h).trans (congrArg blockOf (blockFn_fst s .cfb .encrypt))
    | decrypt => exact if_pos h
  | cbc => cases d <;> rfl

/-- In CBC the output is a whole block, in CFB it is as long as the segment. -/
theorem length_segmentOut (hle : segmentLen s ≤ 16) (hm : m = .cbc → segmentLen s = 16) :
    (segmentOut m d s).1.length = segmentLen s := by
  cases m with
  | cfb => cases d <;> simp [segmentOut, segmentFn, hle]
  | cbc => cases d <;> simp [segmentOut, segmentFn, hm rfl]

/-- The block's turn is the transform's block step (R50, R156). -/
theorem InTransform.step_eq (h : InTransform m d s) (hn : s.bptr < blockCount s) :
    ∃ c, step s = .next (finishBlock (segmentOut m d s).1 c s) ∧ (segmentLen s = 16 → c = (segmentOut m d s).2) := by
  obtain ⟨hin, -⟩ := segmentLen_bounds hn h.fits
  have hexec : exec (transformOf m d) s = blockStep (segmentLen s) (blockFn s m d) s := by
    cases m with
    | cfb =>
      cases d with
      | encrypt => exact exec_encCfb_run h.busy h.phase
      | decrypt => exact exec_decCfb_run h.busy h.phase
    | cbc =>
      rw [segmentLen_of_dvd hn (h.whole rfl)]
      cases d with
      | encrypt => exact exec_encCbc_run h.busy h.phase
      | decrypt => exact exec_decCbc_run h.busy h.phase
  refine ⟨(blockFn s m d (segmentAt s)).2, ?_, blockFn_snd s m d⟩
  calc
    step s = blockTurn s := step_of_nil h.waiting
    _ = exec (transformOf m d) s := blockTurn_of_decoded h.busy (decodeWord_eq_some.mpr h.cur)
    _ = blockStep (segmentLen s) (blockFn s m d) s := hexec
    _ = .next (finishBlock (blockFn s m d (segmentAt s)).1 (blockFn s m d (segmentAt s)).2 s) :=
      blockStep_of_inside hn hin
    _ = .next (finishBlock (segmentOut m d s).1 (blockFn s m d (segmentAt s)).2 s) := by rw [blockFn_fst]

/-! ### All block steps -/

/-- `s` after a transform that ended with `buf` in BUF (R159). -/
def transformEnd (buf : Cells) (s : State) : State :=
  { s with
    buf := buf, bptr := blockCount s, key := zeroKey, keyValid := false, ivFresh := false, chain := zeroBlock
    busy := false, done := true, phase := .idle }

/-- BUF after the blocks from BPTR on have gone through `segmentsFn`. -/
structure Processed (m : Mode) (d : Dir) (n : Nat) (s : State) (buf : Cells) : Prop where
  /-- The bytes from block BPTR to LEN. -/
  bytes : Cells.readAll buf (16 * s.bptr) (s.len.toNat - 16 * s.bptr) =
    segmentsFn m d (keyedCipher s) n s.chain (Cells.readAll s.buf (16 * s.bptr) (s.len.toNat - 16 * s.bptr))
  /-- Every other byte. -/
  others : ∀ a, a < 16 * s.bptr ∨ s.len.toNat ≤ a → Cells.read buf a = Cells.read s.buf a

/-- What the next block step leaves in BUF. -/
def bufAfter (m : Mode) (d : Dir) (s : State) : Cells := Cells.writeAll s.buf (16 * s.bptr) (segmentOut m d s).1

theorem InTransform.length_out (h : InTransform m d s) (hn : s.bptr < blockCount s) :
    (segmentOut m d s).1.length = segmentLen s :=
  length_segmentOut (segmentLen_bounds hn h.fits).2.2.1 fun hm => segmentLen_of_dvd hn (h.whole hm)

theorem InTransform.readAll_bufAfter (h : InTransform m d s) (hn : s.bptr < blockCount s) :
    Cells.readAll (bufAfter m d s) (16 * s.bptr) (segmentLen s) = (segmentOut m d s).1 := by
  rw [← h.length_out hn]
  exact Cells.readAll_writeAll h.canonical

theorem InTransform.read_bufAfter (h : InTransform m d s) (hn : s.bptr < blockCount s) {a : Nat}
    (ha : a < 16 * s.bptr ∨ 16 * s.bptr + segmentLen s ≤ a) :
    Cells.read (bufAfter m d s) a = Cells.read s.buf a := by
  rw [bufAfter, Cells.read_writeAll h.canonical, h.length_out hn, if_neg (by omega)]

/-- The last block: the transform ends, and what is left of LEN is one segment. -/
theorem InTransform.lastStep (h : InTransform m d s) (hn : s.bptr + 1 = blockCount s) :
    step s = .next (transformEnd (bufAfter m d s) s) ∧ Processed m d 1 s (bufAfter m d s) := by
  have hleft : s.bptr < blockCount s := by omega
  obtain ⟨c, hstep, -⟩ := h.step_eq hleft
  have hseg : s.len.toNat - 16 * s.bptr = segmentLen s := by
    unfold segmentLen; unfold blockCount ceilDiv16 at hn; omega
  have hle : segmentLen s ≤ 16 := Nat.min_le_left _ _
  refine ⟨?_, ?_, fun a ha => h.read_bufAfter hleft (by omega)⟩
  · rw [hstep, finishBlock_of_last _ _ hn, hn]; rfl
  · have hcut : (segmentAt s).take 16 = segmentAt s := List.take_of_length_le (by rw [length_segmentAt]; exact hle)
    rw [hseg, h.readAll_bufAfter hleft, ← segmentAt, segmentsFn, segmentsFn, List.append_nil, hcut, segmentOut]

/-- The state after a block step that is not the last. -/
def nextSegment (m : Mode) (d : Dir) (s : State) : State :=
  { s with buf := bufAfter m d s, chain := (segmentOut m d s).2, bptr := s.bptr + 1 }

/-- Any other block: the transform goes on with the next one. -/
theorem InTransform.nextStep (h : InTransform m d s) (hn : s.bptr + 1 < blockCount s) :
    step s = .next (nextSegment m d s) ∧ InTransform m d (nextSegment m d s) := by
  have hleft : s.bptr < blockCount s := by omega
  obtain ⟨c, hstep, hc⟩ := h.step_eq hleft
  refine ⟨?_, ⟨h.busy, h.phase, h.cur, h.waiting, h.fits, h.whole, Cells.wf_writeAll h.canonical⟩⟩
  rw [hstep, finishBlock_of_not_last _ _ (by omega), hc ((segmentLen_bounds hleft h.fits).2.2.2.2 hn)]
  rfl

/-- One more block in front of those already processed. -/
theorem InTransform.processed_succ (h : InTransform m d s) {n : Nat} {buf : Cells} (hn : s.bptr + 1 < blockCount s)
    (hp : Processed m d n (nextSegment m d s) buf) : Processed m d (n + 1) s buf := by
  have hleft : s.bptr < blockCount s := by omega
  have h16 : segmentLen s = 16 := (segmentLen_bounds hleft h.fits).2.2.2.2 hn
  have hbytes : Cells.readAll buf (16 * (s.bptr + 1)) (s.len.toNat - 16 * (s.bptr + 1)) =
      segmentsFn m d (keyedCipher s) n (segmentOut m d s).2
        (Cells.readAll (bufAfter m d s) (16 * (s.bptr + 1)) (s.len.toNat - 16 * (s.bptr + 1))) := hp.bytes
  have hothers : ∀ a, a < 16 * (s.bptr + 1) ∨ s.len.toNat ≤ a → Cells.read buf a = Cells.read (bufAfter m d s) a :=
    hp.others
  have hfull : 16 * s.bptr + 16 ≤ s.len.toNat := full_block_of_not_last hn
  set rest := s.len.toNat - 16 * (s.bptr + 1)
  have hlen : s.len.toNat - 16 * s.bptr = 16 + rest := by omega
  have hstart : 16 * (s.bptr + 1) = 16 * s.bptr + 16 := by omega
  have hfirst : Cells.readAll buf (16 * s.bptr) 16 = (segmentOut m d s).1 := by
    rw [← h.readAll_bufAfter hleft, h16]
    exact Cells.readAll_congr fun b _ hb => hothers b (.inl (by omega))
  have hlater : Cells.readAll (bufAfter m d s) (16 * s.bptr + 16) rest = Cells.readAll s.buf (16 * s.bptr + 16) rest :=
    Cells.readAll_congr fun b hb _ => h.read_bufAfter hleft (.inr (by omega))
  have hout : segmentFn (keyedCipher s) s.chain (Cells.readAll s.buf (16 * s.bptr) 16) m d = segmentOut m d s := by
    rw [segmentOut, segmentAt, h16]
  rw [hstart, hlater] at hbytes
  refine ⟨?_, fun a ha => (hothers a (by omega)).trans (h.read_bufAfter hleft (by omega))⟩
  rw [hlen, Cells.readAll_add, hfirst, hbytes, segmentsFn, Cells.take_readAll _ _ _ _ (by omega), Cells.drop_readAll,
    Nat.add_sub_cancel_left, hout]

/-- `n + 1` blocks before the end, `n + 1` steps process them. -/
theorem InTransform.runSteps_eq (h : InTransform m d s) (n : Nat) (hn : s.bptr + n + 1 = blockCount s) :
    ∃ buf, runSteps (n + 1) s = .next (transformEnd buf s) ∧ Processed m d (n + 1) s buf := by
  induction n generalizing s with
  | zero =>
    obtain ⟨hstep, hp⟩ := h.lastStep hn
    exact ⟨_, runSteps_one.trans hstep, hp⟩
  | succ n ih =>
    have hmore : s.bptr + 1 < blockCount s := by omega
    obtain ⟨hstep, hu⟩ := h.nextStep hmore
    have hcount : (nextSegment m d s).bptr + n + 1 = blockCount (nextSegment m d s) := by
      change s.bptr + 1 + n + 1 = blockCount s
      omega
    obtain ⟨buf, hrun, hp⟩ := ih hu hcount
    exact ⟨buf, (runSteps_succ hstep).trans hrun, h.processed_succ hmore hp⟩

/-! ### From the CTRL write to the end -/

/-- A transform whose checks all pass starts, or ends at once where LEN is 0 (R158). -/
theorem transformStart_of_checks (hk : s.keyValid = true) (hl : s.len.toNat ≤ bufBytes s.cfg)
    (hm : m = .cbc → s.len.toNat % 16 = 0) (hd : d = .encrypt → s.ivFresh = true) :
    transformStart m d s =
      if s.len.toNat = 0 then transformDone { s with chain := s.iv, phase := .run }
      else { s with chain := s.iv, phase := .run } := by
  have hwhole : ¬ (m = .cbc ∧ s.len.toNat % 16 ≠ 0) := fun h => h.2 (hm h.1)
  have hfresh : ¬ (d = .encrypt ∧ s.ivFresh = false) := fun h => by simp [hd h.1] at h
  rw [transformStart, if_neg (by simp [hk]), if_neg (by omega), if_neg hwhole, if_neg hfresh]

/-- Settles O20: acceptance, the start step, and one block step per segment. -/
theorem transformComputesReferenceFunction : Obligations.TransformComputesReferenceFunction := by
  unfold Obligations.TransformComputesReferenceFunction
  intro m d s hb hk hwf hi hl hm hd
  have haccept := (ctrlWriteAcceptance s (encode (transformOf m d)) [] hi).2.1 hb (encode_transformOf_ne_zero m d)
  set u : State := { s with
    inputs := [], reply := some .writeOk, done := false, err := false, ecode := .none
    cur := encode (transformOf m d), phase := .check, bptr := 0, ivptr := 0, busy := true }
  have hstart : step u = .next (transformStart m d u) :=
    calc
      step u = blockTurn u := step_of_nil rfl
      _ = exec (transformOf m d) u := blockTurn_of_decoded rfl (decodeWord_eq_some.mpr rfl)
      _ = .next (transformStart m d u) := exec_transform_check m d rfl rfl
  rw [transformStart_of_checks (s := u) hk hl hm hd] at hstart
  rw [show 2 + ceilDiv16 s.len.toNat = ceilDiv16 s.len.toNat + 1 + 1 by omega, runSteps_succ haccept,
    runSteps_succ hstart, transformFn_eq_segmentsFn, Cells.length_readAll]
  by_cases h0 : s.len.toNat = 0
  · rw [if_pos h0, h0]
    exact ⟨_, rfl, rfl, fun _ _ => rfl, rfl⟩
  · rw [if_neg h0]
    obtain ⟨n, hn⟩ := Nat.exists_eq_add_one_of_ne_zero (ceilDiv16_pos (Nat.pos_of_ne_zero h0)).ne'
    have hcount : 0 + n + 1 = ceilDiv16 s.len.toNat := by omega
    have hrun : InTransform m d { u with chain := u.iv, phase := .run } := ⟨rfl, rfl, rfl, rfl, hl, hm, hwf⟩
    obtain ⟨buf, hsteps, hp⟩ := hrun.runSteps_eq n hcount
    rw [hn, hsteps]
    exact ⟨_, rfl, hp.bytes, fun a ha => hp.others a (.inr ha), by rw [← hn]; rfl⟩

end Sys2Proof

/-! ## The statements of the state: the invariant, and what alone changes a piece of state -/

namespace Sys2Proof

open Sys2Proof.Machine

/-- Settles O45, case by case over what the step can be. -/
theorem everyStepKeepsInvariant : Obligations.EveryStepKeepsInvariant := by
  unfold Obligations.EveryStepKeepsInvariant
  exact fun s t hs h => hs.step (stepTo_of_step h)

/-- Settles O44: after reset the block is idle. -/
theorem invariantHoldsAtReset : Obligations.InvariantHoldsAtReset := by
  unfold Obligations.InvariantHoldsAtReset
  exact inv_resetWith

/-- Settles O33: of all steps only INIT's success writes 1 to KEYVALID. -/
theorem keyValidSetOnlyByInit : Obligations.KeyValidSetOnlyByInit := by
  unfold Obligations.KeyValidSetOnlyByInit
  intro s t h hs ht
  cases stepTo_of_step h with
  | turn rest turn =>
    cases turn with
    | keyInit busy phase cur legal => exact ⟨busy, phase, cur, legal, rfl, rfl⟩
    | _ => simp_all
  | _ => simp_all

/-- Settles O34: of all steps only GENIV's sixteenth byte writes 1 to IVFRESH. -/
theorem ivFreshSetOnlyByGeniv : Obligations.IvFreshSetOnlyByGeniv := by
  unfold Obligations.IvFreshSetOnlyByGeniv
  intro s t h hs ht
  cases stepTo_of_step h with
  | turn rest turn =>
    cases turn with
    | lastByte b busy phase cur pending last => exact ⟨busy, phase, cur, pending, last, rfl, rfl⟩
    | _ => simp_all
  | _ => simp_all

/-- Settles O35: no turn of the block writes IRQEN, and of the host's accesses one write does. -/
theorem irqenChangedOnlyByHost : Obligations.IrqenChangedOnlyByHost := by
  unfold Obligations.IrqenChangedOnlyByHost
  intro s t h hne
  cases stepTo_of_step h with
  | turn rest turn => exact absurd turn.doneIe hne
  | irqen w rest first => exact .inl ⟨w, rest, first⟩
  | reset rest first => exact .inr ⟨rest, first⟩
  | _ => simp at hne

/-- Settles O36: of the block's turns only ZEROIZE writes LEN and KLEN, and each has one host write. -/
theorem lengthsChangedOnlyBy : Obligations.LengthsChangedOnlyBy := by
  unfold Obligations.LengthsChangedOnlyBy
  refine ⟨fun s t h hne => ?_, fun s t h hne => ?_⟩
  · cases stepTo_of_step h with
    | turn rest turn =>
      rcases turn.lengths with ⟨hlen, -⟩ | ⟨hb, hp, hc, hlen, -⟩
      · exact absurd hlen hne
      · exact .inr (.inr ⟨hb, hp, hc, hlen⟩)
    | len w rest idle first => exact .inl ⟨w, rest, first, rfl⟩
    | reset rest first => exact .inr (.inl ⟨rest, first, rfl⟩)
    | _ => simp at hne
  · cases stepTo_of_step h with
    | turn rest turn =>
      rcases turn.lengths with ⟨-, hklen⟩ | ⟨hb, hp, hc, -, hklen⟩
      · exact absurd hklen hne
      · exact .inr (.inr ⟨hb, hp, hc, hklen⟩)
    | klen w rest idle first => exact .inl ⟨w, rest, first, rfl⟩
    | reset rest first => exact .inr (.inl ⟨rest, first, rfl⟩)
    | _ => simp at hne

/-- Settles O37: a turn leaves an idle block as it is, and no host access but a CTRL write touches the three fields. -/
theorem statusStaysUntilCtrlWrite : Obligations.StatusStaysUntilCtrlWrite := by
  unfold Obligations.StatusStaysUntilCtrlWrite
  intro s t h hb hne
  cases stepTo_of_step h with
  | turn rest turn =>
    rcases turn.eq_or_busy with rfl | hbusy
    · simp at hne
    · simp [hb] at hbusy
  | ctrl w v rest idle first => exact .inl ⟨w, rest, first⟩
  | reset rest first => exact .inr ⟨rest, first⟩
  | _ => simp at hne

/-- Settles O38: DONE rises in a turn that ends a command, DONEIE in a write to IRQEN, and no other step raises either;
an accepted CTRL write clears DONE. -/
theorem irqRisesAndFalls : Obligations.IrqRisesAndFalls := by
  unfold Obligations.IrqRisesAndFalls
  refine ⟨fun s t h hs ht => ?_, fun s w rest hb hi => ?_⟩
  · cases stepTo_of_step h with
    | turn rest turn =>
      rcases turn.done_same_or_ends with hdone | ⟨hb, hidle⟩
      · simp_all [irq, turn.doneIe]
      · exact .inl ⟨hb, hidle, by simpa [irq, turn.doneIe] using (Bool.and_eq_true_iff.mp ht).1⟩
    | irqen w rest first =>
      obtain ⟨hw, hdone⟩ := Bool.and_eq_true_iff.mp ht
      exact .inr ⟨w, rest, first, hw, hdone⟩
    | _ => simp_all [irq]
  · have hw := ctrlWriteAcceptance s w rest hi
    by_cases h0 : w = 0x00000000#32
    · exact ⟨_, hw.1 hb h0, by simp [irq]⟩
    · exact ⟨_, hw.2.1 hb h0, by simp [irq]⟩

/-- Settles O41: every case of a step leaves the configuration alone. -/
theorem configurationIsFixed : Obligations.ConfigurationIsFixed := by
  unfold Obligations.ConfigurationIsFixed
  intro s t h
  cases stepTo_of_step h with
  | turn rest turn => exact turn.cfg
  | _ => simp

end Sys2Proof

/-! ## The host's window: byte lanes, bus errors, and the busy rule (R81 to R90) -/

namespace Sys2Proof

open Sys2Proof.Machine

variable {s : State}

/-! ### Byte lanes -/

/-- Byte lane `j` of a word assembled from bytes. -/
theorem laneByte_wordAt_of_lt (f : Nat → Byte) (i : Nat) {j : Nat} (hj : j < 4) :
    laneByte (wordAt f i) j = f (4 * i + j) := by
  obtain ⟨h0, h1, h2, h3⟩ := laneByte_wordAt f i
  rcases (by omega : j = 0 ∨ j = 1 ∨ j = 2 ∨ j = 3) with rfl | rfl | rfl | rfl
  · exact h0
  · exact h1
  · exact h2
  · exact h3

/-- `getElem_putWord`, for a byte vector read as a byte sequence. -/
theorem getD_putWord {n : Nat} (v : Vector Byte n) (i : Nat) (w : Word) {a : Nat} (ha : a < n) :
    (putWord v i w).toList.getD a 0#8 = if a / 4 = i then laneByte w (a % 4) else v.toList.getD a 0#8 := by
  simp [ha, getElem_putWord]

/-- Settles O22: a word's lanes are the bytes it is assembled from, and a stored word puts its lanes in its bytes. -/
theorem byteLanesLittleEndian : Obligations.ByteLanesLittleEndian := by
  unfold Obligations.ByteLanesLittleEndian
  exact ⟨fun f i _ hj => laneByte_wordAt_of_lt f i hj, fun v i _ w _ ha => getD_putWord v i w ha,
    fun v i _ w _ ha => getD_putWord v i w ha, fun _ i a w hwf => read_writeAll_wordBytes hwf i a w⟩

/-! ### Which offsets an access reaches -/

/-- Accesses of another width or alignment, or at an offset that R82 reserves, reach nothing. -/
theorem reach_eq_none {c : Config} {width : Width} {addr : Offset}
    (h : width ≠ .word ∨ addr.toNat % 4 ≠ 0 ∨ addr.toNat = 0x1C ∨ (0x50 ≤ addr.toNat ∧ addr.toNat < 0x10000) ∨
      0x10000 + bufBytes c ≤ addr.toNat) :
    reach c width addr = none := by
  unfold reach
  split
  case isFalse => rfl
  case isTrue hw =>
    obtain ⟨hword, halign⟩ := hw
    have hreserved : addr.toNat = 0x1C ∨ (0x50 ≤ addr.toNat ∧ addr.toNat < 0x10000) ∨
        0x10000 + bufBytes c ≤ addr.toNat := by simpa [hword, halign] using h
    unfold addressMap
    repeat rw [if_neg (by omega)]

/-- An access reaches a name of the map at that name's own offset only. -/
theorem eq_targetOffset_of_reach {c : Config} {width : Width} {addr : Offset} {g : Target}
    (h : reach c width addr = some g) : addr = targetOffset g := by
  obtain ⟨-, halign, hm⟩ := reach_some h
  have hlt := addr.isLt
  apply BitVec.eq_of_toNat_eq
  unfold addressMap at hm
  repeat' split at hm
  all_goals cases hm
  all_goals
    simp only [targetOffset, BitVec.toNat_ofNat]
    omega

/-- While BUSY, a read at another offset than those of ID, CAP, STATUS and IRQEN reaches nothing readable. -/
theorem not_readableBusy_of_reach {c : Config} {width : Width} {addr : Offset} {g : Target}
    (ha : addr ≠ 0x00000#17 ∧ addr ≠ 0x00004#17 ∧ addr ≠ 0x0000C#17 ∧ addr ≠ 0x00010#17)
    (h : reach c width addr = some g) : readableBusy g = false := by
  obtain ⟨hid, hcap, hstatus, hirqen⟩ := ha
  have he := eq_targetOffset_of_reach h
  cases g with
  | id => exact absurd he hid
  | cap => exact absurd he hcap
  | status => exact absurd he hstatus
  | irqen => exact absurd he hirqen
  | _ => rfl

/-- While BUSY, a write at another offset than IRQEN's reaches nothing writable. -/
theorem not_writableBusy_of_reach {c : Config} {width : Width} {addr : Offset} {g : Target} (ha : addr ≠ 0x00010#17)
    (h : reach c width addr = some g) : writableBusy g = false := by
  have he := eq_targetOffset_of_reach h
  cases g with
  | irqen => exact absurd he ha
  | _ => rfl

/-! ### Bus errors -/

/-- A read gets a bus error where nothing is reached, or nothing that BUSY lets it read (R82, R85, R86, R90). -/
theorem step_read_error {addr : Offset} {width : Width} {rest : List Input}
    (hi : s.inputs = .access (.read addr width) :: rest)
    (h : ∀ g, reach s.cfg width addr = some g → s.busy = true ∧ readableBusy g = false) :
    step s = .next { s with inputs := rest, reply := some .readErr } := by
  rw [step_of_access hi]
  cases hr : reach s.cfg width addr with
  | none => simp [busAccess, busRead, hr]
  | some g => simp [busAccess, busRead, hr, h g hr]

/-- As `step_read_error`, for a write. -/
theorem step_write_error {addr : Offset} {width : Width} {w : Word} {rest : List Input}
    (hi : s.inputs = .access (.write addr width w) :: rest)
    (h : ∀ g, reach s.cfg width addr = some g → s.busy = true ∧ writableBusy g = false) :
    step s = .next { s with inputs := rest, reply := some .writeErr } := by
  rw [step_of_access hi]
  cases hr : reach s.cfg width addr with
  | none => exact busWrite_unmapped (s := { s with inputs := rest }) hr
  | some g => exact busWrite_refused (s := { s with inputs := rest }) hr (by simp [h g hr])

/-- Settles O25: such an access reaches nothing. -/
theorem badAccessIsBusError : Obligations.BadAccessIsBusError := by
  unfold Obligations.BadAccessIsBusError
  intro s a addr width data rest ha hi hbad
  have hr : reach s.cfg width addr = none := reach_eq_none hbad
  rcases ha with rfl | rfl
  · exact step_read_error hi (by simp [hr])
  · exact step_write_error hi (by simp [hr])

/-! ### Accesses that BUSY does not shut out -/

/-- BUSY or not, a read of ID, CAP, STATUS or IRQEN answers its value and changes nothing else (R88, R90). -/
theorem step_read_readableBusy {addr : Offset} {rest : List Input} {g : Target} (hg : readableBusy g = true)
    (hi : s.inputs = .access (.read addr .word) :: rest) (hr : reach s.cfg .word addr = some g) :
    step s = .next { s with inputs := rest, reply := some (.readOk (readTarget { s with inputs := rest } g)) } := by
  rw [step_of_access hi]
  simp [busAccess, busRead, hr, hg]

theorem irqenWord_eq (s : State) : irqenWord s = if s.doneIe then 1#32 else 0#32 := by simp [irqenWord, flagAt]

/-- Settles O27: the first four registers are readable at any time, the others while the block is idle. -/
theorem readsReturn : Obligations.ReadsReturn := by
  unfold Obligations.ReadsReturn
  rintro s addr rest d hi (⟨rfl, rfl⟩ | ⟨rfl, rfl⟩ | ⟨rfl, rfl⟩ | ⟨rfl, rfl⟩ | ⟨hb, hidle⟩)
  · exact step_read_readableBusy (g := .id) rfl hi rfl
  · exact step_read_readableBusy (g := .cap) rfl hi rfl
  · exact step_read_readableBusy (g := .status) rfl hi rfl
  · rw [← irqenWord_eq s]
    exact step_read_readableBusy (g := .irqen) rfl hi rfl
  · rcases hidle with ⟨rfl, rfl⟩ | ⟨rfl, rfl⟩ | ⟨rfl, rfl⟩ | ⟨i, hlt, ha, rfl⟩ | ⟨i, hlt, ha, rfl⟩ | ⟨i, hlt, ha, rfl⟩
    · exact step_read_idle (g := .ctrl) hb hi rfl
    · exact step_read_idle (g := .klen) hb hi rfl
    · exact step_read_idle (g := .len) hb hi rfl
    · exact step_read_idle hb hi (reach_key hlt ha)
    · exact step_read_idle hb hi (reach_iv hlt ha)
    · exact step_read_idle hb hi (reach_buf hlt ha)

/-- A write to IRQEN is served at any time (R43, R90). -/
theorem step_write_irqen {w : Word} {rest : List Input}
    (hi : s.inputs = .access (.write 0x00010#17 .word w) :: rest) :
    step s = .next { s with inputs := rest, reply := some .writeOk, doneIe := w.getLsbD 0 } := by
  have hr : reach s.cfg .word 0x00010#17 = some .irqen := rfl
  rw [step_of_access hi]
  exact busWrite_served (s := { s with inputs := rest }) hr (by simp [writableBusy])

/-- Settles O26: every access but the five that BUSY lets through reaches nothing it may use. -/
theorem busyRule : Obligations.BusyRule := by
  unfold Obligations.BusyRule
  intro s rest hb
  exact ⟨fun addr width hi ha => step_read_error hi fun g hr => ⟨hb, not_readableBusy_of_reach ha hr⟩,
    fun addr width w hi ha => step_write_error hi fun g hr => ⟨hb, not_writableBusy_of_reach ha hr⟩,
    fun hi => readsReturn s _ rest _ hi (.inl ⟨rfl, rfl⟩),
    fun hi => readsReturn s _ rest _ hi (.inr (.inl ⟨rfl, rfl⟩)),
    fun hi => readsReturn s _ rest _ hi (.inr (.inr (.inl ⟨rfl, rfl⟩))),
    fun hi => readsReturn s _ rest _ hi (.inr (.inr (.inr (.inl ⟨rfl, rfl⟩)))),
    fun _ hi => step_write_irqen hi⟩

/-- Settles O32: a read changes the response only, and of what a write can do all but IRQEN's needs BUSY = 0. -/
theorem busyBlockShutsHostOut : Obligations.BusyBlockShutsHostOut := by
  unfold Obligations.BusyBlockShutsHostOut
  intro s t a rest hb hi h
  rw [step_of_access hi] at h
  cases a with
  | read addr width =>
    obtain ⟨r, hr⟩ := busRead_replied { s with inputs := rest } addr width
    injection h with h
    rw [← h, hr]
  | write addr width w =>
    rcases busWrite_next h with ⟨r, rfl⟩ | ⟨-, -, rfl⟩ | ⟨hidle, -⟩
    · rfl
    · rfl
    · exact absurd (hidle : s.busy = false) (by simp [hb])

end Sys2Proof

/-! ## Command words: decoding, reserved words and the sub-fields of a transform (R120 to R123) -/

namespace Sys2Proof

open Sys2Proof.Machine

/-- Settles O1: the decoder answers a command for its own word only, and R122's words are written out in `encode`. -/
theorem decodeSelectsByWholeWord : Obligations.DecodeSelectsByWholeWord := by
  unfold Obligations.DecodeSelectsByWholeWord
  exact ⟨fun _ _ => decodeWord_eq_some, rfl, rfl, rfl, rfl, rfl, rfl, rfl, rfl⟩

/-- R123, by the two fields of the word. -/
theorem decodeWord_eq_none {w : Word} :
    decodeWord w = none ↔ rsvdField w ≠ 0#28 ∨ cmdField w = 0x3#4 ∨ 0x9#4 ≤ cmdField w := by
  unfold decodeWord
  split
  case isTrue hr => simp [hr, decodeCmd_eq_none]
  case isFalse hr => simp [hr]

/-- Settles O2: the two fields are the bits the statement names. -/
theorem reservedWordsAreExactly : Obligations.ReservedWordsAreExactly := by
  unfold Obligations.ReservedWordsAreExactly
  exact fun _ => decodeWord_eq_none

/-- Settles O3: each command's own word decodes to it, and R123's two fields tell the reserved words. -/
theorem commandCodesDecode : Obligations.CommandCodesDecode := by
  unfold Obligations.CommandCodesDecode
  have command (i : Instr) : decodeWord (encode i) = some i := decodeWord_eq_some.mpr rfl
  exact ⟨command .clrstat, command .init, command .geniv, decodeWord_eq_none.mpr (by decide), command .encCfb,
    command .decCfb, command .encCbc, command .decCbc, command .zeroize, decodeWord_eq_none.mpr (by decide),
    decodeWord_eq_none.mpr (by decide), decodeWord_eq_none.mpr (by decide)⟩

/-- With RSVD = 0 the word is its CMD field (R120). -/
theorem word_eq_cmdField {w : Word} (h : rsvdField w = 0#28) : w = (cmdField w).setWidth 32 := by
  conv_lhs => rw [word_of_fields w, h]
  simp

/-- A transform word is the word of the command that its mode and direction fields name; of its CMD field there are 16
values to look at (R121). -/
theorem eq_encode_of_isTransformWord {w : Word} (h : isTransformWord w = true) :
    w = encode (transformOf (modeField w) (dirField w)) := by
  have hr : rsvdField w = 0#28 := by simpa using (Bool.and_eq_true_iff.mp h).1
  have small : ∀ c : BitVec 4, isTransformWord (c.setWidth 32) = true →
      c.setWidth 32 = encode (transformOf (modeField (c.setWidth 32)) (dirField (c.setWidth 32))) := by decide
  rw [word_eq_cmdField hr] at h ⊢
  exact small _ h

/-- Settles O4: the fields of the four words are read off, and any transform word has its fields' command. -/
theorem transformSubFields : Obligations.TransformSubFields := by
  unfold Obligations.TransformSubFields
  refine ⟨fun m d => ?_, fun w => ⟨fun h => ⟨_, _, eq_encode_of_isTransformWord h⟩, ?_⟩⟩
  · cases m <;> cases d <;> decide
  · rintro ⟨m, d, rfl⟩
    cases m <;> cases d <;> decide

/-! ### A reserved word's command (R232) -/

variable {s : State}

/-- The one engine step of a reserved word ends in BAD_CMD. -/
theorem blockTurn_of_reserved (hb : s.busy = true) (hp : s.phase = .check) (hd : decodeWord s.cur = none) :
    blockTurn s = .next (raiseErr .badCmd s) := by
  simp [blockTurn, hb, hd, reservedStep, hp]

/-- Settles O9: acceptance as of any word but 0, which is CLRSTAT's and so not reserved, then BAD_CMD's one step. -/
theorem reservedWordEndsInBadCmd : Obligations.ReservedWordEndsInBadCmd := by
  unfold Obligations.ReservedWordEndsInBadCmd
  intro s w hb hw hi
  have hd : decodeWord w = none := decodeWord_eq_none.mpr hw
  have hne : w ≠ 0x00000000#32 := by rintro rfl; cases hd
  have haccept := (ctrlWriteAcceptance s w [] hi).2.1 hb hne
  refine ⟨runSteps_one.trans haccept, (runSteps_succ haccept).trans (runSteps_one.trans ?_)⟩
  exact (step_of_nil rfl).trans (blockTurn_of_reserved rfl rfl hd)

end Sys2Proof

/-! ## The start steps of INIT and of the transforms (R157, R158) -/

namespace Sys2Proof

open Sys2Proof.Machine

variable {m : Mode} {d : Dir} {s : State}

/-- KLEN is in KEYSIZES, number by number (R9, R125). -/
theorem klenValid_iff : klenValid s = true ↔
    (s.klen.toNat = 16 ∧ s.cfg.keySizes.k16 = true ∨ s.klen.toNat = 24 ∧ s.cfg.keySizes.k24 = true ∨
      s.klen.toNat = 32 ∧ s.cfg.keySizes.k32 = true) := by
  simp [klenValid, inKeySizes, or_assoc]

/-- Every error but RANDOM_SOURCE leaves the IV (R310, R311). -/
theorem raiseErr_of_ne_randomSource {c : ECode} (hc : c ≠ .randomSource) : raiseErr c s = { s with
    key := zeroKey, keyValid := false, ivFresh := false, chain := zeroBlock, rngPend := false
    err := true, ecode := c, busy := false, done := true, phase := .idle } := by
  simp [raiseErr, hc, endOfCallClear]

theorem exec_init_check (hb : s.busy = true) (hp : s.phase = .check) : exec .init s = .next (initCheck s) := by
  rw [exec, execInit, commandStep_check hb hp]

/-- Settles O11, by the one check of INIT. -/
theorem initStep : Obligations.InitStep := by
  unfold Obligations.InitStep
  intro s hb hp
  rw [← klenValid_iff, exec_init_check hb hp, initCheck]
  refine ⟨fun hk => ?_, fun hk => ?_⟩
  · rw [if_pos hk]; rfl
  · rw [if_neg hk, raiseErr_of_ne_randomSource (by decide)]

/-- The first check that applies is the one reported (R158, R308). -/
theorem transformStart_of_failed {c : ECode}
    (h : s.keyValid = false ∧ c = .noKey ∨
      s.keyValid = true ∧ bufBytes s.cfg < s.len.toNat ∧ c = .lenRange ∨
      s.keyValid = true ∧ s.len.toNat ≤ bufBytes s.cfg ∧ m = .cbc ∧ s.len.toNat % 16 ≠ 0 ∧ c = .malformed ∨
      s.keyValid = true ∧ s.len.toNat ≤ bufBytes s.cfg ∧ (m = .cbc → s.len.toNat % 16 = 0) ∧ d = .encrypt ∧
        s.ivFresh = false ∧ c = .ivStale) :
    transformStart m d s = raiseErr c s ∧ c ≠ .randomSource := by
  rcases h with ⟨hk, rfl⟩ | ⟨hk, hl, rfl⟩ | ⟨hk, hl, hm, hw, rfl⟩ | ⟨hk, hl, hw, hd, hf, rfl⟩
  · exact ⟨if_pos hk, by decide⟩
  · rw [transformStart, if_neg (by simp [hk]), if_pos hl]
    exact ⟨rfl, by decide⟩
  · rw [transformStart, if_neg (by simp [hk]), if_neg (by omega), if_pos ⟨hm, hw⟩]
    exact ⟨rfl, by decide⟩
  · rw [transformStart, if_neg (by simp [hk]), if_neg (by omega), if_neg fun h => h.2 (hw h.1), if_pos ⟨hd, hf⟩]
    exact ⟨rfl, by decide⟩

/-- Settles O15: the first failed check, or the start that all checks allow. -/
theorem transformStartStep : Obligations.TransformStartStep := by
  unfold Obligations.TransformStartStep
  intro m d s hb hp
  rw [exec_transform_check m d hb hp]
  refine ⟨fun c hc => ?_, fun hk hl hm hd => ?_⟩
  · obtain ⟨herr, hne⟩ := transformStart_of_failed hc
    rw [herr, raiseErr_of_ne_randomSource hne]
  · rw [transformStart_of_checks hk hl hm hd]
    refine ⟨fun h0 => ?_, fun h0 => ?_⟩
    · rw [if_neg h0]
    · rw [if_pos h0]; rfl

end Sys2Proof

/-! ## One block step and its frame (R156, R159 to R165) -/

namespace Sys2Proof

open Sys2Proof.Machine

variable {s t : State}

/-- The state `t` after a block step from `s` that stored `out` and computed the chaining value `chain` (R159, R165). -/
structure BlockFinished (out : List Byte) (chain : Block) (s t : State) : Prop where
  /-- The bytes stored start at block BPTR; every other byte reads as before. -/
  bytes : ∀ a, bufByte t a =
    if 16 * s.bptr ≤ a ∧ a < 16 * s.bptr + out.length then out.getD (a - 16 * s.bptr) 0#8 else bufByte s a
  /-- The bytes stored, read back. -/
  stored : Cells.readAll t.buf (16 * s.bptr) out.length = out
  /-- A block is left. -/
  next : s.bptr + 1 < ceilDiv16 s.len.toNat → t = { s with buf := t.buf, bptr := s.bptr + 1, chain := chain }
  /-- No block is left. -/
  last : s.bptr + 1 = ceilDiv16 s.len.toNat → t = { s with
    buf := t.buf, bptr := s.bptr + 1, key := zeroKey, keyValid := false, ivFresh := false
    chain := zeroBlock, busy := false, done := true, phase := .idle }

theorem blockFinished_finishBlock (out : List Byte) (chain : Block) (hwf : Cells.wf s.buf = true) :
    BlockFinished out chain s (finishBlock out chain s) where
  bytes a := by
    unfold bufByte
    rw [finishBlock_buf, Cells.read_writeAll hwf]
  stored := by rw [finishBlock_buf, Cells.readAll_writeAll hwf]
  next h := by rw [finishBlock_of_not_last out chain (Nat.ne_of_lt h)]
  last h := by rw [finishBlock_of_last out chain h]

/-- A block step inside BUF stores what its block function makes of the bytes read. -/
theorem blockStep_finished {r : Nat} {f : List Byte → List Byte × Block} (hwf : Cells.wf s.buf = true)
    (hn : s.bptr < blockCount s) (hr : 16 * s.bptr + r ≤ bufBytes s.cfg) :
    ∃ t, blockStep r f s = .next t ∧ BlockFinished (f (Cells.readAll s.buf (16 * s.bptr) r)).1
      (f (Cells.readAll s.buf (16 * s.bptr) r)).2 s t :=
  ⟨_, blockStep_of_inside hn hr, blockFinished_finishBlock _ _ hwf⟩

theorem getD_readAll (buf : Cells) (a : Nat) {n k : Nat} (hk : k < n) :
    (Cells.readAll buf a n).getD k 0#8 = Cells.read buf (a + k) := by
  simp [List.getD_eq_getElem?_getD, hk]

/-! ### CFB -/

/-- Only the last segment can be short (R126). -/
theorem segmentLen_of_not_last (h : s.bptr + 1 < blockCount s) : segmentLen s = 16 :=
  Nat.min_eq_left (by have := full_block_of_not_last h; omega)

/-- In either direction the bytes stored are the segment XORed with E(K, CHAIN) (R160, R161). -/
theorem segmentOut_cfb_fst (d : Dir) (s : State) :
    (segmentOut .cfb d s).1 = xorBytes (segmentAt s) (encBlock s s.chain).toList := by
  cases d <;> rfl

theorem length_segmentOut_cfb (d : Dir) (s : State) : (segmentOut .cfb d s).1.length = segmentLen s :=
  length_segmentOut (Nat.min_le_left _ _) fun h => by cases h

/-- CFB's block step stores the segment's output, and CHAIN takes the chaining value of a full block (R162). -/
theorem cfbBlockStep_finished (d : Dir) (hwf : Cells.wf s.buf = true) (hl : s.len.toNat ≤ bufBytes s.cfg)
    (hn : s.bptr < blockCount s) :
    ∃ t c, blockStep (segmentLen s) (blockFn s .cfb d) s = .next t ∧ BlockFinished (segmentOut .cfb d s).1 c s t ∧
      (segmentLen s = 16 → c = (segmentOut .cfb d s).2) := by
  obtain ⟨t, hstep, ht⟩ := blockStep_finished (f := blockFn s .cfb d) hwf hn (segmentLen_bounds hn hl).1
  exact ⟨t, _, hstep, blockFn_fst s .cfb d ▸ ht, blockFn_snd s .cfb d⟩

/-- What BUF holds after a block step of CFB. -/
theorem BlockFinished.cfb_bytes {d : Dir} {c : Block} (h : BlockFinished (segmentOut .cfb d s).1 c s t)
    (hl : s.len.toNat ≤ bufBytes s.cfg) (hn : s.bptr < blockCount s) (a : Nat) :
    bufByte t a =
      if 16 * s.bptr ≤ a ∧ a < min (16 * s.bptr + 16) s.len.toNat then
        bufByte s a ^^^ (encBlock s s.chain).toList.getD (a - 16 * s.bptr) 0#8
      else bufByte s a := by
  obtain ⟨-, -, hle, hend, -⟩ := segmentLen_bounds hn hl
  rw [h.bytes, length_segmentOut_cfb, hend, segmentOut_cfb_fst]
  split
  case isFalse => rfl
  case isTrue ha =>
    have hk : a - 16 * s.bptr < segmentLen s := by omega
    rw [getD_xorBytes _ _ _ (by rwa [length_segmentAt]) (by rw [length_toList_block]; omega), segmentAt,
      getD_readAll _ _ hk, Nat.add_sub_cancel' ha.1, bufByte]

/-- Settles O16: CHAIN takes the bytes stored, as they are read back from BUF. -/
theorem encCfbBlockStep : Obligations.EncCfbBlockStep := by
  unfold Obligations.EncCfbBlockStep
  intro s hb hp hwf hl hn
  obtain ⟨t, c, hstep, ht, hc⟩ := cfbBlockStep_finished .encrypt hwf hl hn
  refine ⟨t, (exec_encCfb_run hb hp).trans hstep, ht.cfb_bytes hl hn, fun hmore => ?_, ht.last⟩
  have hfull := segmentLen_of_not_last hmore
  have hstored := ht.stored
  rw [length_segmentOut_cfb, hfull] at hstored
  have hchain : c = blockOf (Cells.readAll t.buf (16 * s.bptr) 16) :=
    calc
      c = blockOf (segmentOut .cfb .encrypt s).1 := hc hfull
      _ = blockOf (Cells.readAll t.buf (16 * s.bptr) 16) := by rw [hstored]
  exact hchain ▸ ht.next hmore

/-- Settles O17: CHAIN takes the bytes read. -/
theorem decCfbBlockStep : Obligations.DecCfbBlockStep := by
  unfold Obligations.DecCfbBlockStep
  intro s hb hp hwf hl hn
  obtain ⟨t, c, hstep, ht, hc⟩ := cfbBlockStep_finished .decrypt hwf hl hn
  refine ⟨t, (exec_decCfb_run hb hp).trans hstep, ht.cfb_bytes hl hn, fun hmore => ?_, ht.last⟩
  have hfull := segmentLen_of_not_last hmore
  have hchain : c = blockOf (Cells.readAll s.buf (16 * s.bptr) 16) :=
    calc
      c = blockOf (segmentAt s) := hc hfull
      _ = blockOf (Cells.readAll s.buf (16 * s.bptr) 16) := by rw [segmentAt, hfull]
  exact hchain ▸ ht.next hmore

/-! ### CBC -/

/-- Settles O18: the block stored is the chaining value. -/
theorem encCbcBlockStep : Obligations.EncCbcBlockStep := by
  unfold Obligations.EncCbcBlockStep
  rintro s c hb hp hwf hin hn rfl
  obtain ⟨t, hstep, ht⟩ := blockStep_finished (f := encCbcBlock s) hwf hn hin
  refine ⟨t, (exec_encCbc_run hb hp).trans hstep, fun a => ?_, ht.next, ht.last⟩
  rw [ht.bytes, length_encCbcBlock]
  rfl

/-- Settles O19: the bytes stored are D(K, C) XOR CHAIN, and the block read is the chaining value. -/
theorem decCbcBlockStep : Obligations.DecCbcBlockStep := by
  unfold Obligations.DecCbcBlockStep
  rintro s c hb hp hwf hin hn rfl
  obtain ⟨t, hstep, ht⟩ := blockStep_finished (f := decCbcBlock s) hwf hn hin
  refine ⟨t, (exec_decCbc_run hb hp).trans hstep, fun a => ?_, ht.next, ht.last⟩
  rw [ht.bytes, length_decCbcBlock]
  split
  case isFalse => rfl
  case isTrue ha =>
    have hk : a - 16 * s.bptr < 16 := by omega
    exact getD_xorBytes _ _ _ (by rwa [length_toList_block]) (by rwa [length_toList_block])

end Sys2Proof

/-! ## How the modes cut off and how a changed byte spreads (R168, R169) -/

namespace Sys2Proof

open Sys2Proof.Machine

variable {m : Mode} {d : Dir}

/-! ### The first bytes (R169) -/

/-- A whole block gives a whole block. -/
theorem length_segmentFn_of_full (e : Equiv.Perm Block) (prev : Block) {x : List Byte} (hx : x.length = 16) :
    (segmentFn e prev x m d).1.length = 16 := by
  cases m with
  | cfb => cases d <;> simp [segmentFn, hx]
  | cbc => cases d <;> simp [segmentFn]

theorem take_xorBytes (a b : List Byte) (j : Nat) : (xorBytes a b).take j = xorBytes (a.take j) b := by
  apply List.ext_getElem
  · simp [Nat.min_assoc]
  · intro i hi hi'
    simp [getElem_xorBytes]

/-- A CFB segment goes byte by byte. -/
theorem take_segmentFn_cfb (e : Equiv.Perm Block) (prev : Block) (x : List Byte) (j : Nat) :
    (segmentFn e prev x .cfb d).1.take j = (segmentFn e prev (x.take j) .cfb d).1 := by
  cases d <;> exact take_xorBytes _ _ _

theorem length_segmentFn_cfb (e : Equiv.Perm Block) (prev : Block) (x : List Byte) :
    (segmentFn e prev x .cfb d).1.length = min x.length 16 := by
  cases d <;> simp [segmentFn]

/-- The first `j` bytes, whole blocks in CBC, depend on the first `j` bytes only. -/
theorem take_segmentsFn (e : Equiv.Perm Block) (n : Nat) (prev : Block) (x : List Byte) {j : Nat} (hj : j ≤ x.length)
    (hn : x.length ≤ 16 * n) (hm : m = .cbc → j % 16 = 0) :
    (segmentsFn m d e n prev x).take j = segmentsFn m d e (ceilDiv16 j) prev (x.take j) := by
  induction n generalizing prev x j with
  | zero =>
    obtain rfl : j = 0 := by omega
    rfl
  | succ n ih =>
    rcases Nat.lt_or_ge j 16 with hlt | hge
    · rcases Nat.eq_zero_or_pos j with rfl | hpos
      · rfl
      · cases m with
        | cbc => have := hm rfl; omega
        | cfb =>
          have hcount : ceilDiv16 j = 1 := by unfold ceilDiv16; omega
          have hinside : j ≤ (segmentFn e prev (x.take 16) .cfb d).1.length := by
            rw [length_segmentFn_cfb, List.length_take]; omega
          rw [hcount, segmentsFn, segmentsFn, segmentsFn, List.append_nil, List.take_append_of_le_length hinside,
            take_segmentFn_cfb, List.take_take, List.take_take, Nat.min_comm]
    · obtain ⟨k, rfl⟩ := Nat.exists_eq_add_of_le hge
      have hcount : ceilDiv16 (16 + k) = ceilDiv16 k + 1 := by unfold ceilDiv16; omega
      have hfull : (x.take 16).length = 16 := by rw [List.length_take]; omega
      have hlen := length_segmentFn_of_full (m := m) (d := d) e prev hfull
      have hrest := ih (segmentFn e prev (x.take 16) m d).2 (x.drop 16) (j := k) (by rw [List.length_drop]; omega)
        (by rw [List.length_drop]; omega) fun h => by have := hm h; omega
      rw [hcount, segmentsFn, segmentsFn, List.take_take, Nat.min_eq_left hge, List.drop_take, Nat.add_sub_cancel_left,
        List.take_append, hlen, Nat.add_sub_cancel_left, hrest, List.take_of_length_le (by omega)]

/-- R169 for all four reference functions at once. -/
theorem take_transformFn (e : Equiv.Perm Block) (iv : Block) (x : List Byte) {j : Nat} (hj : j ≤ x.length)
    (hm : m = .cbc → j % 16 = 0) : (transformFn m d e iv x).take j = transformFn m d e iv (x.take j) := by
  rw [transformFn_eq_segmentsFn, transformFn_eq_segmentsFn, List.length_take, Nat.min_eq_left hj]
  exact take_segmentsFn e _ iv x hj (by unfold ceilDiv16; omega) hm

/-- Settles O50: each of the four functions is `transformFn` of its mode and direction. -/
theorem modesHavePrefixProperty : Obligations.ModesHavePrefixProperty := by
  unfold Obligations.ModesHavePrefixProperty
  intro e iv p j hj
  have hcfb (d : Dir) := take_transformFn (m := .cfb) (d := d) e iv p hj nofun
  refine ⟨hcfb .encrypt, hcfb .decrypt, fun h16 _ => ?_⟩
  have hcbc (d : Dir) := take_transformFn (m := .cbc) (d := d) e iv p hj fun _ => h16
  exact ⟨hcbc .encrypt, hcbc .decrypt⟩

/-! ### Decryption byte by byte (R153, R155) -/

/-- Block `i` of a byte sequence. -/
def blockAt (c : List Byte) (i : Nat) : Block := blockOf (c.drop (16 * i))

/-- The block that ciphertext block `i` is chained to: the IV, or the ciphertext block before it. -/
def chainedTo (iv : Block) (c : List Byte) : Nat → Block
  | 0 => iv
  | i + 1 => blockAt c i

theorem getD_blockAt (c : List Byte) (i : Nat) {k : Nat} (hk : k < 16) :
    (blockAt c i).toList.getD k 0#8 = c.getD (16 * i + k) 0#8 := by
  simp [blockAt, hk, List.getD_eq_getElem?_getD]

/-- A block is made of the first 16 bytes. -/
theorem blockOf_take (l : List Byte) : blockOf (l.take 16) = blockOf l := by
  ext k hk : 1
  simp [hk, List.getD_eq_getElem?_getD]

/-- The ciphertext after its first block is chained to that block. -/
theorem chainedTo_drop (iv : Block) (c : List Byte) (i : Nat) :
    chainedTo (blockOf (c.take 16)) (c.drop 16) i = chainedTo iv c (i + 1) := by
  cases i with
  | zero => exact blockOf_take c
  | succ i => rw [chainedTo, chainedTo, blockAt, blockAt, List.drop_drop]; congr 2; omega

/-- Byte `q` of a decrypted text is a byte of its own segment's decryption. -/
theorem getD_segmentsFn_decrypt (e : Equiv.Perm Block) (n : Nat) (iv : Block) (c : List Byte) {q : Nat}
    (hq : q < c.length) (hn : c.length ≤ 16 * n) (hm : m = .cbc → c.length % 16 = 0) :
    (segmentsFn m .decrypt e n iv c).getD q 0#8 =
      (segmentFn e (chainedTo iv c (q / 16)) ((c.drop (16 * (q / 16))).take 16) m .decrypt).1.getD (q % 16) 0#8 := by
  induction n generalizing iv c q with
  | zero => omega
  | succ n ih =>
    have hfirst : (segmentFn e iv (c.take 16) m .decrypt).1.length = min 16 c.length := by
      cases m with
      | cfb => rw [length_segmentFn_cfb, List.length_take]; omega
      | cbc =>
        have hwhole := hm rfl
        have hfull : (c.take 16).length = 16 := by rw [List.length_take]; omega
        rw [length_segmentFn_of_full e iv hfull]
        omega
    rw [segmentsFn]
    rcases Nat.lt_or_ge q 16 with hlt | hge
    · rw [List.getD_append _ _ _ _ (by omega), Nat.div_eq_of_lt hlt, Nat.mod_eq_of_lt hlt]
      rfl
    · obtain ⟨k, rfl⟩ := Nat.exists_eq_add_of_le hge
      have hdiv : (16 + k) / 16 = k / 16 + 1 := by omega
      have hmod : (16 + k) % 16 = k % 16 := by omega
      have hsnd : (segmentFn e iv (c.take 16) m .decrypt).2 = blockOf (c.take 16) := by cases m <;> rfl
      rw [List.getD_append_right _ _ _ _ (by omega), hfirst, show 16 + k - min 16 c.length = k by omega, hsnd,
        ih _ _ (by rw [List.length_drop]; omega) (by rw [List.length_drop]; omega)
          (fun h => by have := hm h; rw [List.length_drop]; omega),
        chainedTo_drop iv, List.drop_drop, hdiv, hmod, show 16 + 16 * (k / 16) = 16 * (k / 16 + 1) by omega]

theorem getD_transformFn_decrypt (e : Equiv.Perm Block) (iv : Block) (c : List Byte) {q : Nat} (hq : q < c.length)
    (hm : m = .cbc → c.length % 16 = 0) :
    (transformFn m .decrypt e iv c).getD q 0#8 =
      (segmentFn e (chainedTo iv c (q / 16)) ((c.drop (16 * (q / 16))).take 16) m .decrypt).1.getD (q % 16) 0#8 := by
  rw [transformFn_eq_segmentsFn]
  exact getD_segmentsFn_decrypt e _ iv c hq (by unfold ceilDiv16; omega) hm

/-- CFB: a ciphertext byte, XORed with a byte of E(K, ·) of the block before (R155). -/
theorem getD_cfbDec (e : Equiv.Perm Block) (iv : Block) (c : List Byte) {q : Nat} (hq : q < c.length) :
    (cfbDec e iv c).getD q 0#8 = c.getD q 0#8 ^^^ (e (chainedTo iv c (q / 16))).toList.getD (q % 16) 0#8 := by
  have hk : q % 16 < 16 := Nat.mod_lt _ (by omega)
  have hpos : 16 * (q / 16) + q % 16 = q := Nat.div_add_mod q 16
  have hin : q % 16 < ((c.drop (16 * (q / 16))).take 16).length := by rw [List.length_take, List.length_drop]; omega
  calc
    (cfbDec e iv c).getD q 0#8 =
        (xorBytes ((c.drop (16 * (q / 16))).take 16) (e (chainedTo iv c (q / 16))).toList).getD (q % 16) 0#8 :=
      getD_transformFn_decrypt (m := .cfb) e iv c hq nofun
    _ = ((c.drop (16 * (q / 16))).take 16).getD (q % 16) 0#8 ^^^ (e (chainedTo iv c (q / 16))).toList.getD (q % 16) 0#8 :=
      getD_xorBytes _ _ _ hin (by rwa [length_toList_block])
    _ = c.getD q 0#8 ^^^ (e (chainedTo iv c (q / 16))).toList.getD (q % 16) 0#8 := by
      simp [List.getD_eq_getElem?_getD, hk, hpos]

/-- CBC: a byte of D(K, ·) of the byte's own ciphertext block, XORed with a byte of the block before (R153). -/
theorem getD_cbcDec (e : Equiv.Perm Block) (iv : Block) (c : List Byte) {q : Nat} (hq : q < c.length)
    (hc : c.length % 16 = 0) :
    (cbcDec e iv c).getD q 0#8 =
      (e.symm (blockAt c (q / 16))).toList.getD (q % 16) 0#8 ^^^ (chainedTo iv c (q / 16)).toList.getD (q % 16) 0#8 := by
  have hk : q % 16 < 16 := Nat.mod_lt _ (by omega)
  calc
    (cbcDec e iv c).getD q 0#8 =
        (xorBytes (e.symm (blockOf ((c.drop (16 * (q / 16))).take 16))).toList
          (chainedTo iv c (q / 16)).toList).getD (q % 16) 0#8 :=
      getD_transformFn_decrypt (m := .cbc) e iv c hq fun _ => hc
    _ = (xorBytes (e.symm (blockAt c (q / 16))).toList (chainedTo iv c (q / 16)).toList).getD (q % 16) 0#8 := by
      rw [blockOf_take, blockAt]
    _ = (e.symm (blockAt c (q / 16))).toList.getD (q % 16) 0#8 ^^^ (chainedTo iv c (q / 16)).toList.getD (q % 16) 0#8 :=
      getD_xorBytes _ _ _ (by rwa [length_toList_block]) (by rwa [length_toList_block])

/-! ### A changed ciphertext byte (R168) -/

variable {c : List Byte} {j : Nat} (δ : Byte)

@[simp] theorem length_flipByte (c : List Byte) (j : Nat) : (flipByte c j δ).length = c.length := by simp [flipByte]

theorem getD_flipByte (hj : j < c.length) (q : Nat) :
    (flipByte c j δ).getD q 0#8 = if q = j then c.getD q 0#8 ^^^ δ else c.getD q 0#8 := by
  by_cases h : q = j
  · subst h
    simp [flipByte, hj]
  · simp [flipByte, h, Ne.symm h]

/-- The change stays in its block. -/
theorem blockAt_flipByte (hj : j < c.length) {i : Nat} (hi : i ≠ j / 16) : blockAt (flipByte c j δ) i = blockAt c i := by
  ext k hk : 1
  have h := getD_blockAt (flipByte c j δ) i hk
  rw [getD_flipByte δ hj, if_neg (by omega), ← getD_blockAt c i hk] at h
  simpa [List.getD_eq_getElem?_getD, hk] using h

theorem chainedTo_flipByte (iv : Block) (hj : j < c.length) {i : Nat} (hi : i ≠ j / 16 + 1) :
    chainedTo iv (flipByte c j δ) i = chainedTo iv c i := by
  cases i with
  | zero => rfl
  | succ i => exact blockAt_flipByte δ hj (by omega)

/-- Settles O52: outside the next block the cipher's output is as before, and the byte itself is XORed with it. -/
theorem cfbErrorSpread : Obligations.CfbErrorSpread := by
  unfold Obligations.CfbErrorSpread
  intro e iv c j q δ hj hq hne
  rw [getD_cfbDec e iv _ (by rwa [length_flipByte]), getD_cfbDec e iv c hq, chainedTo_flipByte δ iv hj hne,
    getD_flipByte δ hj]
  split
  case isTrue => rw [BitVec.xor_assoc, BitVec.xor_comm δ, ← BitVec.xor_assoc]
  case isFalse => rfl

/-- Byte `q` of the block that its own block is chained to is byte `q - 16` of the ciphertext. -/
theorem getD_chainedTo_flipByte (iv : Block) (hj : j < c.length) (q : Nat) :
    (chainedTo iv (flipByte c j δ) (q / 16)).toList.getD (q % 16) 0#8 =
      if q = j + 16 then (chainedTo iv c (q / 16)).toList.getD (q % 16) 0#8 ^^^ δ
      else (chainedTo iv c (q / 16)).toList.getD (q % 16) 0#8 := by
  have hk : q % 16 < 16 := Nat.mod_lt _ (by omega)
  cases hi : q / 16 with
  | zero => rw [if_neg (by omega)]; rfl
  | succ i =>
    rw [chainedTo, chainedTo, getD_blockAt _ _ hk, getD_blockAt _ _ hk, getD_flipByte δ hj]
    exact if_congr (by omega) rfl rfl

/-- Settles O51: outside its block the change comes only through the block that the next one is chained to. -/
theorem cbcErrorSpread : Obligations.CbcErrorSpread := by
  unfold Obligations.CbcErrorSpread
  intro e iv c j q δ hc hj hq hne
  rw [getD_cbcDec e iv _ (by rwa [length_flipByte]) (by rwa [length_flipByte]), getD_cbcDec e iv c hq hc,
    blockAt_flipByte δ hj hne, getD_chainedTo_flipByte δ iv hj]
  split
  case isTrue => rw [BitVec.xor_assoc]
  case isFalse => rfl

end Sys2Proof

/-! ## Tampering with the last ciphertext byte (R264) -/

namespace Sys2Proof

open Sys2Proof.Machine

/-! ### The padding codec (R251, R252) -/

theorem length_pad (data : List Byte) (bs : Nat) :
    (pad data bs).length = data.length + (bs - data.length % bs) := by
  simp [pad, rep]

/-- The last byte of a padded text is the number of bytes added. -/
theorem getD_pad_last (data : List Byte) {bs : Nat} (hbs : 0 < bs) :
    (pad data bs).getD ((pad data bs).length - 1) 0#8 = BitVec.ofNat 8 (bs - data.length % bs) := by
  have hlt : data.length % bs < bs := Nat.mod_lt _ hbs
  rw [length_pad, pad, rep, List.getD_append_right _ _ _ _ (by omega), List.getD_eq_getElem _ _ (by
    rw [List.length_replicate]; omega), List.getElem_replicate]

/-- Unpad takes off as many bytes as the last byte says. -/
theorem length_of_unpad {pd r : List Byte} {strict : Bool} (h : unpad pd strict = some r) :
    r.length + (pd.getD (pd.length - 1) 0#8).toNat = pd.length := by
  unfold unpad at h
  split at h
  case h_1 => cases h
  case h_2 last hlast =>
    have hval : pd.getD (pd.length - 1) 0#8 = last := by
      rw [List.getD_eq_getElem?_getD, ← List.getLast?_eq_getElem?, hlast, Option.getD_some]
    simp only at h
    split at h
    case isTrue => cases h
    case isFalse hle =>
      split at h
      case isTrue => cases h
      case isFalse =>
        cases h
        rw [hval, List.length_take]
        omega

/-! ### CFB -/

theorem length_segmentsFn_cfb (d : Dir) (e : Equiv.Perm Block) (n : Nat) (prev : Block) (x : List Byte) :
    (segmentsFn .cfb d e n prev x).length = min (16 * n) x.length := by
  induction n generalizing prev x with
  | zero => simp [segmentsFn]
  | succ n ih =>
    rw [segmentsFn, List.length_append, ih, length_segmentFn_cfb, List.length_take, List.length_drop]
    omega

@[simp] theorem length_cfbDec (e : Equiv.Perm Block) (iv : Block) (c : List Byte) :
    (cfbDec e iv c).length = c.length := by
  have hseg : cfbDec e iv c = _ := transformFn_eq_segmentsFn .cfb .decrypt e iv c
  rw [hseg, length_segmentsFn_cfb, ceilDiv16]
  omega

/-- CFB passes a change of the last ciphertext byte on to the last plaintext byte: there is no next block. -/
theorem getD_cfbDec_flip_last (e : Equiv.Perm Block) (iv : Block) {p : List Byte} (hp : p ≠ []) (δ : Byte) :
    (cfbDec e iv (flipByte (cfbEnc e iv p) (p.length - 1) δ)).getD (p.length - 1) 0#8 =
      p.getD (p.length - 1) 0#8 ^^^ δ := by
  have hlast : p.length - 1 < (cfbEnc e iv p).length := by
    rw [length_cfbEnc]; exact Nat.sub_one_lt (by simpa using hp)
  rw [cfbErrorSpread e iv _ _ _ δ hlast hlast (by omega), if_pos rfl, cfbDec_cfbEnc]

/-- Settles O54: the last byte, which says how many bytes Unpad takes off, is not the one that Pad wrote. -/
theorem cfbTamperingIsSeen : Obligations.CfbTamperingIsSeen := by
  unfold Obligations.CfbTamperingIsSeen
  intro e iv p δ strict hδ h
  have hlen := length_pad p 16
  have hne : pad p 16 ≠ [] := List.ne_nil_of_length_pos (by omega)
  have htake := length_of_unpad h
  rw [length_cfbDec, length_flipByte, length_cfbEnc, getD_cfbDec_flip_last e iv hne, getD_pad_last p (by omega)] at htake
  set v := BitVec.ofNat 8 (16 - p.length % 16) with hv
  have hpad : v.toNat = 16 - p.length % 16 := by rw [hv, BitVec.toNat_ofNat]; omega
  have hsame : v ^^^ δ = v := BitVec.eq_of_toNat_eq (by omega)
  exact hδ (by simpa using hsame)

/-! ### CBC -/

/-- Settles O55: TOY's inverse passes a change of byte 15 on to byte 0 alone, so of a text that is padding only, Unpad
still reads 16 from the last byte and, not strict, does not look at the others. -/
theorem cbcTamperingCanPass : Obligations.CbcTamperingCanPass := by
  unfold Obligations.CbcTamperingCanPass
  exact ⟨.toy, rep 16 0#8, zeroBlock, [], 1#8, by decide, by decide, by decide⟩

end Sys2Proof

/-! ## GENIV's steps (R202, R205 to R209) -/

namespace Sys2Proof

open Sys2Proof.Machine

variable {s : State}

/-! ### One step -/

theorem exec_geniv_check (hb : s.busy = true) (hp : s.phase = .check) : exec .geniv s = .next (genivCheck s) := by
  rw [exec, execGeniv, commandStep_check hb hp]

theorem exec_geniv_run (hb : s.busy = true) (hp : s.phase = .run) : exec .geniv s = .next (genivRun s) := by
  rw [exec, execGeniv, commandStep_run hb hp]

theorem genivCheck_of_key (hk : s.keyValid = true) : genivCheck s = { s with ivFresh := false, phase := .run } := by
  rw [genivCheck, if_pos hk]

theorem genivRun_request (hr : s.rngPend = false) (hi : s.ivptr < 16) : genivRun s = requestByte s := by
  simp [genivRun, hr, hi]

/-- The source's answer to the outstanding request ends the wait for it (R202). -/
theorem genivRun_respond (hr : s.rngPend = true) : genivRun s = respond s := by
  simp [genivRun, hr]

theorem respond_byte {b : Byte} (ha : nextAnswer s = .byte b) (hi : s.ivptr + 1 ≠ 16) : respond s = { s with
    answers := s.answers.tail, rngPend := false, iv := s.iv.setIfInBounds s.ivptr b, ivptr := s.ivptr + 1 } := by
  simp [respond, ha, takeByte, hi]

theorem respond_lastByte {b : Byte} (ha : nextAnswer s = .byte b) (hi : s.ivptr + 1 = 16) : respond s = { s with
    answers := s.answers.tail, rngPend := false, iv := s.iv.setIfInBounds s.ivptr b, ivptr := 16
    ivFresh := true, busy := false, done := true, phase := .idle } := by
  simp [respond, ha, takeByte, hi, complete]

theorem respond_fail (ha : nextAnswer s = .fail) : respond s = { s with
    answers := s.answers.tail, rngPend := false, iv := zeroBlock
    key := zeroKey, keyValid := false, ivFresh := false, chain := zeroBlock
    err := true, ecode := .randomSource, busy := false, done := true, phase := .idle } := by
  simp [respond, ha, takeFail, raiseErr, endOfCallClear]

/-- Settles O12: the start step by its one check, then the request step and the respond step by the answer. -/
theorem genivSteps : Obligations.GenivSteps := by
  unfold Obligations.GenivSteps
  refine fun s hb => ⟨fun hp hk => ?_, fun hp hk => ?_, fun hp hr hi => ?_, fun b hp hr ha hi => ?_,
    fun b hp hr ha hi => ?_, fun hp hr ha => ?_⟩
  · rw [exec_geniv_check hb hp, genivCheck_of_key hk]
  · rw [exec_geniv_check hb hp, genivCheck, if_neg (by simp [hk]), raiseErr_of_ne_randomSource (by decide)]
  · rw [exec_geniv_run hb hp, genivRun_request hr hi, requestByte]
  · rw [exec_geniv_run hb hp, genivRun_respond hr, respond_byte ha hi]
  · rw [exec_geniv_run hb hp, genivRun_respond hr, respond_lastByte ha hi]
  · rw [exec_geniv_run hb hp, genivRun_respond hr, respond_fail ha]

/-- Settles O39: of all steps only GENIV's request step counts a request. -/
theorem requestsOnlyByGeniv : Obligations.RequestsOnlyByGeniv := by
  unfold Obligations.RequestsOnlyByGeniv
  intro s t h hne
  cases stepTo_of_step h with
  | turn rest turn =>
    cases turn with
    | request busy phase cur free left => exact ⟨busy, phase, cur, free, left, rfl, rfl⟩
    | _ => simp at hne
  | _ => simp at hne

/-- Settles O42: the step is `resetBlock`, of which the laws of the state say every field. -/
theorem resetInOneStep : Obligations.ResetInOneStep := by
  unfold Obligations.ResetInOneStep
  intro s rest hi
  have hkey : ∀ j, j < 32 → zeroKey.toList.getD j 1#8 = 0#8 := by decide
  have hblock : ∀ j, j < 16 → zeroBlock.toList.getD j 1#8 = 0#8 := by decide
  have hstatus : statusWord (resetBlock { s with inputs := rest }) = 0#32 := by simp [statusWord, flagAt, ecodeBits]
  exact ⟨_, step_of_reset hi, rfl, rfl, rfl, rfl, rfl, rfl, rfl, rfl, rfl, hkey, hblock, fun _ => rfl, hblock,
    rfl, rfl, rfl, rfl, rfl, hstatus, rfl, rfl, rfl, rfl, rfl, fun hr => by simp [hr], fun hr => by simp [hr]⟩

/-! ### A run of GENIV, with only the block's own turns to come -/

/-- The GENIV that `s` starts, `j` bytes later: the answers to them stand in `iv`, and no request is outstanding. -/
def drawn (s : State) (iv : Block) (j : Nat) : State :=
  { s with
    ivFresh := false, phase := .run, iv := iv, ivptr := j
    requests := s.requests + j, answers := s.answers.drop j, rngPend := false }

/-- The request for byte `j` is answered with `answerTo s j` (R202). -/
theorem nextAnswer_drawn (s : State) (iv : Block) (j : Nat) : nextAnswer (requestByte (drawn s iv j)) = answerTo s j :=
  nextAnswer_eq j rfl rfl

section

variable (hb : s.busy = true) (hc : s.cur = encode .geniv) (hi : s.inputs = [])
include hb hc hi

/-- With nothing pending the machine's step is GENIV's. -/
theorem step_eq_exec_geniv : step s = exec .geniv s :=
  (step_of_nil hi).trans (blockTurn_of_decoded hb (decodeWord_eq_some.mpr hc))

theorem step_geniv_run (hp : s.phase = .run) : step s = .next (genivRun s) :=
  (step_eq_exec_geniv hb hc hi).trans (exec_geniv_run hb hp)

/-- GENIV's start step, before the first byte (R205). -/
theorem step_genivStart (hp : s.phase = .check) (hk : s.keyValid = true) (hr : s.rngPend = false) (h0 : s.ivptr = 0) :
    step s = .next (drawn s s.iv 0) := by
  rw [step_eq_exec_geniv hb hc hi, exec_geniv_check hb hp, genivCheck_of_key hk]
  simp [drawn, hr, h0]

/-- The two steps of one byte: its request, and the source's answer (R205). -/
theorem runSteps_drawn (iv : Block) {j : Nat} (hj : j < 16) :
    runSteps 2 (drawn s iv j) = .next (respond (requestByte (drawn s iv j))) := by
  have hrequest : step (drawn s iv j) = .next (requestByte (drawn s iv j)) := by
    rw [step_geniv_run (s := drawn s iv j) hb hc hi rfl, genivRun_request rfl hj]
  have hanswer : step (requestByte (drawn s iv j)) = .next (respond (requestByte (drawn s iv j))) := by
    rw [step_geniv_run (s := requestByte (drawn s iv j)) hb hc hi rfl, genivRun_respond rfl]
  exact (runSteps_succ hrequest).trans (runSteps_one.trans hanswer)

/-- A byte that is not the last goes to its place in the IV (R205). -/
theorem runSteps_drawn_byte (iv : Block) {j : Nat} {b : Byte} (hj : j + 1 < 16) (ha : answerTo s j = .byte b) :
    runSteps 2 (drawn s iv j) = .next (drawn s (iv.setIfInBounds j b) (j + 1)) := by
  rw [runSteps_drawn hb hc hi iv (by omega), respond_byte ((nextAnswer_drawn s iv j).trans ha) (by simp [drawn]; omega)]
  simp [drawn, requestByte, Nat.add_assoc]

/-- As long as the source answers with bytes and fewer than 16 are drawn, they stand in the IV in their order (R205). -/
theorem runSteps_genivStart (hp : s.phase = .check) (hk : s.keyValid = true) (hr : s.rngPend = false) (h0 : s.ivptr = 0)
    {k : Nat} (h16 : k < 16) (hbytes : ∀ j, j < k → ∃ b, answerTo s j = .byte b) :
    ∃ iv : Block, runSteps (2 * k + 1) s = .next (drawn s iv k) ∧
      ∀ j (hj : j < 16), j < k → answerTo s j = .byte iv[j] := by
  induction k with
  | zero => exact ⟨s.iv, runSteps_one.trans (step_genivStart hb hc hi hp hk hr h0), by simp⟩
  | succ k ih =>
    obtain ⟨iv, hrun, hiv⟩ := ih (by omega) fun j hj => hbytes j (by omega)
    obtain ⟨b, ha⟩ := hbytes k (by omega)
    refine ⟨iv.setIfInBounds k b, ?_, fun j hj hjk => ?_⟩
    · rw [show 2 * (k + 1) + 1 = 2 * k + 1 + 2 by omega, runSteps_trans hrun, runSteps_drawn_byte hb hc hi iv h16 ha]
    · by_cases hk' : j = k
      · subst hk'; simpa using ha
      · rw [hiv j hj (by omega), Vector.getElem_setIfInBounds_ne (by omega) (by omega)]

end

/-- Settles O13: fifteen bytes drawn in order, then the last one, which completes. -/
theorem genivDrawsSixteenBytes : Obligations.GenivDrawsSixteenBytes := by
  unfold Obligations.GenivDrawsSixteenBytes
  intro s v hb hp hc hi hk hr h0 hv
  have hbyte : ∀ j (hj : j < 16), answerTo s j = .byte v[j] := fun j hj => by simpa [hj] using hv j hj
  obtain ⟨iv, hrun, hiv⟩ := runSteps_genivStart hb hc hi hp hk hr h0 (k := 15) (by omega) fun j hj =>
    ⟨_, hbyte j (by omega)⟩
  have hlast : nextAnswer (requestByte (drawn s iv 15)) = .byte v[15] := (nextAnswer_drawn s iv 15).trans (hbyte 15 _)
  have hfull : iv.setIfInBounds 15 v[15] = v := by
    refine Vector.ext fun j hj => ?_
    by_cases h15 : j = 15
    · subst h15; simp
    · rw [Vector.getElem_setIfInBounds_ne (by omega) (by omega)]
      exact Answer.byte.inj ((hiv j hj (by omega)).symm.trans (hbyte j hj))
  rw [show 33 = 2 * 15 + 1 + 2 by omega, runSteps_trans hrun, runSteps_drawn hb hc hi iv (by omega),
    respond_lastByte hlast rfl]
  simp [drawn, hr, hfull]

/-- Settles O14: the bytes drawn before Fail are gone with the error. -/
theorem genivFailsWithoutPartialIv : Obligations.GenivFailsWithoutPartialIv := by
  unfold Obligations.GenivFailsWithoutPartialIv
  intro s k hb hp hc hi hk hr h0 h16 hbytes hfail
  obtain ⟨iv, hrun, -⟩ := runSteps_genivStart hb hc hi hp hk hr h0 h16 hbytes
  rw [show 2 * k + 3 = 2 * k + 1 + 2 by omega, runSteps_trans hrun, runSteps_drawn hb hc hi iv h16,
    respond_fail ((nextAnswer_drawn s iv k).trans hfail)]
  simp [drawn, Nat.add_assoc]

end Sys2Proof

/-! ## Every command ends (R203, R300, R354) -/

namespace Sys2Proof

open Sys2Proof.Machine

variable {s t : State} {k : Nat}

/-! ### How far the command in CUR is from its end -/

/-- How many of its turns the block needs at most to end the command in CUR (R205, R156): in PHASE RUN the requests and
answers still to come, or the blocks still to process; before the start step the most that any start can leave. -/
def turnsLeft (s : State) : Nat :=
  match s.phase with
  | .idle => 0
  | .check => 4097
  | .run => if s.cur = encode .geniv then 2 * (16 - s.ivptr) - s.rngPend.toNat else blockCount s - s.bptr

@[simp] theorem turnsLeft_idle (hp : s.phase = .idle) : turnsLeft s = 0 := by simp [turnsLeft, hp]

@[simp] theorem turnsLeft_check (hp : s.phase = .check) : turnsLeft s = 4097 := by simp [turnsLeft, hp]

theorem turnsLeft_geniv (hp : s.phase = .run) (hc : s.cur = encode .geniv) :
    turnsLeft s = 2 * (16 - s.ivptr) - s.rngPend.toNat := by
  simp [turnsLeft, hp, hc]

theorem turnsLeft_transform {m : Mode} {d : Dir} (hp : s.phase = .run) (hc : s.cur = encode (transformOf m d)) :
    turnsLeft s = blockCount s - s.bptr := by
  have hne : s.cur ≠ encode .geniv := fun h => encode_geniv_ne_transform m d (h.symm.trans hc)
  simp [turnsLeft, hp, hne]

/-- A start step leaves at most BUF's 4096 blocks to process (R10). -/
theorem Inv.turnsLeft_le (h : Inv s) (hp : s.phase ≠ .check) : turnsLeft s ≤ 4096 := by
  cases hphase : s.phase with
  | idle => simp [hphase]
  | check => exact absurd hphase hp
  | run =>
    rcases h.seq.runCommand hphase with hc | hc
    · rw [turnsLeft_geniv hphase hc]; omega
    · have hcount := blockCount_le (h.transform.running hphase hc).2.1
      obtain ⟨m, d, hc⟩ := curIsAnyTransform_iff.mp hc
      rw [turnsLeft_transform hphase hc]; omega

theorem Inv.turnsLeft_le_max (h : Inv s) : turnsLeft s ≤ 4097 := by
  by_cases hp : s.phase = .check
  · exact (turnsLeft_check hp).le
  · exact (h.turnsLeft_le hp).trans (by decide)

/-! ### Every turn brings it nearer -/

theorem transformStart_phase (m : Mode) (d : Dir) (s : State) : (transformStart m d s).phase ≠ .check := by
  rcases transformStart_cases m d s with ⟨c, -, -, h⟩ | ⟨-, -, -, -, ⟨-, h⟩ | ⟨-, h⟩⟩ <;> simp [h]

/-- Every command has one start step (R51). -/
theorem exec_check_phase {i : Instr} (hi : i ≠ .clrstat) (hb : s.busy = true) (hp : s.phase = .check)
    (h : exec i s = .next t) : t.phase ≠ .check := by
  have transform (m : Mode) (d : Dir) (h : exec (transformOf m d) s = .next t) : t.phase ≠ .check := by
    rw [exec_transform_check m d hb hp] at h
    cases h
    exact transformStart_phase m d s
  cases i with
  | clrstat => exact absurd rfl hi
  | init => rw [exec_init_check hb hp, initCheck] at h; cases h; split <;> simp
  | geniv => rw [exec_geniv_check hb hp, genivCheck] at h; cases h; split <;> simp
  | encCfb => exact transform .cfb .encrypt h
  | decCfb => exact transform .cfb .decrypt h
  | encCbc => exact transform .cbc .encrypt h
  | decCbc => exact transform .cbc .decrypt h
  | zeroize => rw [exec, execZeroize, commandStep_check hb hp] at h; cases h; simp

/-- The start step of CUR's command, reserved words included, is its only one (R36, R51, R232). -/
theorem blockTurn_check_phase (hb : s.busy = true) (hp : s.phase = .check) (hc : s.cur ≠ 0#32)
    (h : blockTurn s = .next t) : t.phase ≠ .check := by
  cases hd : decodeWord s.cur with
  | none => rw [blockTurn_of_reserved hb hp hd] at h; cases h; simp
  | some i =>
    refine exec_check_phase (i := i) ?_ hb hp ((blockTurn_of_decoded hb hd).symm.trans h)
    rintro rfl
    exact hc (decodeWord_eq_some.mp hd)

/-- A transform's turn in PHASE RUN finishes a block (R156). -/
theorem exec_transform_run (m : Mode) (d : Dir) (hb : s.busy = true) (hp : s.phase = .run)
    (hn : s.bptr < blockCount s) (hin : 16 * s.bptr + segmentLen s ≤ bufBytes s.cfg)
    (hm : m = .cbc → segmentLen s = 16) : ∃ out c, exec (transformOf m d) s = .next (finishBlock out c s) := by
  cases m with
  | cfb =>
    cases d with
    | encrypt => exact ⟨_, _, (exec_encCfb_run hb hp).trans (blockStep_of_inside hn hin)⟩
    | decrypt => exact ⟨_, _, (exec_decCfb_run hb hp).trans (blockStep_of_inside hn hin)⟩
  | cbc =>
    rw [hm rfl] at hin
    cases d with
    | encrypt => exact ⟨_, _, (exec_encCbc_run hb hp).trans (blockStep_of_inside hn hin)⟩
    | decrypt => exact ⟨_, _, (exec_decCbc_run hb hp).trans (blockStep_of_inside hn hin)⟩

theorem turnsLeft_finishBlock {m : Mode} {d : Dir} (out : List Byte) (c : Block) (hp : s.phase = .run)
    (hc : s.cur = encode (transformOf m d)) (hn : s.bptr < blockCount s) :
    turnsLeft (finishBlock out c s) < turnsLeft s := by
  rw [turnsLeft_transform hp hc]
  by_cases hlast : s.bptr + 1 = blockCount s
  · rw [finishBlock_of_last out c hlast, turnsLeft_idle rfl]; omega
  · rw [finishBlock_of_not_last out c hlast, turnsLeft_transform (by exact hp) (by exact hc)]
    change blockCount s - (s.bptr + 1) < blockCount s - s.bptr
    omega

/-- A request and its answer are two turns; the answer draws a byte or ends GENIV (R205). -/
theorem turnsLeft_genivRun (hp : s.phase = .run) (hc : s.cur = encode .geniv) (hi : s.ivptr < 16) :
    turnsLeft (genivRun s) < turnsLeft s := by
  rw [turnsLeft_geniv hp hc]
  rcases genivRun_cases s with ⟨-, hge, -⟩ | ⟨hr, -, h⟩ | ⟨hr, b, -, -, h⟩ | ⟨hr, b, -, -, h⟩ | ⟨hr, -, h⟩
  · omega
  · rw [h, turnsLeft_geniv (by exact hp) (by exact hc), hr]
    simp only [requestByte_ivptr, requestByte_rngPend, Bool.toNat_true, Bool.toNat_false]
    omega
  · rw [h, turnsLeft_geniv (by exact hp) (by exact hc), hr]
    simp only [Bool.toNat_true, Bool.toNat_false]
    omega
  · rw [h, turnsLeft_idle rfl, hr, Bool.toNat_true]
    omega
  · rw [h, turnsLeft_idle (raiseErr_phase _ _), hr, Bool.toNat_true]
    omega

/-- A turn of a busy block never stops, and it brings the command nearer to its end. -/
theorem Inv.turn_progress (h : Inv s) (hb : s.busy = true) :
    ∃ t, blockTurn s = .next t ∧ Inv t ∧ turnsLeft t < turnsLeft s := by
  obtain ⟨t, ht⟩ := blockTurn_answers h.transform
  have hinv := h.turn (turnTo_of_blockTurn ht)
  refine ⟨t, ht, hinv, ?_⟩
  cases hp : s.phase with
  | idle => exact absurd hp (h.seq.busyPhase.mp hb)
  | check =>
    have hle := hinv.turnsLeft_le (blockTurn_check_phase hb hp (h.seq.curNonzero hb) ht)
    rw [turnsLeft_check hp]; omega
  | run =>
    have hexec {i : Instr} (hc : s.cur = encode i) : exec i s = .next t :=
      (blockTurn_of_decoded hb (decodeWord_eq_some.mpr hc)).symm.trans ht
    rcases h.seq.runCommand hp with hc | htr
    · have hrun := (exec_geniv_run hb hp).symm.trans (hexec hc)
      cases hrun
      exact turnsLeft_genivRun hp hc (h.draw.drawing hp hc).1
    · obtain ⟨hn, hin⟩ := h.transform.segment_inside hp htr
      obtain ⟨m, d, hc⟩ := curIsAnyTransform_iff.mp htr
      have hcbc : m = .cbc → segmentLen s = 16 := by
        rintro rfl
        exact segmentLen_of_dvd hn (h.transform.wholeBlocks hp (curIsTransform_iff.mpr ⟨d, hc⟩))
      obtain ⟨out, c, hfin⟩ := exec_transform_run m d hb hp hn hin hcbc
      have hrun := hfin.symm.trans (hexec hc)
      cases hrun
      exact turnsLeft_finishBlock out c hp hc hn

/-! ### From any state of a command to its end -/

/-- The command in CUR ends within `turnsLeft` of the block's turns. -/
theorem Inv.endsIn (h : Inv s) : ∃ k t, k ≤ turnsLeft s ∧ EndsIn k s t := by
  induction hn : turnsLeft s using Nat.strong_induction_on generalizing s with
  | _ n ih =>
    cases hb : s.busy with
    | false => exact ⟨0, s, Nat.zero_le _, .done hb⟩
    | true =>
      obtain ⟨u, hturn, hu, hlt⟩ := h.turn_progress hb
      obtain ⟨k, t, hk, he⟩ := ih _ (hn ▸ hlt) hu rfl
      exact ⟨k + 1, t, by omega, .turn hb hturn he⟩

theorem TurnTo.inputs (h : TurnTo s t) : t.inputs = s.inputs := by cases h <;> simp

/-- A turn that ends a command sets DONE (R309, R310). -/
theorem TurnTo.done_of_end (h : TurnTo s t) (hb : s.busy = true) (ht : t.busy = false) : t.done = true := by
  cases h <;> simp_all

/-- The turns that end a command are the machine's steps while nothing is pending. -/
theorem Machine.EndsIn.runSteps_eq (h : EndsIn k s t) (hi : s.inputs = []) : runSteps k s = .next t := by
  induction h with
  | done => rfl
  | turn _ hturn _ ih =>
    have hu := (turnTo_of_blockTurn hturn).inputs
    exact (runSteps_succ ((step_of_nil hi).trans hturn)).trans (ih (hu.trans hi))

theorem Machine.EndsIn.inv (h : EndsIn k s t) (hs : Inv s) : Inv t := by
  induction h with
  | done => exact hs
  | turn _ hturn _ ih => exact ih (hs.turn (turnTo_of_blockTurn hturn))

/-- A command that ends leaves DONE = 1 (R309, R310). -/
theorem Machine.EndsIn.done_of_busy (h : EndsIn k s t) (hb : s.busy = true) : t.done = true := by
  induction h with
  | done hidle => simp [hb] at hidle
  | @turn k s u t _ hturn hr ih =>
    cases hu : u.busy with
    | true => exact ih hu
    | false =>
      obtain rfl := hr.eq_of_idle hu
      exact (turnTo_of_blockTurn hturn).done_of_end hb hu

/-- Settles O48: each turn lowers `turnsLeft`, and the invariant says the rest of the last state. -/
theorem everyCommandEnds : Obligations.EveryCommandEnds := by
  unfold Obligations.EveryCommandEnds
  intro s hs hb hi
  obtain ⟨k, t, hk, he⟩ := hs.endsIn
  have ht := he.inv hs
  have hp := ht.phase_of_idle he.idle
  exact ⟨k, t, hk.trans hs.turnsLeft_le_max, he.runSteps_eq hi, he.idle, ht.rngPend_of_not_run (by simp [hp]),
    he.done_of_busy hb, ht.status.errCode⟩

end Sys2Proof

/-! ## The control commands (R230, R231) -/

namespace Sys2Proof

open Sys2Proof.Machine

variable {s : State}

/-- CLRSTAT is acceptance of the word 0 (R230). -/
theorem exec_clrstat_idle (hb : s.busy = false) :
    exec .clrstat s = .next { s with done := false, err := false, ecode := .none } :=
  (exec_idle .clrstat hb).trans (congrArg Host.Outcome.next (accept_zero s))

/-- ZEROIZE's start step is its one engine step (R231). -/
theorem exec_zeroize_check (hb : s.busy = true) (hp : s.phase = .check) :
    exec .zeroize s = .next (zeroizeCheck s) := by
  rw [exec, execZeroize, commandStep_check hb hp]

/-- No byte of BUF is left (R231). -/
@[simp] theorem bufByte_zeroizeCheck (s : State) (a : Nat) : bufByte (zeroizeCheck s) a = 0#8 := by
  rw [bufByte, zeroizeCheck_buf, Cells.read]

/-- Settles O8: CLRSTAT is acceptance of the word 0, so its write does what R36 says of a CTRL write. -/
theorem clrstatClearsStatus : Obligations.ClrstatClearsStatus := by
  unfold Obligations.ClrstatClearsStatus
  refine fun s rest => ⟨exec_clrstat_idle, fun hb hi => ?_, fun hb hi => ?_⟩
  · obtain ⟨accepted, -, -⟩ := ctrlWriteAcceptance s 0x00000000#32 rest hi
    exact accepted hb rfl
  · obtain ⟨-, -, refused⟩ := ctrlWriteAcceptance s 0x00000000#32 rest hi
    exact refused hb

/-- Settles O21: no byte of BUF is left, and every other field of the step is written out in its definition. -/
theorem zeroizeClearsEverything : Obligations.ZeroizeClearsEverything := by
  unfold Obligations.ZeroizeClearsEverything
  exact fun s hb hp => ⟨zeroizeCheck s, exec_zeroize_check hb hp, bufByte_zeroizeCheck s, rfl⟩

end Sys2Proof

/-! ## The padding codec (R251 to R253) -/

namespace Sys2Proof

open Sys2Proof.Machine

variable {data : List Byte} {bs : Nat}

theorem pad_eq (data : List Byte) (bs : Nat) :
    pad data bs = data ++ rep (bs - data.length % bs) (BitVec.ofNat 8 (bs - data.length % bs)) := rfl

/-- Pad fills up the last block (R251). -/
theorem length_pad_mod (hbs : 1 ≤ bs) : (pad data bs).length % bs = 0 := by
  have hlt : data.length % bs < bs := Nat.mod_lt _ hbs
  have hdiv := Nat.div_add_mod data.length bs
  have hlen : (pad data bs).length = bs * (data.length / bs + 1) := by
    rw [length_pad, Nat.mul_add, Nat.mul_one]; omega
  rw [hlen, Nat.mul_mod_right]

/-- Bytes that end in `n` bytes of value `n` unpad, strict or not (R252, R253). -/
theorem unpad_append_rep {n : Nat} (h0 : 0 < n) (hn : n < 256) (data : List Byte) (strict : Bool) :
    unpad (data ++ rep n (BitVec.ofNat 8 n)) strict = some data := by
  have hval : (BitVec.ofNat 8 n).toNat = n := by rw [BitVec.toNat_ofNat]; omega
  have hlen : (data ++ rep n (BitVec.ofNat 8 n)).length = data.length + n := by simp [rep]
  have hlast : (data ++ rep n (BitVec.ofNat 8 n)).getLast? = some (BitVec.ofNat 8 n) := by
    simp [rep, List.getLast?_replicate, h0.ne']
  have hsame : (rep n (BitVec.ofNat 8 n)).any (fun b => b.toNat != n) = false := by
    simp only [rep, List.any_replicate, hval, bne_self_eq_false, ite_self]
  rw [unpad, hlast]
  simp only [hval, hlen, Nat.add_sub_cancel, List.drop_left, List.take_left, hsame, Bool.and_false]
  rw [if_neg (by omega), if_neg (by decide)]

theorem unpad_pad (hbs : 1 ≤ bs) (hbs' : bs ≤ 255) (data : List Byte) (strict : Bool) :
    unpad (pad data bs) strict = some data := by
  have hlt : data.length % bs < bs := Nat.mod_lt _ hbs
  rw [pad_eq, unpad_append_rep (by omega) (by omega)]

/-- Settles O53: Pad adds `n` bytes of value `n`, one at least, up to a multiple of the block size. -/
theorem unpadInvertsPad : Obligations.UnpadInvertsPad := by
  unfold Obligations.UnpadInvertsPad
  intro data bs strict hbs hbs'
  have hlt : data.length % bs < bs := Nat.mod_lt _ hbs
  exact ⟨length_pad_mod hbs, by rw [length_pad]; omega, unpad_pad hbs hbs' data strict⟩

end Sys2Proof

/-! ## A run of a command, whatever is pending (R21, R92) -/

namespace Sys2Proof

open Sys2Proof.Machine

variable {s t u : State} {k n : Nat} {i : Instr}

/-! ### The block's turns do not read the inputs to come -/

/-- `s` with other inputs to come. -/
def setInputs (l : List Input) (s : State) : State := { s with inputs := l }

/-- `f` neither reads nor writes the inputs to come. -/
def IgnoresInputs (f : State → Result) : Prop :=
  ∀ l s, f (setInputs l s) = andThen (f s) fun t => .next (setInputs l t)

theorem ignoresInputs_next {g : State → State} (h : ∀ l s, g (setInputs l s) = setInputs l (g s)) :
    IgnoresInputs fun s => .next (g s) := fun l s => congrArg Host.Outcome.next (h l s)

theorem accept_setInputs (w : Word) (l : List Input) (s : State) :
    accept w (setInputs l s) = setInputs l (accept w s) := by
  unfold accept
  rw [apply_ite (setInputs l)]
  rfl

theorem initCheck_setInputs (l : List Input) (s : State) : initCheck (setInputs l s) = setInputs l (initCheck s) := by
  unfold initCheck
  rw [apply_ite (setInputs l)]
  rfl

theorem genivCheck_setInputs (l : List Input) (s : State) :
    genivCheck (setInputs l s) = setInputs l (genivCheck s) := by
  unfold genivCheck
  rw [apply_ite (setInputs l)]
  rfl

theorem respond_setInputs (l : List Input) (s : State) : respond (setInputs l s) = setInputs l (respond s) := by
  cases ha : nextAnswer s with
  | byte b =>
    by_cases h16 : s.ivptr + 1 = 16
    · rw [respond_lastByte ha h16, respond_lastByte (s := setInputs l s) ha h16]; rfl
    · rw [respond_byte ha h16, respond_byte (s := setInputs l s) ha h16]; rfl
  | fail => rw [respond_fail ha, respond_fail (s := setInputs l s) ha]; rfl

theorem genivRun_setInputs (l : List Input) (s : State) : genivRun (setInputs l s) = setInputs l (genivRun s) := by
  unfold genivRun
  rw [apply_ite (setInputs l), apply_ite (setInputs l), respond_setInputs]
  rfl

theorem transformStart_setInputs (m : Mode) (d : Dir) (l : List Input) (s : State) :
    transformStart m d (setInputs l s) = setInputs l (transformStart m d s) := by
  unfold transformStart
  simp only [apply_ite (setInputs l)]
  rfl

theorem finishBlock_setInputs (out : List Byte) (c : Block) (l : List Input) (s : State) :
    finishBlock out c (setInputs l s) = setInputs l (finishBlock out c s) := by
  unfold finishBlock
  rw [apply_ite (setInputs l)]
  rfl

theorem ignoresInputs_blockStep {r : State → Nat} {f : State → List Byte → List Byte × Block}
    (hr : ∀ l s, r (setInputs l s) = r s) (hf : ∀ l s, f (setInputs l s) = f s) :
    IgnoresInputs fun s => blockStep (r s) (f s) s := by
  intro l s
  simp only [hr, hf]
  by_cases hn : s.bptr < blockCount s
  · by_cases hin : 16 * s.bptr + r s ≤ bufBytes s.cfg
    · rw [blockStep_of_inside hn hin, blockStep_of_inside (s := setInputs l s) hn hin, finishBlock_setInputs]; rfl
    · have hout : bufBytes s.cfg < 16 * s.bptr + r s := Nat.lt_of_not_le hin
      rw [blockStep_of_outside hn hout, blockStep_of_outside (s := setInputs l s) hn hout]; rfl
  · rw [blockStep, blockStep, if_neg hn, if_neg (by exact hn)]; rfl

theorem ignoresInputs_commandStep {check run : State → Result} (hc : IgnoresInputs check) (hr : IgnoresInputs run) :
    IgnoresInputs (commandStep i check run) := by
  intro l s
  cases hb : s.busy with
  | false => rw [commandStep_idle hb, commandStep_idle (s := setInputs l s) hb, accept_setInputs]; rfl
  | true =>
    cases hp : s.phase with
    | idle => simp [commandStep, setInputs, hb, hp]
    | check => rw [commandStep_check hb hp, commandStep_check (s := setInputs l s) hb hp, hc]
    | run => rw [commandStep_run hb hp, commandStep_run (s := setInputs l s) hb hp, hr]

theorem ignoresInputs_exec (i : Instr) : IgnoresInputs (exec i) := by
  have stay : IgnoresInputs fun s => .next s := ignoresInputs_next (g := id) fun _ _ => rfl
  have start (m : Mode) (d : Dir) : IgnoresInputs fun s => .next (transformStart m d s) :=
    ignoresInputs_next (transformStart_setInputs m d)
  have cfb {f : State → List Byte → List Byte × Block} (hf : ∀ l s, f (setInputs l s) = f s) :
      IgnoresInputs fun s => blockStep (segmentLen s) (f s) s := ignoresInputs_blockStep (fun _ _ => rfl) hf
  have cbc {f : State → List Byte → List Byte × Block} (hf : ∀ l s, f (setInputs l s) = f s) :
      IgnoresInputs fun s => blockStep 16 (f s) s := ignoresInputs_blockStep (r := fun _ => 16) (fun _ _ => rfl) hf
  cases i with
  | clrstat => exact ignoresInputs_commandStep stay stay
  | init => exact ignoresInputs_commandStep (ignoresInputs_next initCheck_setInputs) stay
  | geniv =>
    exact ignoresInputs_commandStep (ignoresInputs_next genivCheck_setInputs) (ignoresInputs_next genivRun_setInputs)
  | encCfb => exact ignoresInputs_commandStep (start .cfb .encrypt) (cfb fun _ _ => rfl)
  | decCfb => exact ignoresInputs_commandStep (start .cfb .decrypt) (cfb fun _ _ => rfl)
  | encCbc => exact ignoresInputs_commandStep (start .cbc .encrypt) (cbc fun _ _ => rfl)
  | decCbc => exact ignoresInputs_commandStep (start .cbc .decrypt) (cbc fun _ _ => rfl)
  | zeroize => exact ignoresInputs_commandStep (ignoresInputs_next fun _ _ => rfl) stay

theorem ignoresInputs_reservedStep : IgnoresInputs reservedStep := by
  intro l s
  have hp : (setInputs l s).phase = s.phase := rfl
  unfold reservedStep
  rw [hp]
  cases s.phase <;> rfl

/-- The block's own turn neither reads nor writes the inputs to come (R21). -/
theorem ignoresInputs_blockTurn : IgnoresInputs blockTurn := by
  intro l s
  cases hb : s.busy with
  | false => simp [blockTurn, setInputs, hb]
  | true =>
    cases hd : decodeWord s.cur with
    | some i =>
      rw [blockTurn_of_decoded hb hd, blockTurn_of_decoded (s := setInputs l s) hb hd]
      exact ignoresInputs_exec i l s
    | none =>
      have reserved {u : State} (hb : u.busy = true) (hd : decodeWord u.cur = none) : blockTurn u = reservedStep u := by
        simp [blockTurn, hb, hd]
      rw [reserved hb hd, reserved (u := setInputs l s) hb hd]
      exact ignoresInputs_reservedStep l s

theorem Machine.EndsIn.setInputs (h : EndsIn k s t) (l : List Input) :
    EndsIn k (setInputs l s) (Sys2Proof.setInputs l t) := by
  induction h with
  | done hb => exact .done hb
  | turn hb hturn _ ih => exact .turn hb (by rw [ignoresInputs_blockTurn, hturn]; rfl) ih

/-! ### From the machine's steps to a wait -/

/-- With nothing pending, steps of the machine that leave the block idle are turns that end its command. -/
theorem endsIn_of_runSteps (hi : s.inputs = []) (h : runSteps n s = .next t) (ht : t.busy = false) :
    ∃ k, k ≤ n ∧ EndsIn k s t := by
  induction n generalizing s with
  | zero =>
    cases h
    exact ⟨0, le_rfl, .done ht⟩
  | succ n ih =>
    obtain ⟨u, hstep, hrun⟩ := andThen_eq_next h
    rw [step_of_nil hi] at hstep
    have hu := (turnTo_of_blockTurn hstep).inputs.trans hi
    obtain ⟨k, hk, he⟩ := ih hu hrun
    cases hb : s.busy with
    | false =>
      have hsu : u = s := by simpa [blockTurn, hb] using hstep.symm
      exact ⟨k, by omega, hsu ▸ he⟩
    | true => exact ⟨k + 1, by omega, .turn hb hstep he⟩

/-- The block right after the acceptance of command `i`, with nothing pending (R36). -/
def started (i : Instr) (s : State) : State := accept (encode i) { s with inputs := [], reply := some .writeOk }

theorem started_eq (hi : i ≠ .clrstat) (s : State) : started i s = { s with
    inputs := [], reply := some .writeOk, done := false, err := false, ecode := .none
    cur := encode i, phase := .check, bptr := 0, ivptr := 0, busy := true } :=
  accept_nonzero _ _ (encode_ne_zero hi)

/-- RUN of a command that ends in steps of the machine while nothing is pending comes, whatever is pending and whichever
way the host waits, to the state after them, and shows STATUS there (R260). -/
theorem run_of_runSteps (how : Waiting) (hb : s.busy = false) (hi : i ≠ .clrstat)
    (h : runSteps n (started i s) = .next t) (ht : t.busy = false) (hn : n < waitRounds) :
    run how i s = .next ({ t with
      inputs := s.inputs, reply := some (.readOk (statusWord t)), doneIe := doneIeAfter how t.doneIe },
      some (statusWord t)) := by
  obtain ⟨k, hk, he⟩ := endsIn_of_runSteps (by rw [started_eq hi]) h ht
  have hbusy : (started i s).busy = true := by rw [started_eq hi]
  have haccept : exec i { s with reply := some .writeOk } = .next (setInputs s.inputs (started i s)) := by
    rw [started, ← accept_setInputs]
    exact exec_idle i (s := { s with reply := some .writeOk }) hb
  exact run_eq how i hb haccept (he.setInputs s.inputs) (by omega) fun _ => he.done_of_busy hbusy

/-! ### RUN GENIV and RUN of a transform -/

/-- RUN GENIV with a key and a source that answers with the bytes of `v` (R205). -/
theorem run_geniv_bytes (how : Waiting) {v : Block} (hb : s.busy = false) (hr : s.rngPend = false)
    (hk : s.keyValid = true) (hv : ∀ j, j < 16 → answerTo s j = .byte (v.toList.getD j 0#8)) :
    ∃ r w, run how .geniv s = .next ({ s with
      busy := false, done := true, err := false, ecode := .none, cur := encode .geniv, phase := .idle, bptr := 0
      ivptr := 16, iv := v, ivFresh := true, requests := s.requests + 16, answers := s.answers.drop 16
      reply := r, doneIe := doneIeAfter how s.doneIe }, some w) ∧ errBit w = false := by
  have hrun := genivDrawsSixteenBytes (started .geniv s) v rfl rfl rfl rfl hk hr rfl hv
  exact ⟨_, _, run_of_runSteps how hb (by decide) hrun rfl (by decide), by rw [errBit, fieldValue_err]; rfl⟩

/-- RUN GENIV with a key and a source that answers Fail after `k` bytes (R208). -/
theorem run_geniv_fail (how : Waiting) (hb : s.busy = false) (hr : s.rngPend = false) (hk : s.keyValid = true)
    (h16 : k < 16) (hbytes : ∀ j, j < k → ∃ b, answerTo s j = .byte b) (hfail : answerTo s k = .fail) :
    ∃ r w, run how .geniv s = .next ({ s with
      busy := false, done := true, err := true, ecode := .randomSource, cur := encode .geniv, phase := .idle
      bptr := 0, ivptr := k, iv := zeroBlock, requests := s.requests + (k + 1), answers := s.answers.drop (k + 1)
      key := zeroKey, keyValid := false, ivFresh := false, chain := zeroBlock, rngPend := false
      reply := r, doneIe := doneIeAfter how s.doneIe }, some w) ∧ errBit w = true := by
  have hrun := genivFailsWithoutPartialIv (started .geniv s) k rfl rfl rfl rfl hk hr rfl h16 hbytes hfail
  exact ⟨_, _, run_of_runSteps how hb (by decide) hrun rfl (by unfold waitRounds; omega),
    by rw [errBit, fieldValue_err]; rfl⟩

theorem transformOf_ne_clrstat (m : Mode) (d : Dir) : transformOf m d ≠ .clrstat := by
  cases m <;> cases d <;> decide

/-- RUN of a transform whose checks pass puts its reference function in the place of its input (R158, R166). -/
theorem run_transform (how : Waiting) {m : Mode} {d : Dir} (hb : s.busy = false) (hk : s.keyValid = true)
    (hwf : Cells.wf s.buf = true) (hl : s.len.toNat ≤ bufBytes s.cfg) (hm : m = .cbc → s.len.toNat % 16 = 0)
    (hd : d = .encrypt → s.ivFresh = true) :
    ∃ buf r w, run how (transformOf m d) s = .next ({ s with
      busy := false, done := true, err := false, ecode := .none, cur := encode (transformOf m d), phase := .idle
      bptr := ceilDiv16 s.len.toNat, ivptr := 0, buf := buf, key := zeroKey, keyValid := false, ivFresh := false
      chain := zeroBlock, reply := r, doneIe := doneIeAfter how s.doneIe }, some w) ∧
      Cells.readAll buf 0 s.len.toNat =
        transformFn m d (keyedCipher s) s.iv (Cells.readAll s.buf 0 s.len.toNat) := by
  have hi := transformOf_ne_clrstat m d
  set u := setInputs [.access (.write 0x00008#17 .word (encode (transformOf m d)))] s
  obtain ⟨t, hsteps, hbytes, -, ht⟩ := transformComputesReferenceFunction m d u hb hk hwf rfl hl hm hd
  obtain ⟨-, accepted, -⟩ := ctrlWriteAcceptance u (encode (transformOf m d)) [] rfl
  have haccept : step u = .next (started (transformOf m d) s) := by
    rw [accepted hb (encode_ne_zero hi), started_eq hi]
    rfl
  have hn : ceilDiv16 u.len.toNat ≤ 4096 := blockCount_le (s := u) hl
  rw [show 2 + ceilDiv16 u.len.toNat = 1 + ceilDiv16 u.len.toNat + 1 by omega, runSteps_succ haccept] at hsteps
  generalize t.buf = buf at hbytes ht
  subst ht
  exact ⟨buf, _, _, run_of_runSteps how hb hi hsteps rfl (by unfold waitRounds; omega), hbytes⟩

end Sys2Proof

/-! ## What a facade call comes to (R256, R257, R259 to R262) -/

namespace Sys2Proof

open Sys2Proof.Machine

variable {s t : State} {c : Config} {k : List Byte} {m : Mode}

/-! ### The end of a call -/

/-- The call `x` has ended with result `r`, after `n` requests in all, in an idle block of the configuration `c` that
holds nothing of it and meets the invariant. -/
def CallEnds (x : HostRun FacadeResult) (r : FacadeResult) (c : Config) (n : Nat) : Prop :=
  ∃ t, x = .next (t, some r) ∧ Cleared t ∧ Inv t ∧ t.cfg = c ∧ t.requests = n

theorem CallEnds.result_requests {x : HostRun FacadeResult} {r : FacadeResult} {n : Nat} (h : CallEnds x r c n) :
    ∃ t, x = .next (t, some r) ∧ t.requests = n := by
  obtain ⟨t, hx, -, -, -, hn⟩ := h
  exact ⟨t, hx, hn⟩

theorem CallEnds.result_cleared {x : HostRun FacadeResult} {r : FacadeResult} {n : Nat} (h : CallEnds x r c n) :
    ∃ t, x = .next (t, some r) ∧ Cleared t := by
  obtain ⟨t, hx, hclear, -⟩ := h
  exact ⟨t, hx, hclear⟩

/-- On every path that loaded a key the last act of a call is ZEROIZE (R231, R259). -/
theorem endCall_ends (how : Waiting) (r : FacadeResult) (hb : s.busy = false) (hr : s.rngPend = false) :
    CallEnds (endCall how r s) r s.cfg s.requests := by
  obtain ⟨reply, h⟩ := endCall_eq how r hb
  exact ⟨_, h, ⟨rfl, rfl, rfl, rfl, rfl, rfl, rfl, rfl, fun _ => rfl⟩,
    inv_of_idle rfl rfl hr rfl (statusInv_of_no_error (fun _ => rfl) rfl rfl) (fun h => Bool.noConfusion h)
      (Nat.zero_le _) (Nat.zero_le _) ⟨rfl, rfl⟩, rfl, rfl⟩

/-! ### LOADKEY and RUN INIT -/

/-- `t` is the block of `s` with the key `k` loaded and accepted by INIT (R157). -/
structure Keyed (k : List Byte) (s t : State) : Prop where
  /-- No command is executing. -/
  idle : t.busy = false
  /-- No request is outstanding. -/
  quiet : t.rngPend = false
  /-- KEYVALID = 1. -/
  keyValid : t.keyValid = true
  /-- The key in use is `k` (R150). -/
  key : keyInUse t = k
  /-- BUF meets the invariant. -/
  buf : BufInv t
  /-- The configuration is as before. -/
  cfg : t.cfg = s.cfg
  /-- The source's answers are as before. -/
  answers : t.answers = s.answers
  /-- No request was issued. -/
  requests : t.requests = s.requests

theorem Keyed.answerTo (h : Keyed k s t) (j : Nat) : answerTo t j = answerTo s j := by
  unfold Sys2Proof.answerTo
  rw [h.answers, h.requests]

theorem length_le_of_inKeySizes {n : Nat} (h : inKeySizes c n = true) : n ≤ 32 := by
  simp only [inKeySizes, Bool.or_eq_true, Bool.and_eq_true, beq_iff_eq] at h
  omega

theorem toNat_ofNat_32 {n : Nat} (h : n ≤ 65536) : (BitVec.ofNat 32 n).toNat = n := by
  rw [BitVec.toNat_ofNat]; omega

/-- `s` after LOADKEY with the key `k` (R130). -/
def withKey (k : List Byte) (s : State) : State :=
  { s with
    key := Vector.ofFn fun j => k.getD j.val 0#8
    klen := BitVec.ofNat 32 k.length, keyValid := false, reply := some .writeOk }

/-- KEYBYTES and KLEN after LOADKEY give the caller's key (R150). -/
theorem keyInUse_withKey (hk : k.length ≤ 32) (s : State) : keyInUse (withKey k s) = k := by
  simp only [keyInUse, withKey, toNat_ofNat_32 (hk.trans (by decide))]
  refine List.ext_getElem (by simp [hk]) fun j h1 h2 => ?_
  simp [h2]

theorem klenValid_withKey (hk : k.length ≤ 32) (s : State) :
    klenValid (withKey k s) = inKeySizes s.cfg k.length := by
  simp only [klenValid, withKey, toNat_ofNat_32 (hk.trans (by decide))]

/-- LOADKEY and RUN INIT with a key of a length in KEYSIZES. -/
theorem loadKey_init_valid (how : Waiting) (h : Inv s) (hb : s.busy = false)
    (hk : inKeySizes s.cfg k.length = true) :
    ∃ xs t w, runOps (paceOf how) (loadKeyOps k) s = .next (withKey k s, some xs) ∧
      run how .init (withKey k s) = .next (t, some w) ∧ errBit w = false ∧ Keyed k s t := by
  have hle := length_le_of_inKeySizes hk
  have hp := h.phase_of_idle hb
  obtain ⟨xs, hload⟩ := runOps_loadKey (paceOf how) k hb
  obtain ⟨r, w, hrun, herr⟩ := run_init_valid (s := withKey k s) how hb ((klenValid_withKey hle s).trans hk)
  exact ⟨xs, _, w, hload, hrun, herr, rfl, h.rngPend_of_not_run (by simp [hp]), rfl, keyInUse_withKey hle s,
    ⟨h.buf.canonical, h.buf.inside⟩, rfl, rfl, rfl⟩

/-- LOADKEY and RUN INIT with a key of another length. -/
theorem loadKey_init_invalid (how : Waiting) (hb : s.busy = false) (hle : k.length ≤ 32)
    (hk : inKeySizes s.cfg k.length = false) :
    ∃ xs t w, runOps (paceOf how) (loadKeyOps k) s = .next (withKey k s, some xs) ∧
      run how .init (withKey k s) = .next (t, some w) ∧ errBit w = true ∧ t.busy = false ∧ t.rngPend = false ∧
      t.cfg = s.cfg ∧ t.requests = s.requests := by
  obtain ⟨xs, hload⟩ := runOps_loadKey (paceOf how) k hb
  obtain ⟨r, w, hrun, herr⟩ := run_init_invalid (s := withKey k s) how hb ((klenValid_withKey hle s).trans hk)
  exact ⟨xs, _, w, hload, hrun, herr, rfl, rfl, rfl, rfl⟩

/-! ### A key the block cannot use (R261) -/

section

variable (how : Waiting) (m : Mode) (data : List Byte)

theorem facades_of_long_key (hk : 32 < k.length) :
    encryptCall how m k data s = .next (s, some (.error .invalidKey)) ∧
      decryptCall how m k data s = .next (s, some (.error .invalidKey)) :=
  ⟨if_pos hk, if_pos hk⟩

/-- INIT refuses a key of a length not in KEYSIZES, and both facades end there (R256, R257). -/
theorem facades_of_bad_key (hb : s.busy = false) (hle : k.length ≤ 32) (hk : inKeySizes s.cfg k.length = false) :
    CallEnds (encryptCall how m k data s) (.error .invalidKey) s.cfg s.requests ∧
      CallEnds (decryptCall how m k data s) (.error .invalidKey) s.cfg s.requests := by
  obtain ⟨xs, t, w, hload, hrun, herr, hidle, hquiet, hcfg, hreq⟩ := loadKey_init_invalid how hb hle hk
  have hend := endCall_ends how (.error .invalidKey) hidle hquiet
  rw [hcfg, hreq] at hend
  have hlong : ¬ 32 < k.length := by omega
  constructor
  · rwa [encryptCall, if_neg hlong, hload, thenDo_some, hrun, thenDo_some, if_pos herr]
  · rwa [decryptCall, if_neg hlong, hload, thenDo_some, hrun, thenDo_some, if_pos herr]

end

/-- Settles O58: a key that fits the KEY registers is refused by INIT, a longer one by the facade itself. -/
theorem facadesRejectBadKeys : Obligations.FacadesRejectBadKeys := by
  unfold Obligations.FacadesRejectBadKeys
  intro how m k data s _ hb hk
  by_cases hlong : 32 < k.length
  · obtain ⟨henc, hdec⟩ := facades_of_long_key (s := s) how m data hlong
    exact ⟨⟨s, henc, rfl⟩, ⟨s, hdec, rfl⟩⟩
  · obtain ⟨henc, hdec⟩ := facades_of_bad_key how m data hb (by omega) hk
    exact ⟨henc.result_requests, hdec.result_requests⟩

/-! ### The calls after INIT -/

/-- EncryptM from LOADBUF on, in a block with a key and a fresh IV (R256). -/
def encryptLoaded (how : Waiting) (m : Mode) (pd : List Byte) (s : State) : HostRun FacadeResult :=
  thenDo (runOps (paceOf how) (loadBufOps pd) s) fun s _ =>
  thenDo (run how (transformOf m .encrypt) s) fun s _ =>
  thenDo (readIv how s) fun s iv =>
  thenDo (readBuf how pd.length s) fun s body =>
  endCall how (.ok (iv ++ body)) s

/-- EncryptM after INIT has accepted the key (R256). -/
def encryptKeyed (how : Waiting) (m : Mode) (plaintext : List Byte) (s : State) : HostRun FacadeResult :=
  if bufBytes s.cfg < (pad plaintext 16).length then endCall how (.error .capacity) s
  else
    thenDo (run how .geniv s) fun s status =>
    if errBit status then endCall how (.error .randomSource) s
    else encryptLoaded how m (pad plaintext 16) s

/-- DecryptM from LOADIV on, in a block with a key (R257). -/
def decryptLoaded (how : Waiting) (m : Mode) (iv body : List Byte) (s : State) : HostRun FacadeResult :=
  thenDo (runOps (paceOf how) (loadIvOps iv) s) fun s _ =>
  thenDo (runOps (paceOf how) (loadBufOps body) s) fun s _ =>
  thenDo (run how (transformOf m .decrypt) s) fun s _ =>
  thenDo (readBuf how body.length s) fun s pd =>
  match unpad pd s.cfg.strictUnpad with
  | none => endCall how (.error .padding) s
  | some p => endCall how (.ok p) s

/-- DecryptM after INIT has accepted the key (R257). -/
def decryptKeyed (how : Waiting) (m : Mode) (ciphertext : List Byte) (s : State) : HostRun FacadeResult :=
  if ciphertext.length = 0 ∨ ciphertext.length % 16 ≠ 0 then endCall how (.error .malformedInput) s
  else if m = .cbc ∧ (ciphertext.drop 16).length % 16 ≠ 0 then endCall how (.error .malformedInput) s
  else if bufBytes s.cfg < (ciphertext.drop 16).length then endCall how (.error .capacity) s
  else decryptLoaded how m (ciphertext.take 16) (ciphertext.drop 16) s

/-- With a key of a length in KEYSIZES both facades come to their parts after INIT. -/
theorem facades_of_key (how : Waiting) (m : Mode) (data : List Byte) (h : Inv s) (hb : s.busy = false)
    (hk : inKeySizes s.cfg k.length = true) :
    ∃ t, Keyed k s t ∧ encryptCall how m k data s = encryptKeyed how m data t ∧
      decryptCall how m k data s = decryptKeyed how m data t := by
  obtain ⟨xs, t, w, hload, hrun, herr, hkeyed⟩ := loadKey_init_valid how h hb hk
  have hlong : ¬ 32 < k.length := by have := length_le_of_inKeySizes hk; omega
  have hok : ¬ errBit w = true := by simp [herr]
  refine ⟨t, hkeyed, ?_, ?_⟩
  · rw [encryptCall, if_neg hlong, hload, thenDo_some, hrun, thenDo_some, if_neg hok]; rfl
  · rw [decryptCall, if_neg hlong, hload, thenDo_some, hrun, thenDo_some, if_neg hok]; rfl

/-! ### LOADBUF and RUN of a transform -/

/-- `t` is the block of `s` after a transform that left `out` in the first `n` bytes of BUF (R159). -/
structure Transformed (n : Nat) (out : List Byte) (s t : State) : Prop where
  /-- No command is executing. -/
  idle : t.busy = false
  /-- Whether a request is outstanding is as before. -/
  rngPend : t.rngPend = s.rngPend
  /-- The IV is as before. -/
  iv : t.iv = s.iv
  /-- The configuration is as before. -/
  cfg : t.cfg = s.cfg
  /-- No request was issued. -/
  requests : t.requests = s.requests
  /-- BUF holds the output. -/
  bytes : Cells.readAll t.buf 0 n = out

theorem bufBytes_le (c : Config) : bufBytes c ≤ 65536 := by
  have := c.topBlock.isLt
  unfold bufBytes
  omega

/-- LOADBUF and RUN of a transform on whole blocks that fit BUF leave the mode's reference function of them (R166). -/
theorem loadBuf_transform (how : Waiting) (m : Mode) (d : Dir) {data : List Byte} (hb : s.busy = false)
    (hk : s.keyValid = true) (hd : d = .encrypt → s.ivFresh = true) (hbuf : BufInv s)
    (hl : data.length ≤ bufBytes s.cfg) (h16 : data.length % 16 = 0) :
    ∃ u xs t w, runOps (paceOf how) (loadBufOps data) s = .next (u, some xs) ∧
      run how (transformOf m d) u = .next (t, some w) ∧
      Transformed data.length (transformFn m d (keyedCipher s) s.iv data) s t := by
  obtain ⟨cells, xs, hload, hwf, -, hread⟩ := runOps_loadBuf (paceOf how) data hb hbuf.canonical hbuf.inside hl
  set u : State := { s with buf := cells, len := BitVec.ofNat 32 data.length, reply := some .writeOk }
  have hlen : u.len.toNat = data.length := toNat_ofNat_32 (hl.trans (bufBytes_le s.cfg))
  obtain ⟨buf, r, w, hrun, hbytes⟩ := run_transform how (s := u) (m := m) hb hk hwf (hlen.trans_le hl)
    (fun _ => hlen ▸ h16) hd
  have hloaded : Cells.readAll u.buf 0 data.length = data := readAll_loaded hread
  rw [hlen, hloaded] at hbytes
  exact ⟨u, xs, _, w, hload, hrun, rfl, rfl, rfl, rfl, rfl, hbytes⟩

section

variable {n : Nat} {out : List Byte} (how : Waiting) (h : Transformed n out s t)
include h

/-- READIV answers the IV the transform started from. -/
theorem Transformed.readIv : ∃ u, readIv how t = .next (u, some s.iv.toList) ∧ Transformed n out s u := by
  obtain ⟨r, hread⟩ := readIv_eq how h.idle
  exact ⟨{ t with reply := r }, by rw [← h.iv]; exact hread, h.idle, h.rngPend, h.iv, h.cfg, h.requests, h.bytes⟩

/-- READBUF answers the transform's output. -/
theorem Transformed.readBuf (hn : n ≤ bufBytes s.cfg) :
    ∃ u, readBuf how n t = .next (u, some out) ∧ Transformed n out s u := by
  obtain ⟨r, hread⟩ := readBuf_eq how n h.idle (h.cfg ▸ hn)
  exact ⟨{ t with reply := r }, by rw [← h.bytes]; exact hread, h.idle, h.rngPend, h.iv, h.cfg, h.requests,
    h.bytes⟩

theorem Transformed.endCall_ends (hr : s.rngPend = false) (r : FacadeResult) :
    CallEnds (endCall how r t) r s.cfg s.requests := by
  rw [← h.cfg, ← h.requests]
  exact Sys2Proof.endCall_ends how r h.idle (h.rngPend.trans hr)

end

/-- EncryptM from LOADBUF on returns the IV and the mode's encryption (R254, R256). -/
theorem encryptLoaded_ends (how : Waiting) (m : Mode) {pd : List Byte} (hb : s.busy = false) (hr : s.rngPend = false)
    (hk : s.keyValid = true) (hf : s.ivFresh = true) (hbuf : BufInv s) (hl : pd.length ≤ bufBytes s.cfg)
    (h16 : pd.length % 16 = 0) :
    CallEnds (encryptLoaded how m pd s) (.ok (s.iv.toList ++ modeEnc m (keyedCipher s) s.iv pd)) s.cfg s.requests := by
  obtain ⟨u, xs, t, w, hload, hrun, ht⟩ := loadBuf_transform how m .encrypt hb hk (fun _ => hf) hbuf hl h16
  obtain ⟨v, hiv, hv⟩ := ht.readIv how
  obtain ⟨x, hread, hx⟩ := hv.readBuf how hl
  rw [encryptLoaded, hload, thenDo_some, hrun, thenDo_some, hiv, thenDo_some, hread, thenDo_some]
  exact hx.endCall_ends how hr _

/-- What DecryptM makes of the decrypted bytes (R252, R257). -/
def unpadResult (pd : List Byte) (strict : Bool) : FacadeResult :=
  match unpad pd strict with
  | some p => .ok p
  | none => .error .padding

/-- DecryptM from LOADIV on returns the unpadded decryption, or PaddingError (R257). -/
theorem decryptLoaded_ends (how : Waiting) (m : Mode) (iv : List Byte) {body : List Byte} (hb : s.busy = false)
    (hr : s.rngPend = false) (hk : s.keyValid = true) (hbuf : BufInv s) (hl : body.length ≤ bufBytes s.cfg)
    (h16 : body.length % 16 = 0) :
    CallEnds (decryptLoaded how m iv body s)
      (unpadResult (modeDec m (keyedCipher s) (blockOf iv) body) s.cfg.strictUnpad) s.cfg s.requests := by
  obtain ⟨xs, hiv⟩ := runOps_loadIv (paceOf how) iv hb
  set v : State := { s with iv := blockOf iv, ivFresh := false, reply := some .writeOk }
  obtain ⟨u, ys, t, w, hload, hrun, ht⟩ := loadBuf_transform how m .decrypt (s := v) hb hk (by simp)
    ⟨hbuf.canonical, hbuf.inside⟩ hl h16
  obtain ⟨x, hread, hx⟩ := ht.readBuf how hl
  rw [decryptLoaded, hiv, thenDo_some, hload, thenDo_some, hrun, thenDo_some, hread, thenDo_some, hx.cfg]
  change CallEnds _ (unpadResult (transformFn m .decrypt (keyedCipher v) v.iv body) v.cfg.strictUnpad) v.cfg v.requests
  unfold unpadResult
  cases unpad (transformFn m .decrypt (keyedCipher v) v.iv body) v.cfg.strictUnpad with
  | none => exact hx.endCall_ends how hr _
  | some p => exact hx.endCall_ends how hr _

/-! ### EncryptM after INIT -/

section

variable {p : List Byte} (how : Waiting) (m : Mode) (ht : Keyed k s t)
include ht

theorem Keyed.keyedCipher : keyedCipher t = cipherOf s.cfg.cipher k := by
  rw [Machine.keyedCipher, ht.cfg, ht.key]

/-- A padded plaintext that is longer than BUF (R262). -/
theorem encryptKeyed_capacity (hp : bufBytes s.cfg < (pad p 16).length) :
    CallEnds (encryptKeyed how m p t) (.error .capacity) s.cfg s.requests := by
  rw [encryptKeyed, ht.cfg, if_pos hp, ← ht.cfg, ← ht.requests]
  exact endCall_ends how _ ht.idle ht.quiet

/-- A source that answers Fail (R208, R256). -/
theorem encryptKeyed_randomSource (hp : (pad p 16).length ≤ bufBytes s.cfg) {n : Nat} (hn : n < 16)
    (hbytes : ∀ j, j < n → ∃ b, answerTo s j = .byte b) (hfail : answerTo s n = .fail) :
    CallEnds (encryptKeyed how m p t) (.error .randomSource) s.cfg (s.requests + (n + 1)) := by
  simp only [← ht.answerTo] at hbytes hfail
  obtain ⟨r, w, hrun, herr⟩ := run_geniv_fail how ht.idle ht.quiet ht.keyValid hn hbytes hfail
  rw [encryptKeyed, ht.cfg, if_neg (by omega), hrun, thenDo_some, if_pos herr, ← ht.cfg, ← ht.requests]
  exact endCall_ends how _ rfl rfl

/-- A source that answers the bytes of `v` (R205, R256). -/
theorem encryptKeyed_bytes (hp : (pad p 16).length ≤ bufBytes s.cfg) {v : Block}
    (hv : ∀ j, j < 16 → answerTo s j = .byte (v.toList.getD j 0#8)) :
    CallEnds (encryptKeyed how m p t) (.ok (v.toList ++ modeEnc m (cipherOf s.cfg.cipher k) v (pad p 16))) s.cfg
      (s.requests + 16) := by
  simp only [← ht.answerTo] at hv
  obtain ⟨r, w, hrun, herr⟩ := run_geniv_bytes how ht.idle ht.quiet ht.keyValid hv
  rw [encryptKeyed, ht.cfg, if_neg (by omega), hrun, thenDo_some, if_neg (by simp [herr]), ← ht.keyedCipher,
    ← ht.cfg, ← ht.requests]
  exact encryptLoaded_ends how m rfl ht.quiet ht.keyValid rfl ⟨ht.buf.canonical, ht.buf.inside⟩ (ht.cfg ▸ hp)
    (length_pad_mod (by decide))

/-! ### DecryptM after INIT -/

variable {data : List Byte}

/-- A ciphertext that is empty or has no whole number of blocks (R257). -/
theorem decryptKeyed_malformed (hd : data.length = 0 ∨ data.length % 16 ≠ 0) :
    CallEnds (decryptKeyed how m data t) (.error .malformedInput) s.cfg s.requests := by
  rw [decryptKeyed, if_pos hd, ← ht.cfg, ← ht.requests]
  exact endCall_ends how _ ht.idle ht.quiet

/-- A body that is longer than BUF (R262). -/
theorem decryptKeyed_capacity (h16 : data.length % 16 = 0) (hd : bufBytes s.cfg + 16 < data.length) :
    CallEnds (decryptKeyed how m data t) (.error .capacity) s.cfg s.requests := by
  have hbody : (data.drop 16).length = data.length - 16 := List.length_drop
  rw [decryptKeyed, if_neg (by omega), if_neg (by omega), ht.cfg, if_pos (by omega), ← ht.cfg, ← ht.requests]
  exact endCall_ends how _ ht.idle ht.quiet

/-- Every other ciphertext (R257). -/
theorem decryptKeyed_unpad (h16 : data.length % 16 = 0) (h0 : 16 ≤ data.length)
    (hd : data.length ≤ bufBytes s.cfg + 16) :
    CallEnds (decryptKeyed how m data t)
      (unpadResult (modeDec m (cipherOf s.cfg.cipher k) (blockOf (data.take 16)) (data.drop 16)) s.cfg.strictUnpad)
      s.cfg s.requests := by
  have hbody : (data.drop 16).length = data.length - 16 := List.length_drop
  rw [decryptKeyed, if_neg (by omega), if_neg (by omega), ht.cfg, if_neg (by omega), ← ht.keyedCipher, ← ht.cfg,
    ← ht.requests]
  exact decryptLoaded_ends how m _ ht.idle ht.quiet ht.keyValid ht.buf (by rw [ht.cfg]; omega) (by omega)

end

/-! ### The statements about the facades -/

/-- Settles O56: INIT accepts the key, GENIV draws `v`, and the transform is the mode's encryption. -/
theorem encryptFacadeWireFormat : Obligations.EncryptFacadeWireFormat := by
  unfold Obligations.EncryptFacadeWireFormat
  intro how m k p v s h hb hk hp hv
  obtain ⟨t, ht, henc, -⟩ := facades_of_key how m p h hb hk
  rw [henc]
  exact (encryptKeyed_bytes how m ht hp hv).result_cleared

/-- Decryption takes back the mode's encryption of whole blocks (R167). -/
theorem modeDec_modeEnc (m : Mode) (e : Equiv.Perm Block) (iv : Block) {p : List Byte} (hp : p.length % 16 = 0) :
    modeDec m e iv (modeEnc m e iv p) = p := by
  cases m with
  | cfb => exact cfbDec_cfbEnc e iv p
  | cbc => exact cbcDec_cbcEnc e iv p hp

theorem length_modeEnc (m : Mode) (e : Equiv.Perm Block) (iv : Block) {p : List Byte} (hp : p.length % 16 = 0) :
    (modeEnc m e iv p).length = p.length := by
  cases m with
  | cfb => exact length_cfbEnc e iv p
  | cbc => exact length_cbcEnc e iv p hp

/-- Settles O57: in the block EncryptM leaves, DecryptM finds the IV in front, decrypts the padded plaintext and unpads
it. -/
theorem facadeRoundTrip : Obligations.FacadeRoundTrip := by
  unfold Obligations.FacadeRoundTrip
  intro how how' m k p v s h hb hk hp hv
  obtain ⟨s', hs', henc, -⟩ := facades_of_key how m p h hb hk
  obtain ⟨t, ht, hclear, hinv, hcfg, -⟩ := encryptKeyed_bytes how m hs' hp hv
  have hpad : (pad p 16).length % 16 = 0 := length_pad_mod (by decide)
  set e := cipherOf s.cfg.cipher k
  have hlen : (v.toList ++ modeEnc m e v (pad p 16)).length = 16 + (pad p 16).length := by
    rw [List.length_append, length_toList_block, length_modeEnc m e v hpad]
  obtain ⟨t', ht', -, hdec⟩ := facades_of_key how' m (v.toList ++ modeEnc m e v (pad p 16)) hinv hclear.idle
    (hcfg ▸ hk)
  obtain ⟨u, hu, -⟩ := decryptKeyed_unpad how' m ht' (data := v.toList ++ modeEnc m e v (pad p 16)) (by omega)
    (by omega) (by rw [hcfg]; omega)
  rw [hcfg, List.take_left' (length_toList_block v), List.drop_left' (length_toList_block v), blockOf_toList,
    modeDec_modeEnc m e v hpad, unpadResult, unpad_pad (by decide) (by decide)] at hu
  exact ⟨t, _, henc.trans ht, u, hdec.trans hu⟩

/-- Settles O59: INIT accepts the key, and each clause is one way through what follows it. -/
theorem facadesReportErrors : Obligations.FacadesReportErrors := by
  unfold Obligations.FacadesReportErrors
  intro how m k data s h hb hk
  obtain ⟨t, ht, henc, hdec⟩ := facades_of_key how m data h hb hk
  rw [henc, hdec]
  refine ⟨fun hp => ?_, fun n hp hn hbytes hfail => ?_, fun hd => ?_, fun h16 hd => ?_, fun h16 h0 hd => ?_⟩
  · exact (encryptKeyed_capacity how m ht hp).result_requests
  · exact (encryptKeyed_randomSource how m ht hp hn hbytes hfail).result_requests
  · exact (decryptKeyed_malformed how m ht hd).result_requests
  · exact (decryptKeyed_capacity how m ht h16 hd).result_requests
  · exact (decryptKeyed_unpad how m ht h16 h0 hd).result_requests

/-! ### Whatever the source answers (R200, R259) -/

/-- The next `n` requests are all answered with bytes, or some first one of them with Fail (R200). -/
theorem answers_cases (s : State) (n : Nat) :
    (∀ j, j < n → ∃ b, answerTo s j = .byte b) ∨
      ∃ j, j < n ∧ (∀ i, i < j → ∃ b, answerTo s i = .byte b) ∧ answerTo s j = .fail := by
  induction n with
  | zero => exact .inl (by simp)
  | succ n ih =>
    rcases ih with hbytes | ⟨j, hj, h⟩
    · cases ha : answerTo s n with
      | byte b =>
        refine .inl fun j hj => ?_
        rcases Nat.lt_succ_iff_lt_or_eq.mp hj with hlt | rfl
        · exact hbytes j hlt
        · exact ⟨b, ha⟩
      | fail => exact .inr ⟨n, by omega, hbytes, ha⟩
    · exact .inr ⟨j, by omega, h⟩

/-- Sixteen answered bytes are the bytes of a block. -/
theorem exists_block_of_answers (h : ∀ j, j < 16 → ∃ b, answerTo s j = .byte b) :
    ∃ v : Block, ∀ j, j < 16 → answerTo s j = .byte (v.toList.getD j 0#8) := by
  choose f hf using h
  refine ⟨Vector.ofFn fun j => f j.val j.isLt, fun j hj => ?_⟩
  rw [hf j hj]
  simp [hj]

/-- EncryptM ends whatever the source answers (R203, R256). -/
theorem encryptKeyed_ends (how : Waiting) (m : Mode) (p : List Byte) (ht : Keyed k s t) :
    ∃ r n, CallEnds (encryptKeyed how m p t) r s.cfg n := by
  rcases Nat.lt_or_ge (bufBytes s.cfg) (pad p 16).length with hp | hp
  · exact ⟨_, _, encryptKeyed_capacity how m ht hp⟩
  · rcases answers_cases s 16 with hbytes | ⟨n, hn, hbytes, hfail⟩
    · obtain ⟨v, hv⟩ := exists_block_of_answers hbytes
      exact ⟨_, _, encryptKeyed_bytes how m ht hp hv⟩
    · exact ⟨_, _, encryptKeyed_randomSource how m ht hp hn hbytes hfail⟩

/-- DecryptM ends for every ciphertext (R257). -/
theorem decryptKeyed_ends (how : Waiting) (m : Mode) (data : List Byte) (ht : Keyed k s t) :
    ∃ r n, CallEnds (decryptKeyed how m data t) r s.cfg n := by
  by_cases hd : data.length = 0 ∨ data.length % 16 ≠ 0
  · exact ⟨_, _, decryptKeyed_malformed how m ht hd⟩
  · rcases Nat.lt_or_ge (bufBytes s.cfg + 16) data.length with hlong | hfits
    · exact ⟨_, _, decryptKeyed_capacity how m ht (by omega) hlong⟩
    · exact ⟨_, _, decryptKeyed_unpad how m ht (by omega) (by omega) hfits⟩

/-- Settles O60: every way through a call that loaded a key ends in ZEROIZE. -/
theorem facadesLeaveNothing : Obligations.FacadesLeaveNothing := by
  unfold Obligations.FacadesLeaveNothing
  intro how m k data s h hb
  refine ⟨fun hle => ?_, facades_of_long_key how m data⟩
  have cleared {x : HostRun FacadeResult} {r : FacadeResult} {n : Nat} (hx : CallEnds x r s.cfg n) :
      ∃ t r, x = .next (t, some r) ∧ Cleared t := by
    obtain ⟨t, hx⟩ := hx.result_cleared
    exact ⟨t, r, hx⟩
  cases hk : inKeySizes s.cfg k.length with
  | false =>
    obtain ⟨henc, hdec⟩ := facades_of_bad_key how m data hb hle hk
    exact ⟨cleared henc, cleared hdec⟩
  | true =>
    obtain ⟨t, ht, henc, hdec⟩ := facades_of_key how m data h hb hk
    obtain ⟨r, n, hends⟩ := encryptKeyed_ends how m data ht
    obtain ⟨r', n', hends'⟩ := decryptKeyed_ends how m data ht
    rw [henc, hdec]
    exact ⟨cleared hends, cleared hends'⟩

end Sys2Proof

/-! ## What an error completion leaves behind (R310 to R312) -/

namespace Sys2Proof

open Sys2Proof.Machine

variable {s t : State}

/-- A turn that raises ERR is an error completion; the source's Fail is one too, which zeroes the IV itself (R310). -/
theorem TurnTo.eq_raiseErr (h : TurnTo s t) (hs : s.err = false) (ht : t.err = true) :
    ∃ c answers, c ≠ .none ∧ t = raiseErr c { s with answers := answers } := by
  cases h with
  | error c busy phase code => exact ⟨c, s.answers, code, rfl⟩
  | noByte => exact ⟨.randomSource, s.answers.tail, by decide, rfl⟩
  | _ => simp_all

/-- ERR rises in an error completion only: no host access and no reset raises it (R310). -/
theorem StepTo.eq_raiseErr (h : StepTo s t) (hs : s.err = false) (ht : t.err = true) :
    ∃ c inputs answers, c ≠ .none ∧ t = raiseErr c { s with inputs := inputs, answers := answers } := by
  cases h with
  | turn rest turn =>
    obtain ⟨c, answers, hc, rfl⟩ := turn.eq_raiseErr hs ht
    exact ⟨c, rest, answers, hc, rfl⟩
  | _ => simp_all

/-- An error completion keeps the IV or, for RANDOM_SOURCE, zeroes it (R310). -/
theorem raiseErr_iv_same_or_zero (c : ECode) (s : State) :
    (raiseErr c s).iv = s.iv ∨ (raiseErr c s).iv = zeroBlock := by
  rw [raiseErr_iv]
  by_cases hc : c = .randomSource
  · exact .inr (if_pos hc)
  · exact .inl (if_neg hc)

/-- Settles O40: a step that raises ERR is an error completion, of which the laws of the state say every field. -/
theorem errorLeavesNoPartialResult : Obligations.ErrorLeavesNoPartialResult := by
  unfold Obligations.ErrorLeavesNoPartialResult
  intro s t h hs ht
  obtain ⟨c, inputs, answers, hc, rfl⟩ := (stepTo_of_step h).eq_raiseErr hs ht
  have hiv := raiseErr_iv_same_or_zero c { s with inputs := inputs, answers := answers }
  refine ⟨by simp, by simp, by simp, hiv, ?_⟩
  simp [hc]

end Sys2Proof
